-- ==== Sys2Proof/Word.lean ====
section
/-! DEFINITION. The words of the block: bytes, samples, counters and the stereo pair (00_scope.md R12, R15). -/

namespace Sys2Proof

/-- A byte of a command record. -/
abbrev Byte := BitVec 8

/-- One mono sample: an `i16`, two's complement (R12). -/
abbrev Sample := BitVec 16

/-- A 32-bit register or response word. -/
abbrev Word32 := BitVec 32

/-- A stereo sample: two `i16` halves (R15, R65). -/
structure Pair where
  l : Sample
  r : Sample
  deriving DecidableEq, Repr, Inhabited

/-- The pair `(0, 0)`: silence. -/
def Pair.silent : Pair := ⟨0, 0⟩

end Sys2Proof
end

