-- ==== Sys2Proof/Machine/Arith.lean ====
section
/-! DEFINITION. The arithmetic primitives of 00_scope.md R13, on unbounded integers, and the narrowing to registers. -/

namespace Sys2Proof.Machine

/-- `sra(v, k) = floor(v / 2^k)` (R13). -/
def sra (v : Int) (k : Nat) : Int := v / ((2 ^ k : Nat) : Int)

/-- `clip16(v)` (R13). -/
def clip16 (v : Int) : Int := if v < -32768 then -32768 else if 32767 < v then 32767 else v

/-- `sgn(v) * m` for a magnitude `m` (R13, R112, R114). -/
def withSign (v : Int) (m : Nat) : Int := v.sign * (m : Int)

/-- `sat_inc32(c)` (R13). -/
def satInc32 (c : Word32) : Word32 := if c.toNat < 4294967295 then c + 1 else c

/-- `sat_add32(c, k)` (R13). -/
def satAdd32 (c : Word32) (k : Nat) : Word32 := BitVec.ofNat 32 (min (c.toNat + k) 4294967295)

/-- The `i16` a value is stored as (R12). -/
def toSample (v : Int) : Sample := BitVec.ofInt 16 v

/-- The `i32` a value is stored as (R12). -/
def toWord32 (v : Int) : Word32 := BitVec.ofInt 32 v

/-- Stage (7), stereo: the mono result on both channels (R113). -/
def stereo (v : Int) : Pair := ⟨toSample v, toSample v⟩

/-- The raw 32-bit image of a stereo pair, `word[15:0] = l`, `word[31:16] = r` (R65). PRESUMED by the spec (log 20); no
rule depends on it. -/
def pairImage (p : Pair) : Word32 := p.r ++ p.l

/-- A response word laid out in bytes, low byte first (R64). -/
def wordBytes (w : Word32) : List Byte :=
  [w.extractLsb' 0 8, w.extractLsb' 8 8, w.extractLsb' 16 8, w.extractLsb' 24 8]

end Sys2Proof.Machine
end

