-- ==== Sys2Proof/Syntax.lean ====
section
/-! DEFINITION. The command record and the fourteen commands (30_encoding.md R80 to R85). -/

namespace Sys2Proof

/-- A command record: 8 bytes, numbered in presentation order (R80, R82). -/
structure Record where
  b0 : Byte
  b1 : Byte
  b2 : Byte
  b3 : Byte
  b4 : Byte
  b5 : Byte
  b6 : Byte
  b7 : Byte
  deriving DecidableEq, Repr

/-- The commands, one constructor per row of spec/opcode_table.json. An operand is the field as the record carries
it (R83, R84); how a rule reads it (R85) is in Machine/Operands.lean. -/
inductive Instr where
  /-- `REGWRITE chip, port, data @ts`, format R. -/
  | regwrite (chip port data : Byte) (ts : Word32)
  /-- `RESET`, format Z. -/
  | reset
  /-- `VOLUME a0`, format A. -/
  | volume (a0 : Byte)
  /-- `ENABLE a0`, format A. -/
  | enable (a0 : Byte)
  /-- `FRAMESYNC @cycle`, format T: the cycle stands in `ts` (R86). -/
  | framesync (cycle : Word32)
  /-- `DACSAMPLE d @ts`, format S. -/
  | dacsample (d : Sample) (ts : Word32)
  /-- `INIT`, format Z. -/
  | init
  /-- `TEARDOWN`, format Z. -/
  | teardown
  /-- `MIX`, format Z. -/
  | mix
  /-- `PUSH`, format Z. -/
  | push
  /-- `SUBMIT`, format Z. -/
  | submit
  /-- `GET_STATS`, format Z. -/
  | getStats
  /-- `RESET_STATS`, format Z. -/
  | resetStats
  /-- `SET_SHIFT a0`, format A. -/
  | setShift (a0 : Byte)
  deriving DecidableEq, Repr

/-- The pseudo commands of R93. -/
inductive Pseudo where
  | reinit
  | mute
  | unmute
  deriving DecidableEq, Repr

end Sys2Proof
end

