-- ==== Sys2Proof/WellFormed.lean ====
section
/-! DEFINITION. Which commands the assembler syntax of 30_encoding.md R92 can write. -/

namespace Sys2Proof

/-- A command is well formed when R92's syntax can write it: `ENABLE e` takes `e` in `0..1`, `SET_SHIFT s` takes `s`
in `0..15`; every other operand may hold any value of its field. The block executes the other two kinds' remaining
operands as well (R85, R87), so no meaning and no statement asks for well-formedness. -/
def Instr.wellFormed : Instr → Bool
  | .regwrite _ _ _ _ => true
  | .reset => true
  | .volume _ => true
  | .enable a0 => decide (a0.toNat ≤ 1)
  | .framesync _ => true
  | .dacsample _ _ => true
  | .init => true
  | .teardown => true
  | .mix => true
  | .push => true
  | .submit => true
  | .getStats => true
  | .resetStats => true
  | .setShift a0 => decide (a0.toNat ≤ 15)

end Sys2Proof
end

