-- ==== Sys2Proof/Decode.lean ====
section
/-! DEFINITION. The command record's fields, the decoder and the encoder (30_encoding.md R82 to R93). -/

namespace Sys2Proof

/-- The record whose 64-bit little-endian word is `w`: byte `k` is `w[8k+7 : 8k]` (R82). -/
def Record.ofWord (w : BitVec 64) : Record where
  b0 := w.extractLsb' 0 8
  b1 := w.extractLsb' 8 8
  b2 := w.extractLsb' 16 8
  b3 := w.extractLsb' 24 8
  b4 := w.extractLsb' 32 8
  b5 := w.extractLsb' 40 8
  b6 := w.extractLsb' 48 8
  b7 := w.extractLsb' 56 8

/-- The record as one 64-bit little-endian word (R82). -/
def Record.toWord (r : Record) : BitVec 64 :=
  r.b7 ++ r.b6 ++ r.b5 ++ r.b4 ++ r.b3 ++ r.b2 ++ r.b1 ++ r.b0

/-- Field `kind`: byte 0 (R82). -/
def Record.kind (r : Record) : Byte := r.b0

/-- Field `a0`: byte 1 (R82). -/
def Record.a0 (r : Record) : Byte := r.b1

/-- Field `a1`: bytes 2 and 3, byte 2 the low byte (R82, R64). -/
def Record.a1 (r : Record) : BitVec 16 := r.b3 ++ r.b2

/-- Field `ts`: bytes 4 to 7, byte 4 the low byte (R82, R64). -/
def Record.ts (r : Record) : Word32 := r.b7 ++ r.b6 ++ r.b5 ++ r.b4

/-- The record with the given fields, laid out as R82 says. -/
def Record.ofFields (kind a0 : Byte) (a1 : BitVec 16) (ts : Word32) : Record where
  b0 := kind
  b1 := a0
  b2 := a1.extractLsb' 0 8
  b3 := a1.extractLsb' 8 8
  b4 := ts.extractLsb' 0 8
  b5 := ts.extractLsb' 8 8
  b6 := ts.extractLsb' 16 8
  b7 := ts.extractLsb' 24 8

/-- What the decoder answers: a command, or the rejection of a reserved kind code, by name (R89, R91). -/
inductive Decoded where
  | command (i : Instr)
  | reserved (kind : Byte)
  deriving DecidableEq, Repr

/-- The decoder: take byte 0, look it up in the kind map, read the fields of the kind's format (R83, R84, R91). Total:
every record is one of the fourteen kinds or reserved. -/
def decode (r : Record) : Decoded :=
  match r.kind with
  | 0x00#8 => .command (.regwrite r.a0 (r.a1.extractLsb' 0 8) (r.a1.extractLsb' 8 8) r.ts)
  | 0x01#8 => .command .reset
  | 0x02#8 => .command (.volume r.a0)
  | 0x03#8 => .command (.enable r.a0)
  | 0x04#8 => .command (.framesync r.ts)
  | 0x05#8 => .command (.dacsample r.a1 r.ts)
  | 0x10#8 => .command .init
  | 0x11#8 => .command .teardown
  | 0x12#8 => .command .mix
  | 0x13#8 => .command .push
  | 0x14#8 => .command .submit
  | 0x15#8 => .command .getStats
  | 0x16#8 => .command .resetStats
  | 0x17#8 => .command (.setShift r.a0)
  | k => .reserved k

/-- The command of an answer of the decoder, none where it rejects. -/
def Decoded.toOption : Decoded → Option Instr
  | .command i => some i
  | .reserved _ => none

/-- The record of the bits `w` of a row that the opcode table gives `nbits` bits; the bits above `nbits` are 0. -/
def Record.ofTableWord (nbits w : Nat) : Record := Record.ofWord (BitVec.ofNat 64 (w % 2 ^ nbits))

/-- The instruction the decoder reads from the bits `w` of a table row of `nbits` bits. -/
def decodeTableWord (nbits w : Nat) : Option Instr := (decode (Record.ofTableWord nbits w)).toOption

/-- The kind code of a command (R83). -/
def Instr.kindCode : Instr → Byte
  | .regwrite _ _ _ _ => 0x00
  | .reset => 0x01
  | .volume _ => 0x02
  | .enable _ => 0x03
  | .framesync _ => 0x04
  | .dacsample _ _ => 0x05
  | .init => 0x10
  | .teardown => 0x11
  | .mix => 0x12
  | .push => 0x13
  | .submit => 0x14
  | .getStats => 0x15
  | .resetStats => 0x16
  | .setShift _ => 0x17

/-- The encoder: the record of a command, the fields its kind does not read written as zero (R84, R87, R92). -/
def encode (i : Instr) : Record :=
  match i with
  | .regwrite chip port data ts => .ofFields i.kindCode chip (data ++ port) ts
  | .reset => .ofFields i.kindCode 0 0 0
  | .volume a0 => .ofFields i.kindCode a0 0 0
  | .enable a0 => .ofFields i.kindCode a0 0 0
  | .framesync cycle => .ofFields i.kindCode 0 0 cycle
  | .dacsample d ts => .ofFields i.kindCode 0 d ts
  | .init => .ofFields i.kindCode 0 0 0
  | .teardown => .ofFields i.kindCode 0 0 0
  | .mix => .ofFields i.kindCode 0 0 0
  | .push => .ofFields i.kindCode 0 0 0
  | .submit => .ofFields i.kindCode 0 0 0
  | .getStats => .ofFields i.kindCode 0 0 0
  | .resetStats => .ofFields i.kindCode 0 0 0
  | .setShift a0 => .ofFields i.kindCode a0 0 0

/-- A format: which fields a kind reads (R84). -/
inductive Format where
  | z
  | a
  | r
  | s
  | t
  deriving DecidableEq, Repr

/-- The format of a command (R83, R84). -/
def Instr.format : Instr → Format
  | .regwrite _ _ _ _ => .r
  | .reset => .z
  | .volume _ => .a
  | .enable _ => .a
  | .framesync _ => .t
  | .dacsample _ _ => .s
  | .init => .z
  | .teardown => .z
  | .mix => .z
  | .push => .z
  | .submit => .z
  | .getStats => .z
  | .resetStats => .z
  | .setShift _ => .a

/-- The record with every field that the format does not read set to zero, as an assembler writes it (R84, R87). -/
def Record.onlyRead (r : Record) : Format → Record
  | .z => .ofFields r.kind 0 0 0
  | .a => .ofFields r.kind r.a0 0 0
  | .r => .ofFields r.kind r.a0 r.a1 r.ts
  | .s => .ofFields r.kind 0 r.a1 r.ts
  | .t => .ofFields r.kind 0 0 r.ts

/-- The fixed expansion of a pseudo command (R93). -/
def Pseudo.expand : Pseudo → List Instr
  | .reinit => [.teardown, .init]
  | .mute => [.enable 0]
  | .unmute => [.enable 1]

/-- A command in the assembler syntax of R92. -/
def Instr.toAssembly : Instr → String
  | .regwrite chip port data ts =>
    "REGWRITE " ++ toString chip.toNat ++ ", " ++ toString port.toNat ++ ", " ++ toString data.toNat ++
      " @" ++ toString ts.toNat
  | .reset => "RESET"
  | .volume a0 => "VOLUME " ++ toString a0.toNat
  | .enable a0 => "ENABLE " ++ toString a0.toNat
  | .framesync cycle => "FRAMESYNC @" ++ toString cycle.toNat
  | .dacsample d ts => "DACSAMPLE " ++ toString d.toInt ++ " @" ++ toString ts.toNat
  | .init => "INIT"
  | .teardown => "TEARDOWN"
  | .mix => "MIX"
  | .push => "PUSH"
  | .submit => "SUBMIT"
  | .getStats => "GET_STATS"
  | .resetStats => "RESET_STATS"
  | .setShift a0 => "SET_SHIFT " ++ toString a0.toNat

end Sys2Proof
end

