-- ==== Sys2Proof/Config.lean ====
section
/-! DEFINITION. The build-time parameters of the block (00_scope.md R9, R10). The constraints on them are
`legalConfig` in Machine/Params.lean. -/

namespace Sys2Proof

/-- The shape of the DMA region, fixed at build time (R10, R130). -/
inductive Shape where
  | ring
  | pingpong
  | nbuf
  deriving DecidableEq, Repr

/-- The configuration record `cfg` of R9: one field per parameter of R10, but for `hw_available`, which ENV supplies
at each `INIT`. -/
structure Config where
  /-- `SHAPE`. -/
  shape : Shape
  /-- `FS`, Hz; informative, no rule reads it (R262). -/
  fs : Nat
  /-- `FPS`; informative, no rule reads it (R262). -/
  fps : Nat
  /-- `N`, samples per frame. -/
  n : Nat
  /-- `CAP`, capacity of `FM_IN`, `PSG_IN`, `OUT_BUF` in samples. -/
  cap : Nat
  /-- `SHIFT_NORMAL`. -/
  shiftNormal : Nat
  /-- `SHIFT_CLICK`. -/
  shiftClick : Nat
  /-- `CLICK_THRESHOLD`. -/
  clickThreshold : Nat
  /-- `F`, crossfade length in samples. -/
  f : Nat
  /-- `LIM_EN`. -/
  limEn : Bool
  /-- `LIM_T`. -/
  limT : Nat
  /-- `LIM_SHIFT`. -/
  limShift : Nat
  /-- `FADE_SHIFT`. -/
  fadeShift : Nat
  /-- `STARTUP_FRAMES`. -/
  startupFrames : Nat
  /-- `RING_SIZE`, samples. -/
  ringSize : Nat
  /-- `MIN_HEADROOM`, samples. -/
  minHeadroom : Nat
  /-- `PREROLL`, pushes before the engine starts. -/
  preroll : Nat
  /-- `BUF_LEN`, samples per buffer. -/
  bufLen : Nat
  /-- `NBUF`, number of buffers. -/
  nbuf : Nat
  deriving DecidableEq, Repr

/-- The default of `PREROLL`, by shape (R10). -/
def Shape.defaultPreroll : Shape → Nat
  | .ring => 3
  | .pingpong => 2
  | .nbuf => 2

/-- The default of every parameter of R10 for a block built in the given shape. `MIN_HEADROOM` and `BUF_LEN` default to
`N`. -/
def Config.defaultOf (shape : Shape) : Config where
  shape := shape
  fs := 53280
  fps := 60
  n := 888
  cap := 888
  shiftNormal := 2
  shiftClick := 4
  clickThreshold := 4096
  f := 32
  limEn := true
  limT := 24576
  limShift := 2
  fadeShift := 4
  startupFrames := 120
  ringSize := 4096
  minHeadroom := 888
  preroll := shape.defaultPreroll
  bufLen := 888
  nbuf := 4

/-- The defaults of R10 throughout: `SHAPE` defaults to `PINGPONG`. -/
def Config.default : Config := .defaultOf .pingpong

end Sys2Proof
end

