-- ==== Sys2Proof/Machine/Memory.lean ====
section
/-! DEFINITION. Element-indexed memories (20_memory.md R60, R61): a list of (index, element) pairs in one canonical
form, and the three accesses every rule uses. -/

namespace Sys2Proof.Machine

/-- An address space of R60: `(index, element)` cells. An element that is not listed reads as `default`, which is 0
for a sample and `(0, 0)` for a pair: the reset contents of every space (R50). -/
abbrev Memory (α : Type) := List (Nat × α)

variable {α : Type} [DecidableEq α] [Inhabited α]

/-- `MemRead(S:i, 1)` (R14). -/
def Memory.read (m : Memory α) (i : Nat) : α :=
  match m with
  | [] => default
  | (k, v) :: rest => if k = i then v else Memory.read rest i

/-- `MemRead(S:i, n)`: `n` consecutive elements from index `i` (R14). -/
def Memory.readBlock (m : Memory α) (i n : Nat) : List α :=
  (List.range n).map fun j => m.read (i + j)

/-- The cells of consecutive elements from index `i`; an element that an unlisted index reads as gets no cell. -/
def Memory.cells (i : Nat) : List α → Memory α
  | [] => []
  | v :: vs => if v = default then Memory.cells (i + 1) vs else (i, v) :: Memory.cells (i + 1) vs

/-- `MemWrite(S:i, n, v)`: the elements `vs` at consecutive indices from `i` (R14). -/
def Memory.writeBlock (m : Memory α) (i : Nat) (vs : List α) : Memory α :=
  m.filter (fun c => c.1 < i) ++ Memory.cells i vs ++ m.filter (fun c => i + vs.length ≤ c.1)

/-- `MemWrite(S:i, 1, v)`. -/
def Memory.write (m : Memory α) (i : Nat) (v : α) : Memory α := m.writeBlock i [v]

/-- Every cell of `m` stands at `lo` or above, the indices rise strictly and no cell holds what an unlisted index
reads as. -/
def Memory.wfFrom (lo : Nat) : Memory α → Bool
  | [] => true
  | (k, v) :: rest => decide (lo ≤ k) && decide (v ≠ default) && Memory.wfFrom (k + 1) rest

/-- The canonical form. -/
def Memory.wf (m : Memory α) : Bool := Memory.wfFrom 0 m

/-- Every listed index is below `size`: the space has no other elements (R60). -/
def Memory.within (m : Memory α) (size : Nat) : Bool := m.all fun c => decide (c.1 < size)

end Sys2Proof.Machine
end

