-- ==== Sys2Proof/Machine/State.lean ====
section
/-! DEFINITION. The state of the block, in the six groups of 10_state.md R20, with the build parameters and what
stands outside the block; the reasons a step can stop; the state after power-on reset (R50). -/

namespace Sys2Proof.Machine

/-- `BLK_STATE` (R32). -/
inductive BlkState where
  | off
  | ready
  | failed
  deriving DecidableEq, Repr

/-- `RST`, the state of the whole region for the ring and N-buffer shapes (R37, R39, R40). -/
inductive RegionState where
  | idle
  | armed
  | playing
  deriving DecidableEq, Repr

/-- `BST[k]`, the state of one ping-pong buffer (R38, R40). -/
inductive BufState where
  | idle
  | armed
  | playing
  | refilling
  deriving DecidableEq, Repr

/-- A descriptor `(ADDR, COUNT)`: the offset of the next element to read and the elements left (R38). -/
structure Desc where
  addr : Nat
  count : Nat
  deriving DecidableEq, Repr

/-- The original start address and length of a descriptor: `(0, BUF_LEN)` (R38). -/
def Desc.armed (c : Config) : Desc := ⟨0, c.bufLen⟩

/-- Control registers (R22 to R24). -/
structure Control where
  /-- `VOLUME`. -/
  volume : BitVec 8
  /-- `ENABLE`. -/
  enable : Bool
  /-- `DMA_SHIFT`. -/
  dmaShift : BitVec 4
  deriving DecidableEq, Repr

/-- Input registers and memories, written by the SCA only (R26, R27). -/
structure Input where
  /-- `FM_COUNT`, an `i32`. -/
  fmCount : Word32
  /-- `PSG_COUNT`, an `i32`. -/
  psgCount : Word32
  /-- `FM_IN`. -/
  fmIn : Memory Sample
  /-- `PSG_IN`. -/
  psgIn : Memory Sample
  deriving DecidableEq, Repr

/-- Mixer state (R28 to R31). -/
structure Mixer where
  /-- `LPF_STATE`, an `i32`. -/
  lpfState : Word32
  /-- `PREV_OUT`, an `i16`. -/
  prevOut : Sample
  /-- `STARTUP_CTR`, a `u32`. -/
  startupCtr : Word32
  /-- `OUT_BUF`. -/
  outBuf : Memory Pair
  deriving DecidableEq, Repr

/-- Engine state (R32 to R40). The registers of all three shapes stand here; `cfg.shape` says which are built. -/
structure Engine where
  /-- `BLK_STATE`. -/
  blkState : BlkState
  /-- `RUNNING`. -/
  running : Bool
  /-- `PUSH_CNT`. -/
  pushCnt : Word32
  /-- `IRQ_EN`. -/
  irqEn : Bool
  /-- `IRQ_PEND[0]`. -/
  irqPend0 : Bool
  /-- `IRQ_PEND[1]`. -/
  irqPend1 : Bool
  /-- `REGION`. -/
  region : Memory Pair
  /-- `WR_POS` (ring), below `RING_SIZE`. -/
  wrPos : Nat
  /-- `RD_POS` (ring), below `RING_SIZE`. -/
  rdPos : Nat
  /-- `RST` (ring, N-buffer). -/
  rst : RegionState
  /-- `PLAYING` (ping-pong). -/
  playing : Fin 2
  /-- `BST[0]` (ping-pong). -/
  bst0 : BufState
  /-- `BST[1]` (ping-pong). -/
  bst1 : BufState
  /-- `DESC[0]` (ping-pong). -/
  desc0 : Desc
  /-- `DESC[1]` (ping-pong). -/
  desc1 : Desc
  /-- `WR_CNT` (N-buffer). -/
  wrCnt : Word32
  /-- `RD_CNT` (N-buffer). -/
  rdCnt : Word32
  /-- `CUR_SILENT` (N-buffer). -/
  curSilent : Bool
  /-- `DESC` (N-buffer). -/
  desc : Desc
  deriving DecidableEq, Repr

/-- The seven counters, in the order of R42. -/
structure Stats where
  /-- `BUFFERS_FILLED`. -/
  buffersFilled : Word32
  /-- `UNDERRUNS`. -/
  underruns : Word32
  /-- `COMMANDS_PROCESSED`. -/
  commandsProcessed : Word32
  /-- `QUEUE_OVERFLOWS`, raised by ENV only (R44). -/
  queueOverflows : Word32
  /-- `IRQ_COUNT`. -/
  irqCount : Word32
  /-- `MAX_QUEUE_DEPTH`, raised by ENV only (R44). -/
  maxQueueDepth : Word32
  /-- `SAMPLES_EMITTED`. -/
  samplesEmitted : Word32
  deriving DecidableEq, Repr

/-- One write of the SCA agent (R26, R27, R72). -/
inductive ScaWrite where
  | fmCount (v : Word32)
  | psgCount (v : Word32)
  | fmSample (i : Nat) (v : Sample)
  | psgSample (i : Nat) (v : Sample)
  deriving DecidableEq, Repr

/-- One action of the ENV agent: its answer for the next `INIT` (R191), or a raise of a queue counter (R44). -/
inductive EnvAction where
  | hwAvailable (b : Bool)
  | queueOverflows (v : Word32)
  | maxQueueDepth (v : Word32)
  deriving DecidableEq, Repr

/-- Whose atomic step comes next (R7, R71). The IRQ agent moves inside the DMA agent's step (R156). -/
inductive Turn where
  | host
  | dma
  | sca (w : ScaWrite)
  | env (a : EnvAction)
  deriving DecidableEq, Repr

/-- The address spaces of R60. -/
inductive Space where
  | fmIn
  | psgIn
  | outBuf
  | region
  deriving DecidableEq, Repr

/-- The machine's state. -/
structure State where
  /-- `cfg` (R9): the build parameters, never changed by any step. -/
  cfg : Config
  /-- Control registers. -/
  control : Control
  /-- Input registers and memories. -/
  input : Input
  /-- Mixer state. -/
  mixer : Mixer
  /-- Engine state. -/
  engine : Engine
  /-- Statistics. -/
  stats : Stats
  /-- `OUT_STREAM` (R46), oldest first. -/
  outStream : List Pair
  /-- `RESP_STREAM` (R47), oldest first. -/
  respStream : List Word32
  /-- The command port (R60, R81): records presented and not yet consumed, the next to execute first. -/
  port : List Record
  /-- `hw_available` (R10, R191): ENV's present answer. -/
  hwAvailable : Bool
  /-- The model's own field (DESIGN CHOICE, log 4): the order in which the agents move. -/
  turns : List Turn
  /-- The model's own field (DESIGN CHOICE, log 6): records handed on to the SCA agent (R198, R199), oldest first. -/
  scaInbox : List Record
  deriving DecidableEq, Repr

/-- Why the machine stops with a fault. -/
inductive Fault where
  /-- An access to an element that its space does not have, which R61 says cannot be formed. Raised by MIX, SUBMIT,
  PUSH, TICK and SCA writes. Safe: no run from reset under a legal configuration forms such an index, but for an SCA
  write that names one (log 9). -/
  | noSuchElement (space : Space) (index : Nat)
  /-- A buffer completes while `IRQ_EN = 0`: R217 says the case "is unreachable and has no rule". Raised by TICK.
  Safe (log 10). -/
  | completionMasked
  deriving DecidableEq, Repr

/-- Why the machine refuses. -/
inductive Refusal where
  /-- An instruction without a meaning; no arm of `exec` uses it. Safe. -/
  | notModelled (mnemonic : String)
  /-- The configuration breaks a constraint of R10: "the model must refuse to instantiate it" (R11). Raised by every
  step. Safe (log 2). -/
  | illegalConfiguration
  deriving DecidableEq, Repr

/-- Control registers after power-on reset (R50). -/
def Control.reset : Control := ⟨128, true, 0⟩

/-- Input state after power-on reset (R50). -/
def Input.reset : Input := ⟨0, 0, [], []⟩

/-- Mixer state after power-on reset, `INIT` and `TEARDOWN` (R50, R194). -/
def Mixer.reset : Mixer := ⟨0, 0, 0, []⟩

/-- Engine state after power-on reset and `TEARDOWN` (R50, R194). -/
def Engine.reset (c : Config) : Engine where
  blkState := .off
  running := false
  pushCnt := 0
  irqEn := false
  irqPend0 := false
  irqPend1 := false
  region := []
  wrPos := 0
  rdPos := 0
  rst := .idle
  playing := 0
  bst0 := .idle
  bst1 := .idle
  desc0 := .armed c
  desc1 := .armed c
  wrCnt := 0
  rdCnt := 0
  curSilent := false
  desc := .armed c

/-- The seven counters at 0 (R50, R196). -/
def Stats.zero : Stats := ⟨0, 0, 0, 0, 0, 0, 0⟩

/-- The block with parameters `c` right after power-on reset (R50, R240), nothing presented and no agent scheduled. -/
def State.powerOn (c : Config) : State where
  cfg := c
  control := .reset
  input := .reset
  mixer := .reset
  engine := .reset c
  stats := .zero
  outStream := []
  respStream := []
  port := []
  hwAvailable := true
  turns := []
  scaInbox := []

/-- Power-on reset with the default parameters of R10 (DESIGN CHOICE, log 1). -/
def State.reset : State := .powerOn .default

end Sys2Proof.Machine
end

