-- ==== Sys2Proof/Machine/Operands.lean ====
section
/-! DEFINITION. Operand assembly (30_encoding.md R85): what a rule reads from an operand field. -/

namespace Sys2Proof.Machine

/-- `VOLUME`: `v = min(zext_8(a0), 128)`. -/
def volumeOperand (a0 : Byte) : BitVec 8 := BitVec.ofNat 8 (min a0.toNat 128)

/-- `ENABLE`: `e = a0[0]`; `a0[7:1]` is ignored. -/
def enableOperand (a0 : Byte) : Bool := a0.getLsbD 0

/-- `SET_SHIFT`: `s = a0[3:0]`; `a0[7:4]` is ignored. -/
def shiftOperand (a0 : Byte) : BitVec 4 := a0.extractLsb' 0 4

/-- `DACSAMPLE`: `d = sext_16(a1)`; passed on, not interpreted by the block. -/
def dacOperand (d : Sample) : Int := d.toInt

end Sys2Proof.Machine
end

