-- ==== Sys2Proof/Machine/Params.lean ====
section
/-! DEFINITION. The constraints on the parameters (00_scope.md R10, R11) and the sizes they give the spaces. -/

namespace Sys2Proof.Machine

/-- `n` is a power of two. -/
def isPowerOfTwo (n : Nat) : Bool := decide (2 ^ n.log2 = n)

/-- The constraints of R10 that hold for every shape. DEDUCED (log 3): `STARTUP_FRAMES` and `PREROLL` fit the 32-bit
registers that count up to them (R30, R34). -/
def commonLegal (c : Config) : Bool :=
  decide (1 ≤ c.n ∧ c.n ≤ c.cap ∧ 1 ≤ c.shiftNormal ∧ c.shiftNormal < c.shiftClick ∧ c.shiftClick ≤ 15 ∧
    c.clickThreshold ≤ 65535 ∧ c.f ≤ c.n ∧ c.limT ≤ 32767 ∧ c.limShift ≤ 15 ∧ 1 ≤ c.fadeShift ∧ c.fadeShift ≤ 15 ∧
    c.startupFrames < 4294967296 ∧ 1 ≤ c.preroll ∧ c.preroll < 4294967296)

/-- The constraints of R10 that hold for the shape that is built. DEDUCED (log 3): `NBUF` fits the 32-bit fill count
(R39). -/
def shapeLegal (c : Config) : Bool :=
  match c.shape with
  | .ring =>
    isPowerOfTwo c.ringSize &&
      decide (c.n ≤ c.minHeadroom ∧ c.minHeadroom < c.ringSize ∧ c.preroll * c.n ≤ c.ringSize - c.minHeadroom)
  | .pingpong => decide (c.bufLen = c.n ∧ c.preroll ≤ 2)
  | .nbuf =>
    isPowerOfTwo c.nbuf &&
      decide (c.bufLen = c.n ∧ 2 ≤ c.nbuf ∧ c.nbuf < 4294967296 ∧ c.preroll ≤ c.nbuf)

/-- A configuration of this block: every constraint of R10 holds (R11). -/
def legalConfig (c : Config) : Bool := commonLegal c && shapeLegal c

/-- Instantiation: a configuration that breaks a constraint is refused (R11); otherwise the block powers on. -/
def instantiate (c : Config) : Option State :=
  if legalConfig c then some (.powerOn c) else none

/-- The number of elements of `REGION` (R36, R60). -/
def regionSize (c : Config) : Nat :=
  match c.shape with
  | .ring => c.ringSize
  | .pingpong => 2 * c.bufLen
  | .nbuf => c.nbuf * c.bufLen

/-- The number of buffers of `REGION` that `(k, j)` indexing has (R62); the ring has no buffers. -/
def bufferCount (c : Config) : Nat :=
  match c.shape with
  | .ring => 0
  | .pingpong => 2
  | .nbuf => c.nbuf

end Sys2Proof.Machine
end

