-- ==== Sys2Proof/Machine/Flags.lean ====
section
/-! DEFINITION. The block has no condition codes and no arithmetic flags (10_state.md R45). This file holds the status
conditions the rules test instead: legality by state, the fill, the hold and the enabling conditions. -/

namespace Sys2Proof.Machine

/-- The legality table of R90: is the command executed in this `BLK_STATE`, or discarded? -/
def legalIn (i : Instr) (b : BlkState) : Bool :=
  match i with
  | .regwrite _ _ _ _ => true
  | .reset => true
  | .volume _ => true
  | .enable _ => true
  | .framesync _ => true
  | .dacsample _ _ => true
  | .init => decide (b ≠ .failed)
  | .teardown => decide (b ≠ .failed)
  | .mix => decide (b = .ready)
  | .push => decide (b = .ready)
  | .submit => decide (b = .ready)
  | .getStats => true
  | .resetStats => true
  | .setShift _ => true

/-- The ring's fill, `(WR_POS - RD_POS) mod RING_SIZE` (R135). -/
def ringFill (c : Config) (e : Engine) : Nat := (((e.wrPos : Int) - (e.rdPos : Int)) % (c.ringSize : Int)).toNat

/-- The N-buffer's fill, `(WR_CNT - RD_CNT) mod 2^32` (R139). -/
def queueFill (e : Engine) : Nat := (e.wrCnt - e.rdCnt).toNat

/-- `BST[k]` (R38). -/
def Engine.bst (e : Engine) (k : Fin 2) : BufState := if k = 0 then e.bst0 else e.bst1

/-- `DESC[k]` of the ping-pong shape (R38). -/
def Engine.bufDesc (e : Engine) (k : Fin 2) : Desc := if k = 0 then e.desc0 else e.desc1

/-- `IRQ_PEND[k]` (R35). -/
def Engine.irqPend (e : Engine) (k : Fin 2) : Bool := if k = 0 then e.irqPend0 else e.irqPend1

/-- The ping-pong buffer that is not `p`: `1 - p` (R137, R157). -/
def otherBuffer (p : Fin 2) : Fin 2 := if p = 0 then 1 else 0

/-- The hold condition of PUSH and SUBMIT by shape (R136, R138, R139). -/
def pushHeld (c : Config) (e : Engine) : Bool :=
  match c.shape with
  | .ring => decide (c.ringSize - c.minHeadroom < ringFill c e + c.n)
  | .pingpong => e.running && decide (e.bst (otherBuffer e.playing) = .armed)
  | .nbuf => decide (queueFill e = c.nbuf)

/-- Is the command held: legal in this state and its hold condition true (R134)? Only PUSH and SUBMIT can be. -/
def heldIn (i : Instr) (s : State) : Bool :=
  match i with
  | .regwrite _ _ _ _ => false
  | .reset => false
  | .volume _ => false
  | .enable _ => false
  | .framesync _ => false
  | .dacsample _ _ => false
  | .init => false
  | .teardown => false
  | .mix => false
  | .push => legalIn .push s.engine.blkState && pushHeld s.cfg s.engine
  | .submit => legalIn .submit s.engine.blkState && pushHeld s.cfg s.engine
  | .getStats => false
  | .resetStats => false
  | .setShift _ => false

/-- Is the record of this command handed on to the SCA agent (R198, R199)? -/
def passedOn : Instr → Bool
  | .regwrite _ _ _ _ => true
  | .reset => true
  | .volume _ => false
  | .enable _ => false
  | .framesync _ => true
  | .dacsample _ _ => true
  | .init => false
  | .teardown => false
  | .mix => false
  | .push => false
  | .submit => false
  | .getStats => false
  | .resetStats => false
  | .setShift _ => false

/-- TICK is enabled exactly when `BLK_STATE = Ready` and `RUNNING = 1` (R150). -/
def tickEnabled (e : Engine) : Bool := decide (e.blkState = .ready) && e.running

end Sys2Proof.Machine
end

