-- ==== Sys2Proof/Machine/Ops.lean ====
section
/-! DEFINITION. The named operations over registers, streams and memories that every rule uses, and the block's error
events and completion interrupt, each as one shared operation (00_scope.md R14, 60_exceptions.md R211 to R218). -/

namespace Sys2Proof.Machine

/-- The outcome of one step. -/
abbrev Result := Host.Outcome State Fault Refusal

/-- The next state of an outcome, none where it stops. -/
def nextState : Result → Option State
  | .next s => some s
  | .fault _ => none
  | .refused _ => none

/-- First `o`, then `f` on its next state; a stop stays a stop. -/
def andThen (o : Result) (f : State → Result) : Result :=
  match o with
  | .next s => f s
  | .fault r => .fault r
  | .refused r => .refused r

/-! ### Counters and streams -/

/-- `x[COMMANDS_PROCESSED] <- sat_inc32(x[COMMANDS_PROCESSED])` (R88). -/
def countCommand (s : State) : State :=
  { s with stats := { s.stats with commandsProcessed := satInc32 s.stats.commandsProcessed } }

/-- `x[BUFFERS_FILLED] <- sat_inc32(x[BUFFERS_FILLED])` (R133). -/
def countFilled (s : State) : State :=
  { s with stats := { s.stats with buffersFilled := satInc32 s.stats.buffersFilled } }

/-- `x[UNDERRUNS] <- sat_inc32(x[UNDERRUNS])` (R211). -/
def countUnderrun (s : State) : State :=
  { s with stats := { s.stats with underruns := satInc32 s.stats.underruns } }

/-- `x[IRQ_COUNT] <- sat_inc32(x[IRQ_COUNT])` (R158, R163). -/
def countIrq (s : State) : State :=
  { s with stats := { s.stats with irqCount := satInc32 s.stats.irqCount } }

/-- `emit(l, r)` and `x[SAMPLES_EMITTED] <- sat_inc32(x[SAMPLES_EMITTED])` (R14, R150). -/
def emit (p : Pair) (s : State) : State :=
  { s with
    outStream := s.outStream ++ [p]
    stats := { s.stats with samplesEmitted := satInc32 s.stats.samplesEmitted } }

/-- `respond(w)` (R14, R47). -/
def respond (w : Word32) (s : State) : State := { s with respStream := s.respStream ++ [w] }

/-- A command that is executed where `legal`, and discarded otherwise: consumed with no effect (R89, R90). -/
def ifLegal (legal : Bool) (s : State) (run : Result) : Result := if legal then run else .next s

/-! ### Memories -/

/-- `MemRead(S:i, 1)` of a space of `size` elements; none for an index the space does not have (R61). -/
def readIn {α : Type} [DecidableEq α] [Inhabited α] (m : Memory α) (size i : Nat) : Option α :=
  if i < size then some (m.read i) else none

/-- `MemWrite(S:i, n, v)` in a space of `size` elements; none for an index the space does not have (R61). -/
def writeIn {α : Type} [DecidableEq α] [Inhabited α] (m : Memory α) (size i : Nat) (vs : List α) : Option (Memory α) :=
  if i + vs.length ≤ size then some (m.writeBlock i vs) else none

/-- A computed ring position reduced into the ring: `p mod RING_SIZE`, which is `p & (RING_SIZE - 1)` (R62, log 18). -/
def wrapPos (c : Config) (p : Nat) : Nat := p % c.ringSize

/-- Elements written to the ring from position `p`: up to the end of the ring, the rest from index 0, the two runs of
R62. Element `j` lands at `(p + j) mod RING_SIZE` (R135). -/
def writeRing (c : Config) (m : Memory Pair) (p : Nat) (vs : List Pair) : Memory Pair :=
  (m.writeBlock (wrapPos c p) (vs.take (c.ringSize - wrapPos c p))).writeBlock 0
    (vs.drop (c.ringSize - wrapPos c p))

/-- The flat index of `REGION:(k, j)`: `k * BUF_LEN + j` (R36, R62). -/
def bufIndex (c : Config) (k j : Nat) : Nat := k * c.bufLen + j

/-- `n` pairs `(0, 0)`. -/
def silence (n : Nat) : List Pair := List.replicate n .silent

/-! ### Buffer registers -/

/-- `x[BST][k] <- v` (R38). -/
def Engine.setBst (e : Engine) (k : Fin 2) (v : BufState) : Engine :=
  if k = 0 then { e with bst0 := v } else { e with bst1 := v }

/-- `x[DESC][k] <- d` (R38). -/
def Engine.setBufDesc (e : Engine) (k : Fin 2) (d : Desc) : Engine :=
  if k = 0 then { e with desc0 := d } else { e with desc1 := d }

/-- `x[IRQ_PEND][k] <- b` (R35). -/
def Engine.setIrqPend (e : Engine) (k : Fin 2) (b : Bool) : Engine :=
  if k = 0 then { e with irqPend0 := b } else { e with irqPend1 := b }

/-- One element consumed: `(ADDR + 1, COUNT - 1)` (R155, R162). -/
def Desc.advance (d : Desc) : Desc := ⟨d.addr + 1, d.count - 1⟩

/-! ### Events

The block has no traps: an event makes its local recovery, counts, and the rule that raised it goes on (R14, R219). -/

/-- `raise Underrun()`, event E1: the recovery of the shape, then `UNDERRUNS` counted (R211). -/
def raiseUnderrun (recover : Engine → Engine) (s : State) : State :=
  countUnderrun { s with engine := recover s.engine }

/-- Count validation, event E2 `BoundsViolation`: a count outside `0..CAP` is taken as 0, which is the event's whole
effect (R102, R212). -/
def validCount (c : Config) (count : Word32) : Nat :=
  if 0 ≤ count.toInt ∧ count.toInt ≤ (c.cap : Int) then count.toInt.toNat else 0

/-- Taking the completion interrupt of line `k`, event I1: the request is raised, the service runs at once, the request
is cleared (R157, R158, R163, R216). The interrupt is taken only while `IRQ_EN = 1`; R217 gives a completion with the
interrupt disabled no rule (log 10). -/
def takeInterrupt (k : Fin 2) (service : State → State) (s : State) : Result :=
  if s.engine.irqEn then
    let requested := { s with engine := s.engine.setIrqPend k true }
    let serviced := service (countIrq requested)
    .next { serviced with engine := serviced.engine.setIrqPend k false }
  else .fault .completionMasked

/-- `zero_engine_and_mixer()` (R194): mixer state, buffers, indices, descriptors, `RUNNING`, `PUSH_CNT` and pending bits
to their reset values; `BLK_STATE` and `IRQ_EN` stay. -/
def zeroEngineAndMixer (s : State) : State :=
  { s with
    mixer := .reset
    engine := { Engine.reset s.cfg with blkState := s.engine.blkState, irqEn := s.engine.irqEn } }

end Sys2Proof.Machine
end

