-- ==== Sys2Proof/Machine/Control.lean ====
section
/-! DEFINITION. The control-plane commands (42_control.md R180 to R185). -/

namespace Sys2Proof.Machine

/-- `RESET` (R181). -/
def execReset (s : State) : Result :=
  .next (countCommand { s with mixer := { s.mixer with lpfState := 0, prevOut := 0 } })

/-- `VOLUME a0` (R182). -/
def execVolume (a0 : Byte) (s : State) : Result :=
  .next (countCommand { s with control := { s.control with volume := volumeOperand a0 } })

/-- `ENABLE a0` (R183). -/
def execEnable (a0 : Byte) (s : State) : Result :=
  .next (countCommand { s with control := { s.control with enable := enableOperand a0 } })

/-- `SET_SHIFT a0` (R184). -/
def execSetShift (a0 : Byte) (s : State) : Result :=
  .next (countCommand { s with control := { s.control with dmaShift := shiftOperand a0 } })

end Sys2Proof.Machine
end

