-- ==== Sys2Proof/Machine/Mixer.lean ====
section
/-! DEFINITION. The mixer family: the stages of one frame and the MIX command (40_mixer.md R100 to R119). -/

namespace Sys2Proof.Machine

/-- Stages (1) to (3): sum, master volume, hard clip (R103 to R106). -/
def premix (fm pg : Int) (volume : BitVec 8) : Int := clip16 (sra ((fm + pg) * (volume.toNat : Int)) 7)

/-- An input sample: element `i` below the validated count, else 0 (R103). -/
def inputAt (mem : Memory Sample) (valid i : Nat) : Int := if i < valid then (mem.read i).toInt else 0

/-- The low-pass shift: `SHIFT_CLICK` when `abs(s - L) > CLICK_THRESHOLD`, else `SHIFT_NORMAL` (R108). -/
def lowPassShift (c : Config) (s l : Int) : Nat :=
  if c.clickThreshold < (s - l).natAbs then c.shiftClick else c.shiftNormal

/-- Stage (4), the low-pass update: `L' = sra(s + L * ((1 << k) - 1), k)` (R107, R108). -/
def lowPass (c : Config) (s l : Int) : Int :=
  sra (s + l * ((2 ^ lowPassShift c s l : Nat) - 1 : Int)) (lowPassShift c s l)

/-- Stage (8), the mute fade of the filter state: the magnitude times `(2^FADE_SHIFT - 1) / 2^FADE_SHIFT`, rounded
toward zero, the sign kept (R114). -/
def fade (c : Config) (l : Int) : Int := withSign l ((l.natAbs * (2 ^ c.fadeShift - 1)) / 2 ^ c.fadeShift)

/-- Stage (5), the crossfade from the previous frame's last output `p` (R110). -/
def crossfade (c : Config) (p : Int) (i : Nat) (cur : Int) : Int :=
  if i < c.f then
    let a : Int := ((256 * i / c.f : Nat) : Int)
    sra (p * (256 - a) + cur * a) 8
  else cur

/-- Stage (6), the soft limiter (R112). -/
def softLimit (c : Config) (y : Int) : Int :=
  if c.limEn then
    withSign y (if c.limT < y.natAbs then c.limT + (y.natAbs - c.limT) / 2 ^ c.limShift else y.natAbs)
  else y

/-- The mute condition, fixed for the frame (R115). -/
def isMuted (c : Config) (k : Control) (inp : Input) : Bool :=
  !k.enable || (decide (validCount c inp.fmCount = 0) && decide (validCount c inp.psgCount = 0))

/-- The start-up condition, fixed for the frame (R116). -/
def inStartup (c : Config) (m : Mixer) : Bool := decide (m.startupCtr.toNat < c.startupFrames)

/-- The filter state after sample `i`, from the state `l` before it: the fade while muted, else stages (1) to (4)
(R118). -/
def filterNext (c : Config) (k : Control) (inp : Input) (i : Nat) (l : Int) : Int :=
  if isMuted c k inp then fade c l
  else
    lowPass c
      (premix (inputAt inp.fmIn (validCount c inp.fmCount) i) (inputAt inp.psgIn (validCount c inp.psgCount) i)
        k.volume) l

/-- The mono value written for sample `i` when the filter gives `cur`: stages (5), (6) and (9) (R118). -/
def outputValue (c : Config) (m : Mixer) (i : Nat) (cur : Int) : Int :=
  if inStartup c m then 0 else softLimit c (crossfade c m.prevOut.toInt i cur)

/-- The sample loop of R118 over the `left` samples from index `i`, with filter state `l`: the values written, in order,
and the filter state at the end. -/
def mixLoop (next output : Nat → Int → Int) (i : Nat) (left : Nat) (l : Int) : List Int × Int :=
  match left with
  | 0 => ([], l)
  | left + 1 =>
    let cur := next i l
    let rest := mixLoop next output (i + 1) left cur
    (output i cur :: rest.1, rest.2)

/-- One frame: the mono values of samples `0..N-1` and the filter state after them (R118). -/
def mixSamples (c : Config) (k : Control) (inp : Input) (m : Mixer) : List Int × Int :=
  mixLoop (filterNext c k inp) (outputValue c m) 0 c.n m.lpfState.toInt

/-- What MIX does to the mixer state (R118); none where `OUT_BUF` does not have the `N` elements (R61). -/
def mixFrame (c : Config) (k : Control) (inp : Input) (m : Mixer) : Option Mixer :=
  let frame := mixSamples c k inp m
  match writeIn m.outBuf c.cap 0 (frame.1.map stereo) with
  | none => none
  | some outBuf =>
    some
      { lpfState := toWord32 frame.2
        prevOut := (frame.1.getLast?.map toSample).getD m.prevOut
        startupCtr := BitVec.ofNat 32 (min (m.startupCtr.toNat + 1) c.startupFrames)
        outBuf := outBuf }

/-- Everything MIX does but its count (R118, R144). -/
def runMix (s : State) : Result :=
  match mixFrame s.cfg s.control s.input s.mixer with
  | none => .fault (.noSuchElement .outBuf s.cfg.cap)
  | some m => .next { s with mixer := m }

/-- `MIX` (R101, R118). -/
def execMix (s : State) : Result :=
  ifLegal (legalIn .mix s.engine.blkState) s (andThen (runMix s) fun t => .next (countCommand t))

end Sys2Proof.Machine
end

