-- ==== Sys2Proof/Machine/Dma.lean ====
section
/-! DEFINITION. The host commands of the DMA family: PUSH and SUBMIT (41_dma.md R130 to R145). -/

namespace Sys2Proof.Machine

/-- The engine-level attenuation of one pair: each half shifted right arithmetically on its own (R132, R203). -/
def attenuate (h : BitVec 4) (p : Pair) : Pair := ⟨toSample (sra p.l.toInt h.toNat), toSample (sra p.r.toInt h.toNat)⟩

/-- The frame PUSH copies: `OUT_BUF` elements `0..N-1`, attenuated by `DMA_SHIFT` (R132). -/
def copiedFrame (s : State) : List Pair :=
  (s.mixer.outBuf.readBlock 0 s.cfg.n).map (attenuate s.control.dmaShift)

/-- The ping-pong buffer a PUSH fills: `PUSH_CNT` before the start, `1 - PLAYING` after it (R137). -/
def pushTarget (e : Engine) : Nat := if e.running then (otherBuffer e.playing).val else e.pushCnt.toNat

/-- The copy and the publication of the write position, by shape (R135, R137, R139, R143); none where `REGION` does not
have the buffer (R61). -/
def publishFrame (c : Config) (frame : List Pair) (e : Engine) : Option Engine :=
  match c.shape with
  | .ring =>
    some { e with region := writeRing c e.region e.wrPos frame, wrPos := wrapPos c (e.wrPos + c.n) }
  | .pingpong =>
    if h : pushTarget e < 2 then
      match writeIn e.region (regionSize c) (bufIndex c (pushTarget e) 0) frame with
      | none => none
      | some region => some (({ e with region := region } : Engine).setBst ⟨pushTarget e, h⟩ .armed)
    else none
  | .nbuf =>
    match writeIn e.region (regionSize c) (bufIndex c (e.wrCnt.toNat % c.nbuf) 0) frame with
    | none => none
    | some region => some { e with region := region, wrCnt := e.wrCnt + 1 }

/-- Starting the engine (R141). -/
def startEngine (c : Config) (e : Engine) : Engine :=
  match c.shape with
  | .ring => { e with running := true, rst := .playing }
  | .pingpong => ({ e with running := true, playing := 0 } : Engine).setBst 0 .playing
  | .nbuf => { e with running := true, rst := .playing, curSilent := false, desc := .armed c }

/-- The region waits for the rest of the pre-roll (R140); a ping-pong buffer is `Armed` already. -/
def awaitPreroll (c : Config) (e : Engine) : Engine :=
  match c.shape with
  | .ring => { e with rst := .armed }
  | .pingpong => e
  | .nbuf => { e with rst := .armed }

/-- The pre-roll step in the tail of a PUSH (R133, R140). -/
def prerollStep (c : Config) (e : Engine) : Engine :=
  if e.running then e
  else
    let e := { e with pushCnt := e.pushCnt + 1 }
    if c.preroll ≤ e.pushCnt.toNat then startEngine c e else awaitPreroll c e

/-- Everything an admitted PUSH does but its count (R143, R144). -/
def runPush (s : State) : Result :=
  match publishFrame s.cfg (copiedFrame s) s.engine with
  | none => .fault (.noSuchElement .region (pushTarget s.engine))
  | some e => .next (countFilled { s with engine := prerollStep s.cfg e })

/-- A held command waits with no effect (R134); `step` keeps its record at the head of the port (log 14). -/
def unlessHeld (held : Bool) (s : State) (run : Result) : Result := if held then .next s else run

/-- `PUSH` (R131, R143). -/
def execPush (s : State) : Result :=
  ifLegal (legalIn .push s.engine.blkState) s
    (unlessHeld (pushHeld s.cfg s.engine) s (andThen (runPush s) fun t => .next (countCommand t)))

/-- `SUBMIT`: held as PUSH is, then all of MIX and all of PUSH in one step, counted once (R144). -/
def execSubmit (s : State) : Result :=
  ifLegal (legalIn .submit s.engine.blkState) s
    (unlessHeld (pushHeld s.cfg s.engine) s
      (andThen (runMix s) fun t => andThen (runPush t) fun u => .next (countCommand u)))

end Sys2Proof.Machine
end

