-- ==== Sys2Proof/Machine/System.lean ====
section
/-! DEFINITION. The system commands and the passed-on kinds (43_system.md R190 to R199). -/

namespace Sys2Proof.Machine

/-- What TEARDOWN does but its count: abort, clear the interrupt enable, zero, `Off` (R193). -/
def tearDown (s : State) : State :=
  let stopped := { s with engine := { s.engine with running := false, irqEn := false } }
  let zeroed := zeroEngineAndMixer stopped
  { zeroed with engine := { zeroed.engine with blkState := .off } }

/-- What INIT in `Off` does but its count: zero, then claim the hardware. A claim that fails is event F1, `InitFailure`,
reported by response word 1 (R191, R214). -/
def bringUp (s : State) : State :=
  let zeroed := zeroEngineAndMixer s
  if s.hwAvailable then
    respond 0 { zeroed with engine := { zeroed.engine with blkState := .ready, irqEn := true } }
  else
    respond 1 { zeroed with engine := { zeroed.engine with blkState := .failed, irqEn := false } }

/-- `INIT` (R191); in `Ready` all of TEARDOWN first, in the same step (R192). -/
def execInit (s : State) : Result :=
  ifLegal (legalIn .init s.engine.blkState) s
    (.next (countCommand (bringUp (if s.engine.blkState = .ready then tearDown s else s))))

/-- `TEARDOWN` (R193). -/
def execTeardown (s : State) : Result :=
  ifLegal (legalIn .teardown s.engine.blkState) s (.next (countCommand (tearDown s)))

/-- The seven counters in the order of R42, which is the order of the response (R195). -/
def statsWords (st : Stats) : List Word32 :=
  [st.buffersFilled, st.underruns, st.commandsProcessed, st.queueOverflows, st.irqCount, st.maxQueueDepth,
    st.samplesEmitted]

/-- `GET_STATS` (R195): the value reported for `COMMANDS_PROCESSED` is the one before this command's own count. -/
def execGetStats (s : State) : Result :=
  .next (countCommand ((statsWords s.stats).foldl (fun t w => respond w t) s))

/-- `RESET_STATS` (R196): it does not count itself (R88). -/
def execResetStats (s : State) : Result := .next { s with stats := .zero }

/-- `REGWRITE chip, port, data @ts` (R199): counted; the operands are not interpreted by the block, and `step` hands the
record on (R198). -/
def execRegwrite (_chip _port _data : Byte) (_ts : Word32) (s : State) : Result := .next (countCommand s)

/-- `FRAMESYNC @cycle` (R199). -/
def execFramesync (_cycle : Word32) (s : State) : Result := .next (countCommand s)

/-- `DACSAMPLE d @ts` (R199). -/
def execDacsample (_d : Sample) (_ts : Word32) (s : State) : Result := .next (countCommand s)

end Sys2Proof.Machine
end

