-- ==== Sys2Proof/Machine/Dispatch.lean ====
section
/-! DEFINITION. One arm per command of spec/opcode_table.json. -/

namespace Sys2Proof.Machine

def exec (i : Instr) (s : State) : Host.Outcome State Fault Refusal :=
  match i with
  | .regwrite chip port data ts => Sys2Proof.Machine.execRegwrite chip port data ts s
  | .reset => Sys2Proof.Machine.execReset s
  | .volume a0 => Sys2Proof.Machine.execVolume a0 s
  | .enable a0 => Sys2Proof.Machine.execEnable a0 s
  | .framesync cycle => Sys2Proof.Machine.execFramesync cycle s
  | .dacsample d ts => Sys2Proof.Machine.execDacsample d ts s
  | .init => Sys2Proof.Machine.execInit s
  | .teardown => Sys2Proof.Machine.execTeardown s
  | .mix => Sys2Proof.Machine.execMix s
  | .push => Sys2Proof.Machine.execPush s
  | .submit => Sys2Proof.Machine.execSubmit s
  | .getStats => Sys2Proof.Machine.execGetStats s
  | .resetStats => Sys2Proof.Machine.execResetStats s
  | .setShift a0 => Sys2Proof.Machine.execSetShift a0 s

end Sys2Proof.Machine
end

