-- ==== Sys2Proof/Machine/Tick.lean ====
section
/-! DEFINITION. TICK, the step of the DMA agent, and the completion interrupt inside it (41_dma.md R150 to R166). It is
no command and has no encoding. -/

namespace Sys2Proof.Machine

/-! ### Ring -/

/-- The ring's recovery from an underrun: one frame of silence at the write position (R152). -/
def insertSilence (c : Config) (e : Engine) : Engine :=
  { e with region := writeRing c e.region e.wrPos (silence c.n), wrPos := wrapPos c (e.wrPos + c.n) }

/-- `TICK` of the ring shape (R151). -/
def tickRing (s : State) : Result :=
  let s := if ringFill s.cfg s.engine = 0 then raiseUnderrun (insertSilence s.cfg) s else s
  match readIn s.engine.region (regionSize s.cfg) s.engine.rdPos with
  | none => .fault (.noSuchElement .region s.engine.rdPos)
  | some p => .next (emit p { s with engine := { s.engine with rdPos := wrapPos s.cfg (s.engine.rdPos + 1) } })

/-! ### Ping-pong -/

/-- `REGION:(k, j)` for `k` a buffer of the shape and `j` in `0..BUF_LEN-1` (R62); none outside. -/
def readBuffer (c : Config) (m : Memory Pair) (k j : Nat) : Option Pair :=
  if k < bufferCount c ∧ j < c.bufLen then some (m.read (bufIndex c k j)) else none

/-- The ping-pong recovery from an underrun: the whole buffer `q` zeroed in place (R159). -/
def silenceBuffer (c : Config) (q : Fin 2) (e : Engine) : Engine :=
  { e with region := e.region.writeBlock (bufIndex c q.val 0) (silence c.bufLen) }

/-- Re-arm: the completed buffer's descriptor at its original values, the buffer available (R158 (i), (ii)). -/
def rearm (p : Fin 2) (s : State) : State :=
  { s with engine := (s.engine.setBufDesc p (.armed s.cfg)).setBst p .refilling }

/-- The deadline: the buffer due next is zeroed, one underrun counted, where it has no fresh data (R159 (iii)). -/
def checkDeadline (q : Fin 2) (s : State) : State :=
  if s.engine.bst q = .armed then s else raiseUnderrun (silenceBuffer s.cfg q) s

/-- The chain: buffer `q` plays next (R157, R159). -/
def chainTo (q : Fin 2) (s : State) : State :=
  { s with engine := { s.engine.setBst q .playing with playing := q } }

/-- The interrupt service for the completion of buffer `p` (R158, R159). -/
def serviceBuffer (p : Fin 2) (s : State) : State :=
  chainTo (otherBuffer p) (checkDeadline (otherBuffer p) (rearm p s))

/-- `TICK` of the ping-pong shape (R155 to R160). -/
def tickPingpong (s : State) : Result :=
  let p := s.engine.playing
  let d := s.engine.bufDesc p
  match readBuffer s.cfg s.engine.region p.val d.addr with
  | none => .fault (.noSuchElement .region (bufIndex s.cfg p.val d.addr))
  | some v =>
    let moved := emit v { s with engine := s.engine.setBufDesc p d.advance }
    if d.advance.count = 0 then takeInterrupt p (serviceBuffer p) moved else .next moved

/-! ### N-buffer -/

/-- The element an N-buffer tick plays: `(0, 0)` in a silent substitute, else the descriptor's (R162). -/
def queueSample (c : Config) (e : Engine) : Option Pair :=
  if e.curSilent then some .silent else readBuffer c e.region (e.rdCnt.toNat % c.nbuf) e.desc.addr

/-- A buffer that held data is consumed and the descriptor re-armed (R163). -/
def retireBuffer (s : State) : State :=
  { s with
    engine :=
      { s.engine with
        rdCnt := if s.engine.curSilent then s.engine.rdCnt else s.engine.rdCnt + 1
        desc := .armed s.cfg } }

/-- The next buffer, or a silent substitute and one underrun where the fill is 0 (R164). -/
def selectNext (s : State) : State :=
  if queueFill s.engine = 0 then raiseUnderrun (fun e => { e with curSilent := true }) s
  else { s with engine := { s.engine with curSilent := false } }

/-- The interrupt service of the N-buffer shape (R163, R164). -/
def serviceQueue (s : State) : State := selectNext (retireBuffer s)

/-- `TICK` of the N-buffer shape (R162 to R165). -/
def tickNbuf (s : State) : Result :=
  match queueSample s.cfg s.engine with
  | none => .fault (.noSuchElement .region (bufIndex s.cfg (s.engine.rdCnt.toNat % s.cfg.nbuf) s.engine.desc.addr))
  | some v =>
    let moved := emit v { s with engine := { s.engine with desc := s.engine.desc.advance } }
    if s.engine.desc.advance.count = 0 then takeInterrupt 0 serviceQueue moved else .next moved

/-- `TICK` (R150): enabled exactly when `BLK_STATE = Ready` and `RUNNING = 1`; a DMA turn that finds it disabled moves
nothing. -/
def tick (s : State) : Result :=
  if tickEnabled s.engine then
    match s.cfg.shape with
    | .ring => tickRing s
    | .pingpong => tickPingpong s
    | .nbuf => tickNbuf s
  else .next s

end Sys2Proof.Machine
end

