-- ==== Sys2Proof/Machine/Agents.lean ====
section
/-! DEFINITION. One step function per agent (00_scope.md R7, 20_memory.md R71): HOST, DMA (with the IRQ inside), SCA,
ENV. -/

namespace Sys2Proof.Machine

/-- The record leaves the head of the port, and is handed on unchanged to the SCA where its kind is passed on (R81, R198,
R199). -/
def consume (r : Record) (rest : List Record) (handOn : Bool) (s : State) : State :=
  { s with port := rest, scaInbox := if handOn then s.scaInbox ++ [r] else s.scaInbox }

/-- The HOST agent's step: the record at the head of the port is decoded and executed; a reserved kind is consumed and
discarded (R89); a held command stays at the head and nothing happens (R134); with no record presented the host has no
step. -/
def hostTurn (s : State) : Result :=
  match s.port with
  | [] => .next s
  | r :: rest =>
    match decode r with
    | .reserved _ => .next (consume r rest false s)
    | .command i => if heldIn i s then .next s else exec i (consume r rest (passedOn i) s)

/-- The SCA agent's step: one write of an input register or element (R26, R27, R72). -/
def scaTurn (w : ScaWrite) (s : State) : Result :=
  match w with
  | .fmCount v => .next { s with input := { s.input with fmCount := v } }
  | .psgCount v => .next { s with input := { s.input with psgCount := v } }
  | .fmSample i v =>
    match writeIn s.input.fmIn s.cfg.cap i [v] with
    | none => .fault (.noSuchElement .fmIn i)
    | some m => .next { s with input := { s.input with fmIn := m } }
  | .psgSample i v =>
    match writeIn s.input.psgIn s.cfg.cap i [v] with
    | none => .fault (.noSuchElement .psgIn i)
    | some m => .next { s with input := { s.input with psgIn := m } }

/-- A counter raised to a larger value; a smaller value leaves it (R44, log 15). -/
def raiseTo (old new : Word32) : Word32 := if old.toNat < new.toNat then new else old

/-- The ENV agent's step (R44, R191). -/
def envTurn (a : EnvAction) (s : State) : Result :=
  match a with
  | .hwAvailable b => .next { s with hwAvailable := b }
  | .queueOverflows v =>
    .next { s with stats := { s.stats with queueOverflows := raiseTo s.stats.queueOverflows v } }
  | .maxQueueDepth v =>
    .next { s with stats := { s.stats with maxQueueDepth := raiseTo s.stats.maxQueueDepth v } }

/-- The step of the agent whose turn it is. -/
def runTurn (t : Turn) (s : State) : Result :=
  match t with
  | .host => hostTurn s
  | .dma => tick s
  | .sca w => scaTurn w s
  | .env a => envTurn a s

end Sys2Proof.Machine
end

