-- ==== Sys2Proof/Machine/Step.lean ====
section
/-! DEFINITION. One step of the machine: the atomic step of the agent whose turn it is (20_memory.md R70, R71). -/

namespace Sys2Proof.Machine

/-- One step. An illegal configuration is refused (R11); otherwise the agent at the head of `turns` takes its atomic
step; with no turn left no agent moves (log 4). -/
def step (s : State) : Host.Outcome State Fault Refusal :=
  if legalConfig s.cfg then
    match s.turns with
    | [] => .next s
    | t :: rest => runTurn t { s with turns := rest }
  else .refused .illegalConfiguration

/-- `s` with the record of `w` at the head of the command port and the HOST's turn next, so that the very next step runs
it (log 5). -/
def State.withFetchWord (s : State) (nbits w : Nat) : State :=
  { s with port := Record.ofTableWord nbits w :: s.port, turns := .host :: s.turns }

end Sys2Proof.Machine
end

