-- ==== Sys2Proof/Safety.lean ====
section
/-! DEFINITION. What a good state of the block is: the invariants of 10_state.md R49, with what the rules need around
them to be kept by every step, and the terms in which statements speak of a run. -/

namespace Sys2Proof.Machine

/-- A legal configuration, as the constraints of R10 read (R11). -/
abbrev Legal (c : Config) : Prop := legalConfig c = true

/-- Every element of a memory has `l = r` (R49 item 4). -/
def Mono (m : Memory Pair) : Prop := ∀ i, (m.read i).l = (m.read i).r

/-- A space of `size` pairs as the block keeps it: canonical form, no element outside, both halves equal. -/
structure PairSpace (m : Memory Pair) (size : Nat) : Prop where
  wf : m.wf = true
  within : m.within size = true
  mono : Mono m

/-- A space of `size` samples: canonical form, no element outside. -/
structure SampleSpace (m : Memory Sample) (size : Nat) : Prop where
  wf : m.wf = true
  within : m.within size = true

/-- The input memories are spaces of `CAP` samples (R27). -/
structure InputInv (c : Config) (inp : Input) : Prop where
  fmIn : SampleSpace inp.fmIn c.cap
  psgIn : SampleSpace inp.psgIn c.cap

/-- The mixer's invariants (R49 items 2 to 4, R31). -/
structure MixerInv (c : Config) (m : Mixer) : Prop where
  /-- `-32768 <= LPF_STATE <= 32767`. -/
  lpf_ge : -32768 ≤ m.lpfState.toInt
  lpf_le : m.lpfState.toInt ≤ 32767
  /-- `STARTUP_CTR <= STARTUP_FRAMES`. -/
  startup_le : m.startupCtr.toNat ≤ c.startupFrames
  /-- Only elements `0..N-1` of `OUT_BUF` are ever written. -/
  outBuf : PairSpace m.outBuf c.n

/-- A descriptor in use: `ADDR + COUNT = BUF_LEN` with an element left (R38, R49 item 7). -/
structure DescInv (c : Config) (d : Desc) : Prop where
  total : d.addr + d.count = c.bufLen
  left : 1 ≤ d.count

/-- The ring registers at their reset values, for a shape without them. -/
structure NoRing (e : Engine) : Prop where
  wrPos : e.wrPos = 0
  rdPos : e.rdPos = 0

/-- The ping-pong registers at their reset values, for a shape without them. -/
structure NoPingpong (c : Config) (e : Engine) : Prop where
  playing : e.playing = 0
  bst0 : e.bst0 = .idle
  bst1 : e.bst1 = .idle
  desc0 : e.desc0 = .armed c
  desc1 : e.desc1 = .armed c

/-- The N-buffer registers at their reset values, for a shape without them. -/
structure NoQueue (c : Config) (e : Engine) : Prop where
  wrCnt : e.wrCnt = 0
  rdCnt : e.rdCnt = 0
  curSilent : e.curSilent = false
  desc : e.desc = .armed c

/-- `RST` says what `RUNNING` and `PUSH_CNT` say (R40, R140). -/
def rstOf (e : Engine) : RegionState :=
  if e.running then .playing else if e.pushCnt = 0 then .idle else .armed

/-- The ring's invariants (R37, R49 item 6, R171). -/
structure RingInv (c : Config) (e : Engine) : Prop where
  wr_lt : e.wrPos < c.ringSize
  rd_lt : e.rdPos < c.ringSize
  /-- `fill <= RING_SIZE - MIN_HEADROOM`, the headroom invariant. -/
  fill_le : ringFill c e ≤ c.ringSize - c.minHeadroom
  rst : e.rst = rstOf e
  /-- Before the start nothing has been read and the pushes so far stand at the front. -/
  stopped : e.running = false → e.rdPos = 0 ∧ e.wrPos = e.pushCnt.toNat * c.n
  noPingpong : NoPingpong c e
  noQueue : NoQueue c e

/-- The ping-pong invariants (R38, R49 item 7). -/
structure PingpongInv (c : Config) (e : Engine) : Prop where
  /-- While the engine runs, `PLAYING` alone is `Playing`. -/
  plays : e.running = true → e.bst e.playing = .playing
  other : e.running = true → e.bst (otherBuffer e.playing) ≠ .playing
  /-- The playing buffer's descriptor has an element left. -/
  desc : DescInv c (e.bufDesc e.playing)
  /-- The other buffer's descriptor is re-armed. -/
  otherDesc : e.bufDesc (otherBuffer e.playing) = .armed c
  /-- Before the start the pushes so far have filled the buffers in order. -/
  stopped : e.running = false → e.playing = 0 ∧ e.desc0 = .armed c ∧
    e.bst0 = (if 1 ≤ e.pushCnt.toNat then BufState.armed else .idle) ∧ e.bst1 = .idle
  rst : e.rst = .idle
  noRing : NoRing e
  noQueue : NoQueue c e

/-- The N-buffer invariants (R39, R49 item 8). -/
structure QueueInv (c : Config) (e : Engine) : Prop where
  /-- `0 <= fill <= NBUF`. -/
  fill_le : queueFill e ≤ c.nbuf
  desc : DescInv c e.desc
  /-- While data plays, the buffer that plays counts in the fill. -/
  filled : e.running = true → e.curSilent = false → 1 ≤ queueFill e
  rst : e.rst = rstOf e
  /-- Before the start nothing has been completed. -/
  stopped : e.running = false → e.rdCnt = 0 ∧ e.wrCnt = e.pushCnt ∧ e.curSilent = false ∧ e.desc = .armed c
  noRing : NoRing e
  noPingpong : NoPingpong c e

/-- The invariants of the registers of the shape that is built. -/
def ShapeInv (c : Config) (e : Engine) : Prop :=
  match c.shape with
  | .ring => RingInv c e
  | .pingpong => PingpongInv c e
  | .nbuf => QueueInv c e

/-- The engine's invariants (R49 items 4 to 9). -/
structure EngineInv (c : Config) (e : Engine) : Prop where
  region : PairSpace e.region (regionSize c)
  /-- `RUNNING = 1` implies `BLK_STATE = Ready`. -/
  ready : e.running = true → e.blkState = .ready
  /-- The interrupt is enabled exactly while the block is `Ready` (R35, R191, R193). -/
  irqEn : e.irqEn = decide (e.blkState = .ready)
  /-- No step sees a pending interrupt. -/
  irqPend0 : e.irqPend0 = false
  irqPend1 : e.irqPend1 = false
  /-- The engine starts with the push that completes the pre-roll (R140). -/
  preroll : e.running = false → e.pushCnt.toNat < c.preroll
  started : e.running = true → e.pushCnt.toNat = c.preroll
  shape : ShapeInv c e

/-- Outside `Ready` the mixer and the engine are as reset left them, but for `BLK_STATE`: `Off` is one state (R194). -/
structure StoppedInv (s : State) : Prop where
  mixer : s.mixer = .reset
  engine : s.engine = { Engine.reset s.cfg with blkState := s.engine.blkState }

/-- An SCA write names an element that its memory has (R27). -/
def ScaWrite.inRange (c : Config) : ScaWrite → Prop
  | .fmCount _ => True
  | .psgCount _ => True
  | .fmSample i _ => i < c.cap
  | .psgSample i _ => i < c.cap

/-- An agent's turn keeps to the spaces there are. -/
def Turn.inRange (c : Config) : Turn → Prop
  | .host => True
  | .dma => True
  | .sca w => w.inRange c
  | .env _ => True

/-- A good state: a legal configuration and every invariant of R49. -/
structure GoodState (s : State) : Prop where
  legal : Legal s.cfg
  /-- `0 <= VOLUME <= 128` (R49 item 1). -/
  volume_le : s.control.volume.toNat ≤ 128
  input : InputInv s.cfg s.input
  mixer : MixerInv s.cfg s.mixer
  engine : EngineInv s.cfg s.engine
  stopped : s.engine.blkState ≠ .ready → StoppedInv s
  /-- Every SCA write still to come names an element that exists. -/
  turns : ∀ t ∈ s.turns, t.inRange s.cfg

/-- Every record of kind `code` decodes to `i` of the record (R83, R87). -/
def Encodes (code : Byte) (i : Record → Instr) : Prop := ∀ r : Record, r.kind = code → decode r = .command (i r)

/-- The HOST's turn is next, with `r` at the head of the port and `rest` behind it. -/
structure Presents (s : State) (r : Record) (rest : List Record) (later : List Turn) : Prop where
  legal : Legal s.cfg
  turns : s.turns = .host :: later
  port : s.port = r :: rest

/-- The statistics after one executed command (R88). -/
def counted (st : Stats) : Stats := { st with commandsProcessed := satInc32 st.commandsProcessed }

/-- `k` steps of the DMA agent, stopping at the first stop. -/
def ticks : Nat → State → Result
  | 0, s => .next s
  | k + 1, s => andThen (tick s) (ticks k)

/-- `k` steps of the machine, stopping at the first stop. -/
def steps : Nat → State → Result
  | 0, s => .next s
  | k + 1, s => andThen (step s) (steps k)

/-- The elements the DMA agent has yet to read of what was pushed, by shape: the ring's `fill` unread elements; the
ping-pong buffers that are `Playing` or `Armed`; the N-buffer's buffers `RD_CNT .. WR_CNT - 1` (R172). -/
def unread (c : Config) (e : Engine) (i : Nat) : Prop :=
  match c.shape with
  | .ring => ∃ d, d < ringFill c e ∧ i = wrapPos c (e.rdPos + d)
  | .pingpong =>
    ∃ (k : Fin 2) (j : Nat), j < c.bufLen ∧ i = bufIndex c k.val j ∧ (e.bst k = .playing ∨ e.bst k = .armed)
  | .nbuf =>
    ∃ d j, d < queueFill e ∧ j < c.bufLen ∧ i = bufIndex c ((e.rdCnt + BitVec.ofNat 32 d).toNat % c.nbuf) j

/-- The elements supplied that the DMA agent has yet to emit, in the order in which it emits them while nothing more is
pushed: silence that an underrun inserted counts as supplied (R153, R161, R166). -/
def pending (c : Config) (e : Engine) : List Pair :=
  match c.shape with
  | .ring => (List.range (ringFill c e)).map fun d => e.region.read (wrapPos c (e.rdPos + d))
  | .pingpong =>
    (if e.bst e.playing = .playing ∨ e.bst e.playing = .armed then
        e.region.readBlock (bufIndex c e.playing.val (e.bufDesc e.playing).addr) (e.bufDesc e.playing).count
      else []) ++
      (if e.bst (otherBuffer e.playing) = .armed then
        e.region.readBlock (bufIndex c (otherBuffer e.playing).val 0) c.bufLen
      else [])
  | .nbuf =>
    let queued := (List.range (queueFill e)).flatMap fun d =>
      e.region.readBlock (bufIndex c ((e.rdCnt + BitVec.ofNat 32 d).toNat % c.nbuf) 0) c.bufLen
    if e.curSilent then silence e.desc.count ++ queued else queued.drop e.desc.addr

/-- The index of `REGION` that element `j` of the next pushed frame goes to, by shape (R135, R137, R139). -/
def pushDestination (c : Config) (e : Engine) (j : Nat) : Nat :=
  match c.shape with
  | .ring => wrapPos c (e.wrPos + j)
  | .pingpong => bufIndex c (pushTarget e) j
  | .nbuf => bufIndex c (e.wrCnt.toNat % c.nbuf) j

end Sys2Proof.Machine
end

