-- ==== Sys2Proof/Certificates/Slice0/Obligations.lean ====
section
/-! DEFINITION. The statements for the provers, in the order of OBLIGATIONS.json. A docstring names the rules of spec/ and,
where a clause rests on a choice of the model, the log entry. -/

section Statements

open Sys2Proof Sys2Proof.Machine

/-! ### Encoding -/

/-- Decode and encode agree (R82, R83, R84, R87, R92). Every command, with every operand at every value of its field, is what
the decoder reads from its encoding; and a record that decodes to a command differs from that command's encoding only in the
fields its format does not read. -/
def Obligations.DecodeEncodeAgree : Prop :=
  (∀ i : Instr, decode (encode i) = .command i) ∧
    ∀ (r : Record) (i : Instr), decode r = .command i → encode i = r.onlyRead i.format

/-- R91: the decoder is total and looks at byte 0 alone to find the kind. The fourteen codes of R83 decode to their kind,
every other code is reserved. -/
def Obligations.KindMapIsTotal : Prop :=
  ∀ r : Record,
    ((∃ i, decode r = .command i ∧ i.kindCode = r.b0) ↔ r.b0.toNat ≤ 0x05 ∨ (0x10 ≤ r.b0.toNat ∧ r.b0.toNat ≤ 0x17)) ∧
      (decode r = .reserved r.b0 ↔ (0x06 ≤ r.b0.toNat ∧ r.b0.toNat ≤ 0x0F) ∨ 0x18 ≤ r.b0.toNat) ∧
      ((∃ i, decode r = .command i) ∨ decode r = .reserved r.b0)

/-- The example lines of R92, each with the eight bytes the spec gives it, and one record of every kind by its code (R83). -/
def Obligations.WordsOfTheSpec : Prop :=
  decode ⟨0x02, 0x60, 0x00, 0x00, 0x00, 0x00, 0x00, 0x00⟩ = .command (.volume 96) ∧
    decode ⟨0x03, 0x00, 0x00, 0x00, 0x00, 0x00, 0x00, 0x00⟩ = .command (.enable 0) ∧
    decode ⟨0x14, 0x00, 0x00, 0x00, 0x00, 0x00, 0x00, 0x00⟩ = .command .submit ∧
    decode ⟨0x17, 0x03, 0x00, 0x00, 0x00, 0x00, 0x00, 0x00⟩ = .command (.setShift 3) ∧
    decode ⟨0x00, 0x01, 0x2A, 0x80, 0xE8, 0x03, 0x00, 0x00⟩ = .command (.regwrite 1 0x2A 0x80 1000) ∧
    decode ⟨0x05, 0x00, 0xFE, 0xFF, 0x07, 0x00, 0x00, 0x00⟩ = .command (.dacsample (-2) 7) ∧
    decode ⟨0x04, 0x00, 0x00, 0x00, 0x60, 0xF3, 0x01, 0x00⟩ = .command (.framesync 127840) ∧
    decode ⟨0x01, 0x00, 0x00, 0x00, 0x00, 0x00, 0x00, 0x00⟩ = .command .reset ∧
    decode ⟨0x10, 0x00, 0x00, 0x00, 0x00, 0x00, 0x00, 0x00⟩ = .command .init ∧
    decode ⟨0x11, 0x00, 0x00, 0x00, 0x00, 0x00, 0x00, 0x00⟩ = .command .teardown ∧
    decode ⟨0x12, 0x00, 0x00, 0x00, 0x00, 0x00, 0x00, 0x00⟩ = .command .mix ∧
    decode ⟨0x13, 0x00, 0x00, 0x00, 0x00, 0x00, 0x00, 0x00⟩ = .command .push ∧
    decode ⟨0x15, 0x00, 0x00, 0x00, 0x00, 0x00, 0x00, 0x00⟩ = .command .getStats ∧
    decode ⟨0x16, 0x00, 0x00, 0x00, 0x00, 0x00, 0x00, 0x00⟩ = .command .resetStats

/-- R82: the places of `kind`, `a0`, `a1` and `ts` in the 64-bit word and in the eight bytes, low byte first. -/
def Obligations.RecordLayout : Prop :=
  (∀ w : BitVec 64,
    (Record.ofWord w).toWord = w ∧
      (Record.ofWord w).kind.toNat = w.toNat % 2 ^ 8 ∧
      (Record.ofWord w).a0.toNat = w.toNat / 2 ^ 8 % 2 ^ 8 ∧
      (Record.ofWord w).a1.toNat = w.toNat / 2 ^ 16 % 2 ^ 16 ∧
      (Record.ofWord w).ts.toNat = w.toNat / 2 ^ 32) ∧
    ∀ r : Record,
      Record.ofWord r.toWord = r ∧ r.kind = r.b0 ∧ r.a0 = r.b1 ∧
        r.a1.toNat = r.b2.toNat + 2 ^ 8 * r.b3.toNat ∧
        r.ts.toNat = r.b4.toNat + 2 ^ 8 * r.b5.toNat + 2 ^ 16 * r.b6.toNat + 2 ^ 24 * r.b7.toNat

/-- R84 and R87: two records of one kind that agree in the fields the kind's format reads are the same command, whatever
stands in the other fields; and the encoder writes the fields that are not read as zero. -/
def Obligations.UnreadFieldsAreIgnored : Prop :=
  (∀ r r' : Record, r.b0 = r'.b0 →
    (r.b0 = 0x01 ∨ (0x10 ≤ r.b0.toNat ∧ r.b0.toNat ≤ 0x16) ∨
      ((r.b0 = 0x02 ∨ r.b0 = 0x03 ∨ r.b0 = 0x17) ∧ r.a0 = r'.a0) ∨
      (r.b0 = 0x00 ∧ r.a0 = r'.a0 ∧ r.a1 = r'.a1 ∧ r.ts = r'.ts) ∨
      (r.b0 = 0x05 ∧ r.a1 = r'.a1 ∧ r.ts = r'.ts) ∨
      (r.b0 = 0x04 ∧ r.ts = r'.ts)) →
    ∃ i, decode r = .command i ∧ decode r' = .command i) ∧
    ∀ i : Instr,
      (i.kindCode ≠ 0x00 ∧ i.kindCode ≠ 0x02 ∧ i.kindCode ≠ 0x03 ∧ i.kindCode ≠ 0x17 → (encode i).a0 = 0) ∧
        (i.kindCode ≠ 0x00 ∧ i.kindCode ≠ 0x05 → (encode i).a1 = 0) ∧
        (i.kindCode ≠ 0x00 ∧ i.kindCode ≠ 0x05 ∧ i.kindCode ≠ 0x04 → (encode i).ts = 0)

/-! ### The step -/

/-- A step of the HOST agent runs the decoded command: the record leaves the port, the turn is used up, a passed-on kind's
record joins what the SCA has been handed (the model's own queue and order of turns: log 4, 5, 6), and the rest is the
command's meaning (R70, R71, R81). -/
def Obligations.StepRunsDecodedCommand : Prop :=
  ∀ (s : State) (r : Record) (rest : List Record) (later : List Turn) (i : Instr),
    Presents s r rest later → decode r = .command i → heldIn i s = false →
    step s = exec i
      { s with
        turns := later
        port := rest
        scaInbox := if passedOn i then s.scaInbox ++ [r] else s.scaInbox }

/-- Holding (R134, R136, R138, R139): only PUSH and SUBMIT are ever held, and only in `Ready`; under a legal configuration they
are, exactly under the shape's admission condition; a held command has no effect, keeps its place at the head of the port and
counts in no counter. That `exec` answers the state itself is the model's form of it (log 14). -/
def Obligations.HeldCommandWaits : Prop :=
  (∀ (i : Instr) (s : State), heldIn i s = true → (i = .push ∨ i = .submit) ∧ s.engine.blkState = .ready) ∧
  (∀ (i : Instr) (s : State), Legal s.cfg → (heldIn i s = true ↔
    (i = .push ∨ i = .submit) ∧ s.engine.blkState = .ready ∧
      match s.cfg.shape with
      | .ring =>
        ((s.cfg.ringSize - s.cfg.minHeadroom : Nat) : Int) <
          ((s.engine.wrPos : Int) - (s.engine.rdPos : Int)) % (s.cfg.ringSize : Int) + (s.cfg.n : Int)
      | .pingpong => s.engine.running = true ∧ (if s.engine.playing = 0 then s.engine.bst1 else s.engine.bst0) = .armed
      | .nbuf => (s.engine.wrCnt - s.engine.rdCnt).toNat = s.cfg.nbuf)) ∧
    (∀ (i : Instr) (s : State), heldIn i s = true → exec i s = .next s) ∧
    ∀ (s : State) (r : Record) (rest : List Record) (later : List Turn) (i : Instr),
      Presents s r rest later → decode r = .command i → heldIn i s = true → step s = .next { s with turns := later }

/-- R89: a record of a reserved kind is consumed and nothing else changes, not even `COMMANDS_PROCESSED` (the model's own order
of turns moves on: log 4). -/
def Obligations.ReservedKindsAreDiscarded : Prop :=
  ∀ (s : State) (r : Record) (rest : List Record) (later : List Turn),
    Presents s r rest later → ((0x06 ≤ r.b0.toNat ∧ r.b0.toNat ≤ 0x0F) ∨ 0x18 ≤ r.b0.toNat) →
    step s = .next { s with turns := later, port := rest }

/-- R88 and R90: which commands are executed in which `BLK_STATE`, and what the command count does. From a good state every
command that is not held answers; one that is not legal changes nothing; one that is counts itself once, `RESET_STATS` excepted,
after which the count is 0. -/
def Obligations.LegalityAndCommandCount : Prop :=
  ∀ (s : State) (i : Instr), GoodState s → heldIn i s = false →
    ∃ t, exec i s = .next t ∧
      if (i = .init ∨ i = .teardown) ∧ s.engine.blkState = .failed ∨
          (i = .mix ∨ i = .push ∨ i = .submit) ∧ s.engine.blkState ≠ .ready then
        t = s
      else
        t.stats.commandsProcessed.toNat =
          if i = .resetStats then 0 else min (s.stats.commandsProcessed.toNat + 1) (2 ^ 32 - 1)

/-- R199: `REGWRITE`, `FRAMESYNC` and `DACSAMPLE` are counted no-ops in every state. In a step the record is handed on
unchanged, which the model shows by its own field `scaInbox` (log 6). -/
def Obligations.PassedOnKindsOnlyCount : Prop :=
  (∀ (chip port data : Byte) (ts : Word32) (s : State),
    exec (.regwrite chip port data ts) s = .next { s with stats := counted s.stats }) ∧
    (∀ (cycle : Word32) (s : State), exec (.framesync cycle) s = .next { s with stats := counted s.stats }) ∧
    (∀ (d : Sample) (ts : Word32) (s : State), exec (.dacsample d ts) s = .next { s with stats := counted s.stats }) ∧
    Encodes 0x00 (fun r => .regwrite r.b1 r.b2 r.b3 r.ts) ∧
    Encodes 0x04 (fun r => .framesync r.ts) ∧
    Encodes 0x05 (fun r => .dacsample r.a1 r.ts) ∧
    ∀ (s : State) (r : Record) (rest : List Record) (later : List Turn),
      Presents s r rest later → (r.b0 = 0x00 ∨ r.b0 = 0x04 ∨ r.b0 = 0x05) →
      step s = .next
        { s with turns := later, port := rest, scaInbox := s.scaInbox ++ [r], stats := counted s.stats }

/-- The command port is in order (R81) and only `REGWRITE`, `FRAMESYNC`, `DACSAMPLE` and `RESET` are handed on (R198, R199): in
one step the port stays or loses its head, and what the SCA has been handed (the model's own field, log 6) grows by that head or
not at all. -/
def Obligations.PortOrderAndHandingOn : Prop :=
  ∀ s t : State, step s = .next t →
    (t.port = s.port ∧ t.scaInbox = s.scaInbox) ∨
      ∃ r, s.port = r :: t.port ∧
        t.scaInbox =
          if r.b0 = 0x00 ∨ r.b0 = 0x01 ∨ r.b0 = 0x04 ∨ r.b0 = 0x05 then s.scaInbox ++ [r] else s.scaInbox

/-- The turns of the other agents (R71, R72, R44, R191): each is one atomic step with the effect its rule gives. The order of
turns is the model's own field (log 4), an ENV raise to a smaller value leaves the counter (log 15). -/
def Obligations.OtherAgentsTurns : Prop :=
  ∀ (s : State) (later : List Turn), Legal s.cfg →
    (s.turns = [] → step s = .next s) ∧
      (s.turns = .dma :: later → step s = tick { s with turns := later }) ∧
      (∀ v, s.turns = .sca (.fmCount v) :: later →
        step s = .next { s with turns := later, input := { s.input with fmCount := v } }) ∧
      (∀ v, s.turns = .sca (.psgCount v) :: later →
        step s = .next { s with turns := later, input := { s.input with psgCount := v } }) ∧
      (∀ i v, s.turns = .sca (.fmSample i v) :: later → i < s.cfg.cap →
        ∃ m, step s = .next { s with turns := later, input := { s.input with fmIn := m } } ∧
          ∀ k, m.read k = if k = i then v else s.input.fmIn.read k) ∧
      (∀ i v, s.turns = .sca (.psgSample i v) :: later → i < s.cfg.cap →
        ∃ m, step s = .next { s with turns := later, input := { s.input with psgIn := m } } ∧
          ∀ k, m.read k = if k = i then v else s.input.psgIn.read k) ∧
      (∀ b, s.turns = .env (.hwAvailable b) :: later → step s = .next { s with turns := later, hwAvailable := b }) ∧
      (∀ v, s.turns = .env (.queueOverflows v) :: later →
        ∃ w : Word32, step s = .next { s with turns := later, stats := { s.stats with queueOverflows := w } } ∧
          w.toNat = max s.stats.queueOverflows.toNat v.toNat) ∧
      ∀ v, s.turns = .env (.maxQueueDepth v) :: later →
        ∃ w : Word32, step s = .next { s with turns := later, stats := { s.stats with maxQueueDepth := w } } ∧
          w.toNat = max s.stats.maxQueueDepth.toNat v.toNat

/-- R11: a configuration that breaks a constraint of R10 is refused, at instantiation and at every step (the step's form of it
is log 2; the 32-bit bounds on `STARTUP_FRAMES`, `PREROLL` and `NBUF` are log 3). The constraints are written out. -/
def Obligations.IllegalConfigurationIsRefused : Prop :=
  (∀ c : Config,
    (instantiate c = some (State.powerOn c) ↔
      1 ≤ c.n ∧ c.n ≤ c.cap ∧ 1 ≤ c.shiftNormal ∧ c.shiftNormal < c.shiftClick ∧ c.shiftClick ≤ 15 ∧
        c.clickThreshold ≤ 65535 ∧ c.f ≤ c.n ∧ c.limT ≤ 32767 ∧ c.limShift ≤ 15 ∧ 1 ≤ c.fadeShift ∧ c.fadeShift ≤ 15 ∧
        c.startupFrames < 2 ^ 32 ∧ 1 ≤ c.preroll ∧ c.preroll < 2 ^ 32 ∧
        (c.shape = .ring → (∃ k, c.ringSize = 2 ^ k) ∧ c.n ≤ c.minHeadroom ∧ c.minHeadroom < c.ringSize ∧
          c.preroll * c.n ≤ c.ringSize - c.minHeadroom) ∧
        (c.shape = .pingpong → c.bufLen = c.n ∧ c.preroll ≤ 2) ∧
        (c.shape = .nbuf →
          (∃ k, c.nbuf = 2 ^ k) ∧ c.bufLen = c.n ∧ 2 ≤ c.nbuf ∧ c.nbuf < 2 ^ 32 ∧ c.preroll ≤ c.nbuf)) ∧
      (instantiate c = none ∨ instantiate c = some (State.powerOn c))) ∧
    ∀ s : State, instantiate s.cfg = none → step s = .refused .illegalConfiguration

/-! ### Control commands -/

/-- R182: `VOLUME` sets the volume to the operand, saturated to 128, in every state and changes nothing else but the command
count; `VOLUME 0` makes every scaled sample 0. -/
def Obligations.VolumeSetsSaturatedVolume : Prop :=
  Encodes 0x02 (fun r => .volume r.b1) ∧
    (∀ (a0 : Byte) (s : State), exec (.volume a0) s = .next
      { s with
        control := { s.control with volume := if 128 < a0.toNat then 128 else a0 }
        stats := counted s.stats }) ∧
    ∀ fm pg : Int, premix fm pg 0 = 0

/-- R183: `ENABLE` sets the enable to bit 0 of the operand in every state and changes nothing else but the command count. With
the bit clear every following frame is muted; with the bit set a frame is muted only for want of input. -/
def Obligations.EnableSetsBitZero : Prop :=
  Encodes 0x03 (fun r => .enable r.b1) ∧
    ∀ (a0 : Byte) (s : State),
      exec (.enable a0) s = .next
        { s with
          control := { s.control with enable := decide (a0.toNat % 2 = 1) }
          stats := counted s.stats } ∧
      ∀ (t : State) (inp : Input), exec (.enable a0) s = .next t →
        (isMuted t.cfg t.control inp = true ↔
          a0.toNat % 2 = 0 ∨ (validCount t.cfg inp.fmCount = 0 ∧ validCount t.cfg inp.psgCount = 0))

/-- R184: `SET_SHIFT` sets the copy shift to bits 3:0 of the operand in every state and changes nothing else but the command
count; the frame that the next `PUSH` copies is shifted by it. -/
def Obligations.SetShiftSetsLowFourBits : Prop :=
  Encodes 0x17 (fun r => .setShift r.b1) ∧
    ∀ (a0 : Byte) (s : State),
      exec (.setShift a0) s = .next
        { s with
          control := { s.control with dmaShift := BitVec.ofNat 4 (a0.toNat % 16) }
          stats := counted s.stats } ∧
      ∀ (t : State) (j : Nat) (p : Pair), exec (.setShift a0) s = .next t → (copiedFrame t)[j]? = some p →
        p.l.toInt = (s.mixer.outBuf.read j).l.toInt / 2 ^ (a0.toNat % 16) ∧
          p.r.toInt = (s.mixer.outBuf.read j).r.toInt / 2 ^ (a0.toNat % 16)

/-- R181: `RESET` zeroes the filter state and the previous output in every state and changes nothing else but the command count;
outside `Ready` only the count changes. In a step the record is handed on as well, which the model shows by its own field
`scaInbox` (log 6). -/
def Obligations.ResetZeroesFilterAndPrevious : Prop :=
  Encodes 0x01 (fun _ => .reset) ∧
    (∀ s : State, exec .reset s = .next
      { s with mixer := { s.mixer with lpfState := 0, prevOut := 0 }, stats := counted s.stats }) ∧
    (∀ s : State, GoodState s → s.engine.blkState ≠ .ready →
      exec .reset s = .next { s with stats := counted s.stats }) ∧
    ∀ (s : State) (r : Record) (rest : List Record) (later : List Turn),
      Presents s r rest later → r.b0 = 0x01 →
      step s = .next
        { s with
          turns := later
          port := rest
          scaInbox := s.scaInbox ++ [r]
          mixer := { s.mixer with lpfState := 0, prevOut := 0 }
          stats := counted s.stats }

/-! ### System commands -/

/-- R191 and R192: `INIT` in `Off` or `Ready` zeroes mixer and engine, claims the hardware and answers one word; in `Failed` it is
discarded. The control registers, the statistics but for the one count, and the input state are kept. In `Ready` the end state is
that of `TEARDOWN` then `INIT` with one count less. -/
def Obligations.InitBringsUp : Prop :=
  Encodes 0x10 (fun _ => .init) ∧
    (∀ s : State, s.engine.blkState ≠ .failed → exec .init s = .next
      { s with
        mixer := .reset
        engine :=
          { Engine.reset s.cfg with
            blkState := if s.hwAvailable then .ready else .failed
            irqEn := s.hwAvailable }
        respStream := s.respStream ++ [if s.hwAvailable then 0 else 1]
        stats := counted s.stats }) ∧
    (∀ s : State, s.engine.blkState = .failed → exec .init s = .next s) ∧
    ∀ s u v t : State, s.engine.blkState = .ready → exec .teardown s = .next u → exec .init u = .next v →
      exec .init s = .next t → v = { t with stats := counted t.stats }

/-- R193: `TEARDOWN` stops the engine at once, clears the interrupt enable, zeroes mixer and engine and leaves `Off`; everything
the rule preserves is preserved. In `Off` only the count changes; in `Failed` it is discarded. -/
def Obligations.TeardownStopsAndZeroes : Prop :=
  Encodes 0x11 (fun _ => .teardown) ∧
    (∀ s : State, s.engine.blkState ≠ .failed →
      exec .teardown s = .next { s with mixer := .reset, engine := .reset s.cfg, stats := counted s.stats }) ∧
    (∀ s : State, GoodState s → s.engine.blkState = .off →
      exec .teardown s = .next { s with stats := counted s.stats }) ∧
    ∀ s : State, s.engine.blkState = .failed → exec .teardown s = .next s

/-- R194, R50: what the zeroing of `INIT` and `TEARDOWN` leaves: the mixer state, both memories and every engine register it names
at the value it names. -/
def Obligations.ZeroingReachesEverything : Prop :=
  ∀ (s t : State), s.engine.blkState ≠ .failed → (exec .init s = .next t ∨ exec .teardown s = .next t) →
    t.mixer.lpfState = 0 ∧ t.mixer.prevOut = 0 ∧ t.mixer.startupCtr = 0 ∧
      (∀ i, t.mixer.outBuf.read i = ⟨0, 0⟩) ∧ (∀ i, t.engine.region.read i = ⟨0, 0⟩) ∧
      t.engine.running = false ∧ t.engine.pushCnt = 0 ∧ t.engine.irqPend0 = false ∧ t.engine.irqPend1 = false ∧
      t.engine.wrPos = 0 ∧ t.engine.rdPos = 0 ∧ t.engine.rst = .idle ∧
      t.engine.playing = 0 ∧ t.engine.bst0 = .idle ∧ t.engine.bst1 = .idle ∧
      t.engine.desc0 = ⟨0, s.cfg.bufLen⟩ ∧ t.engine.desc1 = ⟨0, s.cfg.bufLen⟩ ∧
      t.engine.wrCnt = 0 ∧ t.engine.rdCnt = 0 ∧ t.engine.curSilent = false ∧ t.engine.desc = ⟨0, s.cfg.bufLen⟩

/-- R195: `GET_STATS` answers the seven counters in the order of R42, the command count as it was before, in every state. -/
def Obligations.GetStatsRespondsSevenWords : Prop :=
  Encodes 0x15 (fun _ => .getStats) ∧
    ∀ s : State, exec .getStats s = .next
      { s with
        respStream :=
          s.respStream ++
            [s.stats.buffersFilled, s.stats.underruns, s.stats.commandsProcessed, s.stats.queueOverflows,
              s.stats.irqCount, s.stats.maxQueueDepth, s.stats.samplesEmitted]
        stats := counted s.stats }

/-- R196: `RESET_STATS` puts all seven counters at 0 in every state, does not count itself and changes nothing else; a
`GET_STATS` straight after answers seven zeros. -/
def Obligations.ResetStatsZeroesSevenCounters : Prop :=
  Encodes 0x16 (fun _ => .resetStats) ∧
    (∀ s : State, exec .resetStats s = .next { s with stats := ⟨0, 0, 0, 0, 0, 0, 0⟩ }) ∧
    ∀ s t u : State, exec .resetStats s = .next t → exec .getStats t = .next u →
      u.respStream = s.respStream ++ [0, 0, 0, 0, 0, 0, 0]

/-- R240, R50: every piece of state after power-on reset, for every configuration. -/
def Obligations.PowerOnValues : Prop :=
  ∀ c : Config,
    (State.powerOn c).control = ⟨128, true, 0⟩ ∧
      (State.powerOn c).input.fmCount = 0 ∧ (State.powerOn c).input.psgCount = 0 ∧
      (∀ i, (State.powerOn c).input.fmIn.read i = 0) ∧ (∀ i, (State.powerOn c).input.psgIn.read i = 0) ∧
      (State.powerOn c).mixer.lpfState = 0 ∧ (State.powerOn c).mixer.prevOut = 0 ∧
      (State.powerOn c).mixer.startupCtr = 0 ∧
      (∀ i, (State.powerOn c).mixer.outBuf.read i = ⟨0, 0⟩) ∧
      (∀ i, (State.powerOn c).engine.region.read i = ⟨0, 0⟩) ∧
      (State.powerOn c).engine.blkState = .off ∧ (State.powerOn c).engine.running = false ∧
      (State.powerOn c).engine.pushCnt = 0 ∧ (State.powerOn c).engine.irqEn = false ∧
      (State.powerOn c).engine.irqPend0 = false ∧ (State.powerOn c).engine.irqPend1 = false ∧
      (State.powerOn c).engine.wrPos = 0 ∧ (State.powerOn c).engine.rdPos = 0 ∧
      (State.powerOn c).engine.rst = .idle ∧ (State.powerOn c).engine.playing = 0 ∧
      (State.powerOn c).engine.bst0 = .idle ∧ (State.powerOn c).engine.bst1 = .idle ∧
      (State.powerOn c).engine.desc0 = ⟨0, c.bufLen⟩ ∧ (State.powerOn c).engine.desc1 = ⟨0, c.bufLen⟩ ∧
      (State.powerOn c).engine.wrCnt = 0 ∧ (State.powerOn c).engine.rdCnt = 0 ∧
      (State.powerOn c).engine.curSilent = false ∧ (State.powerOn c).engine.desc = ⟨0, c.bufLen⟩ ∧
      (State.powerOn c).stats = ⟨0, 0, 0, 0, 0, 0, 0⟩ ∧
      (State.powerOn c).outStream = [] ∧ (State.powerOn c).respStream = []

/-- R49 item 10, R214: `Failed` is terminal. No step leaves it, moves the engine or the mixer, or emits a sample; the response
stream grows only by the seven words of a `GET_STATS`. -/
def Obligations.FailedIsTerminal : Prop :=
  ∀ s t : State, GoodState s → s.engine.blkState = .failed → step s = .next t →
    t.engine = s.engine ∧ t.mixer = s.mixer ∧ t.outStream = s.outStream ∧
      (t.respStream = s.respStream ∨
        t.respStream =
          s.respStream ++
            [s.stats.buffersFilled, s.stats.underruns, s.stats.commandsProcessed, s.stats.queueOverflows,
              s.stats.irqCount, s.stats.maxQueueDepth, s.stats.samplesEmitted])

/-! ### Mixer -/

/-- R102, R103: a count outside `0..CAP` acts as 0, one between `N` and `CAP` as `N`; a frame depends on nothing but the elements
below the validated counts, and neither the counts nor the elements are changed. -/
def Obligations.MixReadsOnlyValidInputs : Prop :=
  (∀ (c : Config) (count : Word32),
    validCount c count = if count.toInt < 0 ∨ (c.cap : Int) < count.toInt then 0 else count.toInt.toNat) ∧
    ∀ (s : State) (inp : Input) (t : State),
      Legal s.cfg →
      min (validCount s.cfg s.input.fmCount) s.cfg.n = min (validCount s.cfg inp.fmCount) s.cfg.n →
      min (validCount s.cfg s.input.psgCount) s.cfg.n = min (validCount s.cfg inp.psgCount) s.cfg.n →
      (∀ i, i < min (validCount s.cfg s.input.fmCount) s.cfg.n → s.input.fmIn.read i = inp.fmIn.read i) →
      (∀ i, i < min (validCount s.cfg s.input.psgCount) s.cfg.n → s.input.psgIn.read i = inp.psgIn.read i) →
      exec .mix s = .next t →
      t.input = s.input ∧ exec .mix { s with input := inp } = .next { t with input := inp }

/-- R106: the combined stages (1) to (3) are `clip16(floor((fm + pg) * V / 128))`, monotone in the sum, and odd up to the floor:
the value at the negated inputs is the negated value or one less. -/
def Obligations.PremixIsMonotoneAndNearlyOdd : Prop :=
  (∀ (fm pg : Int) (v : BitVec 8),
    premix fm pg v = max (-32768) (min 32767 ((fm + pg) * (v.toNat : Int) / 128))) ∧
    (∀ (fm pg fm' pg' : Int) (v : BitVec 8), fm + pg ≤ fm' + pg' → premix fm pg v ≤ premix fm' pg' v) ∧
    ∀ (fm pg : Int) (v : BitVec 8),
      premix (-fm) (-pg) v = -premix fm pg v ∨ premix (-fm) (-pg) v = -premix fm pg v - 1

/-- R107 to R109: the low-pass update, with its shift chosen by the strict comparison of R108; the new state lies between the
sample and the old state; the fixed points are the states at most `2^k - 1` below the sample; from below them and from above
them every update moves toward them and never past them. -/
def Obligations.LowPassConvergesWithoutOvershoot : Prop :=
  (∀ (c : Config) (s l : Int) (k : Nat),
    k = (if (c.clickThreshold : Int) < |s - l| then c.shiftClick else c.shiftNormal) →
    lowPass c s l = (s + l * (2 ^ k - 1)) / 2 ^ k ∧
      min s l ≤ lowPass c s l ∧ lowPass c s l ≤ max s l ∧
      (lowPass c s l = l ↔ s - (2 ^ k - 1) ≤ l ∧ l ≤ s) ∧
      (l < s - (2 ^ k - 1) → l < lowPass c s l ∧ lowPass c s l ≤ s - (2 ^ k - 1)) ∧
      (s < l → lowPass c s l < l ∧ s ≤ lowPass c s l)) ∧
    ((List.range 15).map fun j => (lowPass .default 100)^[j + 1] 0) =
      [25, 43, 57, 67, 75, 81, 85, 88, 91, 93, 94, 95, 96, 97, 97] ∧
    ((List.range 15).map fun j => (lowPass .default (-100))^[j + 1] 0) =
      [-25, -44, -58, -69, -77, -83, -88, -91, -94, -96, -97, -98, -99, -100, -100]

/-- R110, R111 (a): the crossfade law, its range between the two values, and its first sample, which is the previous frame's last
output. -/
def Obligations.CrossfadeRampsFromPrevious : Prop :=
  ∀ (c : Config) (p cur : Int) (i : Nat),
    (c.f ≤ i → crossfade c p i cur = cur) ∧
      (i < c.f →
        ∃ a : Nat, a = 256 * i / c.f ∧ a < 256 ∧
          crossfade c p i cur = (p * (256 - (a : Int)) + cur * (a : Int)) / 256) ∧
      (0 < c.f → crossfade c p 0 cur = p) ∧
      min p cur ≤ crossfade c p i cur ∧ crossfade c p i cur ≤ max p cur

/-- R112: the soft limiter: the identity where it is absent and up to the threshold; above it the overshoot's magnitude is divided
by `2^LIM_SHIFT`, rounded toward zero, the sign kept. Odd, never larger in magnitude, so an `i16` stays an `i16`; with the
defaults no output magnitude exceeds 26624. -/
def Obligations.SoftLimiterLaw : Prop :=
  (∀ (c : Config) (y : Int), c.limEn = false → softLimit c y = y) ∧
    (∀ (c : Config) (y : Int), c.limEn = true →
      (|y| ≤ (c.limT : Int) → softLimit c y = y) ∧
        ((c.limT : Int) < y → softLimit c y = (c.limT : Int) + (y - c.limT) / 2 ^ c.limShift) ∧
        (y < -(c.limT : Int) → softLimit c y = -((c.limT : Int) + (-y - c.limT) / 2 ^ c.limShift))) ∧
    (∀ (c : Config) (y : Int), softLimit c (-y) = -softLimit c y ∧ |softLimit c y| ≤ |y|) ∧
    (∀ (c : Config) (y : Int), -32768 ≤ y → y ≤ 32767 → -32768 ≤ softLimit c y ∧ softLimit c y ≤ 32767) ∧
    ∀ y : Int, -32768 ≤ y → y ≤ 32767 → |softLimit .default y| ≤ 26624

/-- R114: the mute fade: the magnitude times `(2^FADE_SHIFT - 1) / 2^FADE_SHIFT`, rounded toward zero, the sign kept; it loses at
least one each time until it is 0, where it stays, so it is 0 after as many samples as the magnitude counts. -/
def Obligations.MuteFadeReachesZero : Prop :=
  ∀ (c : Config) (l : Int),
    (0 ≤ l → fade c l = l * (2 ^ c.fadeShift - 1) / 2 ^ c.fadeShift) ∧
      fade c (-l) = -fade c l ∧
      (l ≠ 0 → |fade c l| ≤ |l| - 1) ∧
      fade c 0 = 0 ∧
      ∀ n, l.natAbs ≤ n → (fade c)^[n] l = 0

/-- R118, the whole of `MIX`: in `Ready` it answers, with a filter trajectory `L` and output values `y` that follow the nine
stages for every sample, stored in both halves of the `N` elements; everything else is as before but for the command count.
Outside `Ready` it is discarded. -/
def Obligations.MixComputesTheFrame : Prop :=
  Encodes 0x12 (fun _ => .mix) ∧
    (∀ s : State, s.engine.blkState ≠ .ready → exec .mix s = .next s) ∧
    ∀ s : State, Legal s.cfg → s.engine.blkState = .ready →
      -32768 ≤ s.mixer.lpfState.toInt → s.mixer.lpfState.toInt ≤ 32767 →
      ∃ (L y : Nat → Int) (t : State), exec .mix s = .next t ∧
        L 0 = s.mixer.lpfState.toInt ∧
        (∀ i, i < s.cfg.n →
          if s.control.enable = false ∨
              (validCount s.cfg s.input.fmCount = 0 ∧ validCount s.cfg s.input.psgCount = 0) then
            L (i + 1) = (L i).sign * (((L i).natAbs * (2 ^ s.cfg.fadeShift - 1) / 2 ^ s.cfg.fadeShift : Nat) : Int)
          else
            ∃ (fm pg smp : Int) (k : Nat),
              fm = (if i < validCount s.cfg s.input.fmCount then (s.input.fmIn.read i).toInt else 0) ∧
              pg = (if i < validCount s.cfg s.input.psgCount then (s.input.psgIn.read i).toInt else 0) ∧
              smp = max (-32768) (min 32767 ((fm + pg) * (s.control.volume.toNat : Int) / 128)) ∧
              k = (if (s.cfg.clickThreshold : Int) < |smp - L i| then s.cfg.shiftClick else s.cfg.shiftNormal) ∧
              L (i + 1) = (smp + L i * (2 ^ k - 1)) / 2 ^ k) ∧
        (∀ i, i < s.cfg.n →
          y i =
            if s.mixer.startupCtr.toNat < s.cfg.startupFrames then 0
            else
              softLimit s.cfg
                (if i < s.cfg.f then
                  (s.mixer.prevOut.toInt * (256 - ((256 * i / s.cfg.f : Nat) : Int)) +
                    L (i + 1) * ((256 * i / s.cfg.f : Nat) : Int)) / 256
                else L (i + 1))) ∧
        t = { s with mixer := t.mixer, stats := counted s.stats } ∧
        t.mixer.lpfState.toInt = L s.cfg.n ∧
        t.mixer.prevOut.toInt = y (s.cfg.n - 1) ∧
        t.mixer.startupCtr.toNat = min (s.mixer.startupCtr.toNat + 1) s.cfg.startupFrames ∧
        (∀ i, i < s.cfg.n → (t.mixer.outBuf.read i).l.toInt = y i ∧ (t.mixer.outBuf.read i).r.toInt = y i) ∧
        ∀ i, s.cfg.n ≤ i → t.mixer.outBuf.read i = s.mixer.outBuf.read i

/-- R115, R119: a frame that is muted because `ENABLE` is 0 leaves the filter where `N` fades leave it and does not read the
inputs at all. -/
def Obligations.DisabledFrameFades : Prop :=
  ∀ s : State, Legal s.cfg → s.engine.blkState = .ready → s.control.enable = false →
    -32768 ≤ s.mixer.lpfState.toInt → s.mixer.lpfState.toInt ≤ 32767 →
    ∃ t, exec .mix s = .next t ∧
      t.mixer.lpfState.toInt = (fade s.cfg)^[s.cfg.n] s.mixer.lpfState.toInt ∧
      ∀ inp : Input, exec .mix { s with input := inp } = .next { t with input := inp }

/-- R116, R117: while the start-up window is open a frame is written as `(0, 0)` throughout, the previous output becomes 0, the
window counts one frame, and the filter moves exactly as it would with the window at any other count. -/
def Obligations.StartupFramesAreSilent : Prop :=
  ∀ s : State, Legal s.cfg → s.engine.blkState = .ready → s.mixer.startupCtr.toNat < s.cfg.startupFrames →
    ∃ t, exec .mix s = .next t ∧
      (∀ i, i < s.cfg.n → t.mixer.outBuf.read i = ⟨0, 0⟩) ∧
      t.mixer.prevOut = 0 ∧
      t.mixer.startupCtr.toNat = s.mixer.startupCtr.toNat + 1 ∧
      ∀ (x : Word32) (t' : State), exec .mix { s with mixer := { s.mixer with startupCtr := x } } = .next t' →
        t'.mixer.lpfState = t.mixer.lpfState

/-- R258: with the limiter present both halves of every sample `MIX` writes lie within the limits the rule gives. -/
def Obligations.OutputStaysWithinTheLimits : Prop :=
  ∀ s t : State, Legal s.cfg → s.engine.blkState = .ready → s.cfg.limEn = true →
    -32768 ≤ s.mixer.lpfState.toInt → s.mixer.lpfState.toInt ≤ 32767 →
    exec .mix s = .next t →
    ∀ i, i < s.cfg.n →
      -((s.cfg.limT : Int) + (32768 - s.cfg.limT) / 2 ^ s.cfg.limShift) ≤ (t.mixer.outBuf.read i).l.toInt ∧
        (t.mixer.outBuf.read i).l.toInt ≤ (s.cfg.limT : Int) + (32767 - s.cfg.limT) / 2 ^ s.cfg.limShift ∧
        -((s.cfg.limT : Int) + (32768 - s.cfg.limT) / 2 ^ s.cfg.limShift) ≤ (t.mixer.outBuf.read i).r.toInt ∧
        (t.mixer.outBuf.read i).r.toInt ≤ (s.cfg.limT : Int) + (32767 - s.cfg.limT) / 2 ^ s.cfg.limShift

/-! ### PUSH and SUBMIT -/

/-- R143, ring case (R132, R133, R135, R140, R141): an admitted `PUSH` writes the shifted frame at the write position, around the
end of the ring, and nothing else of the region; then the position, the counts and the pre-roll. -/
def Obligations.PushWritesTheRing : Prop :=
  ∀ s : State, GoodState s → s.engine.blkState = .ready → s.cfg.shape = .ring →
    ringFill s.cfg s.engine + s.cfg.n ≤ s.cfg.ringSize - s.cfg.minHeadroom →
    ∃ m : Memory Pair,
      exec .push s = .next
        { s with
          engine :=
            { s.engine with
              region := m
              wrPos := (s.engine.wrPos + s.cfg.n) % s.cfg.ringSize
              pushCnt := if s.engine.running then s.engine.pushCnt else s.engine.pushCnt + 1
              running := s.engine.running || decide (s.cfg.preroll ≤ s.engine.pushCnt.toNat + 1)
              rst :=
                if s.engine.running = true ∨ s.cfg.preroll ≤ s.engine.pushCnt.toNat + 1 then .playing else .armed }
          stats :=
            { s.stats with
              buffersFilled := satInc32 s.stats.buffersFilled
              commandsProcessed := satInc32 s.stats.commandsProcessed } } ∧
        (∀ j, j < s.cfg.n →
          (m.read ((s.engine.wrPos + j) % s.cfg.ringSize)).l.toInt =
              (s.mixer.outBuf.read j).l.toInt / 2 ^ s.control.dmaShift.toNat ∧
            (m.read ((s.engine.wrPos + j) % s.cfg.ringSize)).r.toInt =
              (s.mixer.outBuf.read j).r.toInt / 2 ^ s.control.dmaShift.toNat) ∧
        ∀ i, (∀ j, j < s.cfg.n → i ≠ (s.engine.wrPos + j) % s.cfg.ringSize) → m.read i = s.engine.region.read i

/-- R143, ping-pong case (R132, R133, R137, R140, R141): an admitted `PUSH` fills the target buffer with the shifted frame and
nothing else of the region, arms it, counts, and starts the engine on buffer 0 when the pre-roll is complete. -/
def Obligations.PushFillsThePingpongBuffer : Prop :=
  ∀ s : State, GoodState s → s.engine.blkState = .ready → s.cfg.shape = .pingpong → heldIn .push s = false →
    ∃ (k : Fin 2) (t : State),
      k.val = (if s.engine.running then 1 - s.engine.playing.val else s.engine.pushCnt.toNat) ∧
        exec .push s = .next t ∧
        t = { s with
          engine :=
            { s.engine with
              region := t.engine.region
              bst0 := t.engine.bst0
              bst1 := t.engine.bst1
              pushCnt := if s.engine.running then s.engine.pushCnt else s.engine.pushCnt + 1
              running := s.engine.running || decide (s.cfg.preroll ≤ s.engine.pushCnt.toNat + 1) }
          stats :=
            { s.stats with
              buffersFilled := satInc32 s.stats.buffersFilled
              commandsProcessed := satInc32 s.stats.commandsProcessed } } ∧
        (∀ j, j < s.cfg.n →
          (t.engine.region.read (k.val * s.cfg.bufLen + j)).l.toInt =
              (s.mixer.outBuf.read j).l.toInt / 2 ^ s.control.dmaShift.toNat ∧
            (t.engine.region.read (k.val * s.cfg.bufLen + j)).r.toInt =
              (s.mixer.outBuf.read j).r.toInt / 2 ^ s.control.dmaShift.toNat) ∧
        (∀ i, (∀ j, j < s.cfg.n → i ≠ k.val * s.cfg.bufLen + j) →
          t.engine.region.read i = s.engine.region.read i) ∧
        t.engine.bst0 =
          (if s.engine.running = false ∧ s.cfg.preroll ≤ s.engine.pushCnt.toNat + 1 then .playing
            else if k = 0 then .armed else s.engine.bst0) ∧
        t.engine.bst1 = (if k = 1 then .armed else s.engine.bst1)

/-- R143, N-buffer case (R132, R133, R139, R140, R141): an admitted `PUSH` fills buffer `WR_CNT mod NBUF` with the shifted frame
and nothing else of the region; then the write count, the counts and the pre-roll. -/
def Obligations.PushFillsTheNextBuffer : Prop :=
  ∀ s : State, GoodState s → s.engine.blkState = .ready → s.cfg.shape = .nbuf →
    (s.engine.wrCnt - s.engine.rdCnt).toNat ≠ s.cfg.nbuf →
    ∃ m : Memory Pair,
      exec .push s = .next
        { s with
          engine :=
            { s.engine with
              region := m
              wrCnt := s.engine.wrCnt + 1
              pushCnt := if s.engine.running then s.engine.pushCnt else s.engine.pushCnt + 1
              running := s.engine.running || decide (s.cfg.preroll ≤ s.engine.pushCnt.toNat + 1)
              rst :=
                if s.engine.running = true ∨ s.cfg.preroll ≤ s.engine.pushCnt.toNat + 1 then .playing else .armed }
          stats :=
            { s.stats with
              buffersFilled := satInc32 s.stats.buffersFilled
              commandsProcessed := satInc32 s.stats.commandsProcessed } } ∧
        (∀ j, j < s.cfg.n →
          (m.read (s.engine.wrCnt.toNat % s.cfg.nbuf * s.cfg.bufLen + j)).l.toInt =
              (s.mixer.outBuf.read j).l.toInt / 2 ^ s.control.dmaShift.toNat ∧
            (m.read (s.engine.wrCnt.toNat % s.cfg.nbuf * s.cfg.bufLen + j)).r.toInt =
              (s.mixer.outBuf.read j).r.toInt / 2 ^ s.control.dmaShift.toNat) ∧
        ∀ i, (∀ j, j < s.cfg.n → i ≠ s.engine.wrCnt.toNat % s.cfg.nbuf * s.cfg.bufLen + j) →
          m.read i = s.engine.region.read i

/-- R131, R145 (a): `PUSH` and `SUBMIT` outside `Ready` are discarded, and neither is ever held before the engine has started. -/
def Obligations.PushBeforeTheStartIsAdmitted : Prop :=
  Encodes 0x13 (fun _ => .push) ∧ Encodes 0x14 (fun _ => .submit) ∧
    (∀ s : State, s.engine.blkState ≠ .ready → exec .push s = .next s ∧ exec .submit s = .next s) ∧
    ∀ s : State, GoodState s → s.engine.running = false → heldIn .push s = false ∧ heldIn .submit s = false

/-- R172: the writer never advances into what the hardware has not finished consuming. The destinations of an admitted `PUSH` are
none of the elements the DMA agent has yet to read, and those elements read as before afterwards. -/
def Obligations.PushNeverWritesUnreadElements : Prop :=
  ∀ s : State, GoodState s → s.engine.blkState = .ready → heldIn .push s = false →
    (∀ j, j < s.cfg.n → ¬ unread s.cfg s.engine (pushDestination s.cfg s.engine j)) ∧
      ∀ t, exec .push s = .next t → ∀ i, unread s.cfg s.engine i → t.engine.region.read i = s.engine.region.read i

/-- R144: `SUBMIT` is, in one step, all of `MIX` and then all of `PUSH` on the frame just mixed, counted once; it is held exactly
when `PUSH` is, and nothing is mixed while it waits, which the model shows by `exec` answering the state itself (log 14);
outside `Ready` it is discarded. -/
def Obligations.SubmitIsMixThenPush : Prop :=
  ∀ s : State,
    heldIn .submit s = heldIn .push s ∧
      (heldIn .submit s = true → exec .submit s = .next s) ∧
      (s.engine.blkState ≠ .ready → exec .submit s = .next s) ∧
      (GoodState s → s.engine.blkState = .ready → heldIn .submit s = false →
        ∃ u v, exec .mix s = .next u ∧ heldIn .push u = false ∧ exec .push u = .next v ∧
          exec .submit s = .next
            { v with stats := { v.stats with commandsProcessed := satInc32 s.stats.commandsProcessed } })

/-- R153 (b), R161 (a), R166 (a): `PUSH` appends the frame it copies to what the DMA agent has yet to emit, before the start and
after it, in every shape. -/
def Obligations.PushAppendsTheFrame : Prop :=
  ∀ s : State, GoodState s → s.engine.blkState = .ready → heldIn .push s = false →
    ∃ t, exec .push s = .next t ∧ pending t.cfg t.engine = pending s.cfg s.engine ++ copiedFrame s

/-! ### TICK -/

/-- R150: from a good state in which the engine runs a tick always answers and emits exactly one element, counted; while it is not
enabled the DMA agent has no step, which the model shows by a turn that changes nothing (log 4). -/
def Obligations.TickEmitsExactlyOne : Prop :=
  (∀ s : State, GoodState s → s.engine.blkState = .ready → s.engine.running = true →
    ∃ t v, tick s = .next t ∧ t.outStream = s.outStream ++ [v] ∧
      t.stats.samplesEmitted.toNat = min (s.stats.samplesEmitted.toNat + 1) (2 ^ 32 - 1)) ∧
    ∀ s : State, ¬ (s.engine.blkState = .ready ∧ s.engine.running = true) → tick s = .next s

/-- R151 and R152: the ring's tick. With data it reads at the read position and advances it; with the fill at 0 it first appends
`N` zeros at the write position and counts one underrun. No interrupt. -/
def Obligations.RingTick : Prop :=
  ∀ s : State, GoodState s → s.cfg.shape = .ring → s.engine.running = true →
    (ringFill s.cfg s.engine ≠ 0 →
      tick s = .next
        { s with
          engine := { s.engine with rdPos := wrapPos s.cfg (s.engine.rdPos + 1) }
          outStream := s.outStream ++ [s.engine.region.read s.engine.rdPos]
          stats := { s.stats with samplesEmitted := satInc32 s.stats.samplesEmitted } }) ∧
      (ringFill s.cfg s.engine = 0 →
        ∃ m : Memory Pair,
          tick s = .next
            { s with
              engine :=
                { s.engine with
                  region := m
                  wrPos := wrapPos s.cfg (s.engine.wrPos + s.cfg.n)
                  rdPos := wrapPos s.cfg (s.engine.rdPos + 1) }
              outStream := s.outStream ++ [⟨0, 0⟩]
              stats :=
                { s.stats with
                  underruns := satInc32 s.stats.underruns
                  samplesEmitted := satInc32 s.stats.samplesEmitted } } ∧
            (∀ j, j < s.cfg.n → m.read (wrapPos s.cfg (s.engine.wrPos + j)) = ⟨0, 0⟩) ∧
            ∀ i, (∀ j, j < s.cfg.n → i ≠ wrapPos s.cfg (s.engine.wrPos + j)) → m.read i = s.engine.region.read i)

/-- R160 (R155 to R159): the ping-pong tick. Before the playing buffer's last element it emits and advances the descriptor. At the
last element it also counts the interrupt, re-arms the descriptor, frees the buffer, zeroes the other buffer and counts one
underrun where that one is not `Armed`, and plays it. -/
def Obligations.PingpongTick : Prop :=
  ∀ (s : State) (p : Fin 2) (d : Desc), GoodState s → s.cfg.shape = .pingpong → s.engine.running = true →
    p = s.engine.playing → d = s.engine.bufDesc p →
    (d.count ≠ 1 →
      tick s = .next
        { s with
          engine := s.engine.setBufDesc p ⟨d.addr + 1, d.count - 1⟩
          outStream := s.outStream ++ [s.engine.region.read (p.val * s.cfg.bufLen + d.addr)]
          stats := { s.stats with samplesEmitted := satInc32 s.stats.samplesEmitted } }) ∧
      (d.count = 1 →
        ∃ (q : Fin 2) (m : Memory Pair), q.val = 1 - p.val ∧
          tick s = .next
            { s with
              engine :=
                { s.engine with
                  region := m
                  playing := q
                  bst0 := if q = 0 then .playing else .refilling
                  bst1 := if q = 1 then .playing else .refilling
                  desc0 := ⟨0, s.cfg.bufLen⟩
                  desc1 := ⟨0, s.cfg.bufLen⟩ }
              outStream := s.outStream ++ [s.engine.region.read (p.val * s.cfg.bufLen + d.addr)]
              stats :=
                { s.stats with
                  samplesEmitted := satInc32 s.stats.samplesEmitted
                  irqCount := satInc32 s.stats.irqCount
                  underruns := if s.engine.bst q = .armed then s.stats.underruns else satInc32 s.stats.underruns } } ∧
            ∀ i, m.read i =
              if s.engine.bst q ≠ .armed ∧ q.val * s.cfg.bufLen ≤ i ∧ i < (q.val + 1) * s.cfg.bufLen then ⟨0, 0⟩
              else s.engine.region.read i)

/-- R165 (R162 to R164): the N-buffer tick. It emits the current buffer's element, or silence in a substitute; at the last element
it also counts the interrupt, consumes the buffer if it was real, re-arms the descriptor, and where no buffer is left counts one
underrun and plays silence next. -/
def Obligations.QueueTick : Prop :=
  ∀ (s : State) (v : Pair) (rd : Word32), GoodState s → s.cfg.shape = .nbuf → s.engine.running = true →
    v = (if s.engine.curSilent then ⟨0, 0⟩
      else s.engine.region.read (s.engine.rdCnt.toNat % s.cfg.nbuf * s.cfg.bufLen + s.engine.desc.addr)) →
    rd = (if s.engine.curSilent then s.engine.rdCnt else s.engine.rdCnt + 1) →
    (s.engine.desc.count ≠ 1 →
      tick s = .next
        { s with
          engine := { s.engine with desc := ⟨s.engine.desc.addr + 1, s.engine.desc.count - 1⟩ }
          outStream := s.outStream ++ [v]
          stats := { s.stats with samplesEmitted := satInc32 s.stats.samplesEmitted } }) ∧
      (s.engine.desc.count = 1 →
        tick s = .next
          { s with
            engine :=
              { s.engine with
                rdCnt := rd
                desc := ⟨0, s.cfg.bufLen⟩
                curSilent := decide (s.engine.wrCnt = rd) }
            outStream := s.outStream ++ [v]
            stats :=
              { s.stats with
                samplesEmitted := satInc32 s.stats.samplesEmitted
                irqCount := satInc32 s.stats.irqCount
                underruns := if s.engine.wrCnt = rd then satInc32 s.stats.underruns else s.stats.underruns } })

/-- The output is the pushed frames in order, each element once, and whole frames of silence (R153, R161, R166, R258). A tick emits
the head of what is pending. In the ping-pong and N-buffer shapes, where that leaves nothing, a silent buffer is inserted and one
underrun counted; in the ring, a tick that finds nothing inserts a silent frame, counts one underrun and emits its first
element. -/
def Obligations.TickPlaysWhatIsPending : Prop :=
  ∀ s : State, GoodState s → s.engine.running = true →
    ∃ t v rest, tick s = .next t ∧ t.outStream = s.outStream ++ [v] ∧
      ((pending s.cfg s.engine = v :: rest ∧
          (s.cfg.shape = .ring ∨ rest ≠ [] → pending t.cfg t.engine = rest ∧ t.stats.underruns = s.stats.underruns) ∧
          (s.cfg.shape ≠ .ring ∧ rest = [] →
            pending t.cfg t.engine = List.replicate s.cfg.n ⟨0, 0⟩ ∧
              t.stats.underruns = satInc32 s.stats.underruns)) ∨
        (s.cfg.shape = .ring ∧ pending s.cfg s.engine = [] ∧ v = ⟨0, 0⟩ ∧ rest = List.replicate (s.cfg.n - 1) ⟨0, 0⟩ ∧
          pending t.cfg t.engine = rest ∧ t.stats.underruns = satInc32 s.stats.underruns))

/-- R43, over one buffer period with no command between: `N` ticks emit `N` elements; in the ping-pong and N-buffer shapes exactly
one completion interrupt is counted, in the ring none; and at most one underrun. -/
def Obligations.OneBufferPeriodOfTicks : Prop :=
  ∀ s : State, GoodState s → s.engine.running = true →
    ∃ t, ticks s.cfg.n s = .next t ∧
      t.outStream.length = s.outStream.length + s.cfg.n ∧
      t.stats.irqCount = (if s.cfg.shape = .ring then s.stats.irqCount else satInc32 s.stats.irqCount) ∧
      (t.stats.underruns = s.stats.underruns ∨ t.stats.underruns = satInc32 s.stats.underruns)

/-- R134, R256: every hold ends by ticks alone, within `N` of them; within `2 * N` where an N-buffer block is playing a silent
substitute, whose completion frees no buffer by R163 (R256's own bound leaves that case out). -/
def Obligations.EveryHoldEnds : Prop :=
  ∀ (s : State) (i : Instr), GoodState s → heldIn i s = true →
    ∃ k t, 1 ≤ k ∧
      k ≤ (if s.cfg.shape = .nbuf ∧ s.engine.curSilent = true then 2 * s.cfg.n else s.cfg.n) ∧
      ticks k s = .next t ∧ heldIn i t = false

/-! ### Agents, invariants, streams -/

/-- R73: who writes what. A tick changes none of the host's, the SCA's and ENV's fields. A command changes no input, and, but for
`INIT`, `TEARDOWN` and `RESET_STATS`, none of the DMA agent's fields; it never touches `OUT_STREAM` or ENV's answer. -/
def Obligations.AgentsKeepToTheirFields : Prop :=
  (∀ s t : State, tick s = .next t →
    t.cfg = s.cfg ∧ t.control = s.control ∧ t.input = s.input ∧ t.mixer = s.mixer ∧
      t.engine.blkState = s.engine.blkState ∧ t.engine.running = s.engine.running ∧
      t.engine.pushCnt = s.engine.pushCnt ∧ t.engine.irqEn = s.engine.irqEn ∧ t.engine.wrCnt = s.engine.wrCnt ∧
      t.stats.buffersFilled = s.stats.buffersFilled ∧ t.stats.commandsProcessed = s.stats.commandsProcessed ∧
      t.stats.queueOverflows = s.stats.queueOverflows ∧ t.stats.maxQueueDepth = s.stats.maxQueueDepth ∧
      t.respStream = s.respStream ∧ t.port = s.port ∧ t.hwAvailable = s.hwAvailable ∧ t.scaInbox = s.scaInbox) ∧
    ∀ (i : Instr) (s t : State), GoodState s → exec i s = .next t →
      t.input = s.input ∧ t.outStream = s.outStream ∧ t.hwAvailable = s.hwAvailable ∧ t.cfg = s.cfg ∧
        (i ≠ .resetStats →
          t.stats.underruns = s.stats.underruns ∧ t.stats.irqCount = s.stats.irqCount ∧
            t.stats.samplesEmitted = s.stats.samplesEmitted ∧ t.stats.queueOverflows = s.stats.queueOverflows ∧
            t.stats.maxQueueDepth = s.stats.maxQueueDepth) ∧
        (i ≠ .init → i ≠ .teardown →
          t.engine.rdPos = s.engine.rdPos ∧ t.engine.rdCnt = s.engine.rdCnt ∧ t.engine.playing = s.engine.playing ∧
            t.engine.desc0 = s.engine.desc0 ∧ t.engine.desc1 = s.engine.desc1 ∧ t.engine.desc = s.engine.desc ∧
            t.engine.curSilent = s.engine.curSilent ∧ t.engine.irqPend0 = s.engine.irqPend0 ∧
            t.engine.irqPend1 = s.engine.irqPend1 ∧ t.engine.blkState = s.engine.blkState ∧
            t.engine.irqEn = s.engine.irqEn)

/-- The invariants of R49, with what the rules need around them, hold in every good state's successor: every step of every agent
keeps them. -/
def Obligations.StepKeepsGoodState : Prop :=
  ∀ s t : State, GoodState s → step s = .next t → GoodState t

/-- The invariants hold after power-on reset under every legal configuration. The defaults of R10 are legal in each of the three
shapes, and the reset state of the model, which takes them for the ping-pong shape (log 1), is good. -/
def Obligations.PowerOnIsGood : Prop :=
  (∀ c : Config, Legal c → GoodState (State.powerOn c)) ∧ (∀ shape : Shape, Legal (.defaultOf shape)) ∧
    GoodState State.reset

/-- R219, R61: no traps and no index out of range. From a good state every step answers a next state: no fault, no refusal. A
good state's SCA turns name elements that exist (log 9) and its configuration is legal (log 2, 3). -/
def Obligations.StepNeverStops : Prop :=
  ∀ s : State, GoodState s → ∃ t, step s = .next t

/-- R46, R47, R10: no step changes the configuration or takes anything back from the two streams; the output grows only by a DMA
turn, by one element, and the responses only by a HOST turn (turns: the model's own field, log 4). -/
def Obligations.StreamsOnlyGrow : Prop :=
  ∀ s t : State, step s = .next t →
    t.cfg = s.cfg ∧
      (t.outStream = s.outStream ∨ s.turns.head? = some .dma ∧ ∃ v, t.outStream = s.outStream ++ [v]) ∧
      (t.respStream = s.respStream ∨ s.turns.head? = some .host ∧ ∃ ws, t.respStream = s.respStream ++ ws)

/-- R41: the seven counters never decrease but for a step that runs `RESET_STATS` in a HOST turn (turns: the model's own field,
log 4). -/
def Obligations.CountersNeverDecrease : Prop :=
  ∀ s t : State, step s = .next t →
    (s.stats.buffersFilled.toNat ≤ t.stats.buffersFilled.toNat ∧ s.stats.underruns.toNat ≤ t.stats.underruns.toNat ∧
        s.stats.commandsProcessed.toNat ≤ t.stats.commandsProcessed.toNat ∧
        s.stats.queueOverflows.toNat ≤ t.stats.queueOverflows.toNat ∧
        s.stats.irqCount.toNat ≤ t.stats.irqCount.toNat ∧
        s.stats.maxQueueDepth.toNat ≤ t.stats.maxQueueDepth.toNat ∧
        s.stats.samplesEmitted.toNat ≤ t.stats.samplesEmitted.toNat) ∨
      ∃ r rest, s.turns.head? = some .host ∧ s.port = r :: rest ∧ r.b0 = 0x16 ∧ t.stats = ⟨0, 0, 0, 0, 0, 0, 0⟩

/-- R113, R49 item 4: no channel ever differs from the other in what is emitted. -/
def Obligations.OutputIsMono : Prop :=
  ∀ s t : State, GoodState s → step s = .next t → (∀ p ∈ s.outStream, p.l = p.r) → ∀ p ∈ t.outStream, p.l = p.r

/-- R62: a ring position reduced modulo `RING_SIZE` is the position masked with `RING_SIZE - 1`, under every legal ring
configuration. -/
def Obligations.RingWrapsByMasking : Prop :=
  ∀ (c : Config) (p : Nat), Legal c → c.shape = .ring →
    wrapPos c p = p &&& (c.ringSize - 1) ∧ wrapPos c p < c.ringSize

end Statements
end

