-- ==== Sys2Proof/Laws/Arith.lean ====
section
/-! SUPPORT. The arithmetic primitives of 00_scope.md R13: what each computes, and the ranges it keeps. -/

namespace Sys2Proof.Machine

theorem pow_cast_pos (k : Nat) : (0 : Int) < ((2 ^ k : Nat) : Int) := by exact_mod_cast Nat.two_pow_pos k

@[simp] theorem sra_zero (v : Int) : sra v 0 = v := by simp [sra]

/-- `sra` is the floor: it is at least `a` exactly when `v` is at least `a * 2^k`. -/
theorem le_sra_iff (a v : Int) (k : Nat) : a ≤ sra v k ↔ a * ((2 ^ k : Nat) : Int) ≤ v :=
  Int.le_ediv_iff_mul_le (pow_cast_pos k)

theorem sra_lt_iff (a v : Int) (k : Nat) : sra v k < a ↔ v < a * ((2 ^ k : Nat) : Int) :=
  Int.ediv_lt_iff_lt_mul (pow_cast_pos k)

theorem sra_le_iff (a v : Int) (k : Nat) : sra v k ≤ a ↔ v < (a + 1) * ((2 ^ k : Nat) : Int) := by
  rw [← sra_lt_iff]; omega

theorem sra_mono {a b : Int} (h : a ≤ b) (k : Nat) : sra a k ≤ sra b k :=
  Int.ediv_le_ediv (pow_cast_pos k) h

/-- `clip16` stays in the `i16` range. -/
theorem clip16_range (v : Int) : -32768 ≤ clip16 v ∧ clip16 v ≤ 32767 := by
  unfold clip16; split
  · omega
  · split <;> omega

/-- `clip16` leaves the `i16` range alone. -/
theorem clip16_of_range {v : Int} (h : -32768 ≤ v) (h' : v ≤ 32767) : clip16 v = v := by
  unfold clip16; split
  · omega
  · split <;> omega

/-- A value of the `i16` range is stored and read back unchanged. -/
theorem toInt_toSample {v : Int} (h : -32768 ≤ v) (h' : v ≤ 32767) : (toSample v).toInt = v := by
  simp only [toSample, BitVec.toInt_ofInt]
  exact Int.bmod_eq_of_le (by omega) (by omega)

@[simp] theorem toSample_toInt (b : Sample) : toSample b.toInt = b := by simp [toSample]

theorem toInt_sample_range (b : Sample) : -32768 ≤ b.toInt ∧ b.toInt ≤ 32767 := by
  have h1 := BitVec.le_toInt b
  have h2 := BitVec.toInt_lt (x := b)
  norm_num at h1 h2
  omega

/-- A value of the `i32` range is stored and read back unchanged. -/
theorem toInt_toWord32 {v : Int} (h : -2147483648 ≤ v) (h' : v ≤ 2147483647) : (toWord32 v).toInt = v := by
  simp only [toWord32, BitVec.toInt_ofInt]
  exact Int.bmod_eq_of_le (by omega) (by omega)

@[simp] theorem stereo_l (v : Int) : (stereo v).l = toSample v := rfl
@[simp] theorem stereo_r (v : Int) : (stereo v).r = toSample v := rfl
@[simp] theorem stereo_zero : stereo 0 = Pair.silent := by decide
@[simp] theorem default_pair : (default : Pair) = Pair.silent := by decide
@[simp] theorem default_sample : (default : Sample) = 0 := by decide

@[simp] theorem natAbs_withSign (v : Int) (m : Nat) (h : v ≠ 0 ∨ m = 0) : (withSign v m).natAbs = m := by
  rcases h with h | h
  · rw [withSign, Int.natAbs_mul, Int.natAbs_sign_of_ne_zero h]; simp
  · subst h; simp [withSign]

@[simp] theorem withSign_zero (m : Nat) : withSign 0 m = 0 := by simp [withSign]

theorem withSign_natAbs (v : Int) : withSign v v.natAbs = v := by
  rw [withSign, Int.sign_mul_natAbs]

theorem withSign_of_pos {v : Int} (h : 0 < v) (m : Nat) : withSign v m = m := by
  simp [withSign, Int.sign_eq_one_of_pos h]

theorem withSign_of_neg {v : Int} (h : v < 0) (m : Nat) : withSign v m = -(m : Int) := by
  simp [withSign, Int.sign_eq_neg_one_of_neg h]

theorem withSign_neg (v : Int) (m : Nat) : withSign (-v) m = -withSign v m := by
  simp [withSign]

/-- The saturating increment, as a number. -/
theorem toNat_satInc32 (c : Word32) : (satInc32 c).toNat = min (c.toNat + 1) 4294967295 := by
  have := c.isLt
  unfold satInc32
  split
  · rw [BitVec.toNat_add]; simp; omega
  · omega

theorem le_satInc32 (c : Word32) : c.toNat ≤ (satInc32 c).toNat := by
  have := c.isLt
  rw [toNat_satInc32]; omega

/-- `sat_inc32` is `sat_add32` of one. -/
theorem satInc32_eq_satAdd32 (c : Word32) : satInc32 c = satAdd32 c 1 := by
  apply BitVec.eq_of_toNat_eq
  rw [toNat_satInc32, satAdd32, BitVec.toNat_ofNat]
  omega

end Sys2Proof.Machine
end

