-- ==== Sys2Proof/Laws/Memory.lean ====
section
/-! SUPPORT. What a memory access does: a read after a write, the canonical form kept, canonical memories equal when they
read alike. -/

namespace Sys2Proof.Machine

variable {α : Type}

@[simp] theorem Memory.within_nil (size : Nat) : Memory.within ([] : Memory α) size = true := rfl

/-- A smaller space's memory is a larger space's. -/
theorem Memory.within_mono {m : Memory α} {a b : Nat} (h : m.within a = true) (hab : a ≤ b) : m.within b = true := by
  simp only [Memory.within, List.all_eq_true, decide_eq_true_eq] at h ⊢
  exact fun c hc => lt_of_lt_of_le (h c hc) hab

@[simp] theorem Memory.length_readBlock [Inhabited α] (m : Memory α) (i n : Nat) : (m.readBlock i n).length = n := by
  simp [Memory.readBlock]

theorem Memory.getElem_readBlock [Inhabited α] (m : Memory α) (i n j : Nat) (h : j < (m.readBlock i n).length) :
    (m.readBlock i n)[j] = m.read (i + j) := by
  simp [Memory.readBlock]

variable [Inhabited α]

@[simp] theorem Memory.read_nil (i : Nat) : Memory.read ([] : Memory α) i = default := rfl

theorem Memory.read_cons (k : Nat) (v : α) (m : Memory α) (i : Nat) :
    Memory.read ((k, v) :: m) i = if k = i then v else Memory.read m i := rfl

/-- An index that no cell has reads as the default. -/
theorem Memory.read_eq_default {m : Memory α} {i : Nat} (h : ∀ c ∈ m, c.1 ≠ i) : m.read i = default := by
  induction m with
  | nil => rfl
  | cons c m ih =>
    obtain ⟨k, v⟩ := c
    rw [Memory.read_cons, if_neg (h (k, v) (by simp))]
    exact ih fun c hc => h c (by simp [hc])

theorem Memory.read_append_left {a b : Memory α} {i : Nat} (h : ∀ c ∈ b, c.1 ≠ i) :
    Memory.read (a ++ b) i = a.read i := by
  induction a with
  | nil => simpa using Memory.read_eq_default h
  | cons c a ih =>
    obtain ⟨k, v⟩ := c
    simp only [List.cons_append, Memory.read_cons, ih]

theorem Memory.read_append_right {a b : Memory α} {i : Nat} (h : ∀ c ∈ a, c.1 ≠ i) :
    Memory.read (a ++ b) i = b.read i := by
  induction a with
  | nil => rfl
  | cons c a ih =>
    obtain ⟨k, v⟩ := c
    rw [List.cons_append, Memory.read_cons, if_neg (h (k, v) (by simp))]
    exact ih fun c hc => h c (by simp [hc])

theorem Memory.read_filter (m : Memory α) (p : Nat → Bool) (i : Nat) :
    Memory.read (m.filter fun c => p c.1) i = if p i then m.read i else default := by
  induction m with
  | nil => simp
  | cons c m ih =>
    obtain ⟨k, v⟩ := c
    by_cases hp : p k
    · rw [List.filter_cons_of_pos (p := fun c : Nat × α => p c.1) hp, Memory.read_cons, Memory.read_cons, ih]
      by_cases hk : k = i
      · subst hk; simp [hp]
      · simp [hk]
    · rw [List.filter_cons_of_neg (p := fun c : Nat × α => p c.1) hp, Memory.read_cons, ih]
      by_cases hk : k = i
      · subst hk; simp [hp]
      · simp [hk]

/-- An element that the space does not have reads as the default. -/
theorem Memory.read_of_within {m : Memory α} {size i : Nat} (h : m.within size = true) (hi : size ≤ i) :
    m.read i = default := by
  simp only [Memory.within, List.all_eq_true, decide_eq_true_eq] at h
  exact Memory.read_eq_default fun c hc => by have := h c hc; omega

variable [DecidableEq α]

theorem Memory.cells_bounds {i : Nat} {vs : List α} {c : Nat × α} (h : c ∈ Memory.cells i vs) :
    i ≤ c.1 ∧ c.1 < i + vs.length ∧ c.2 ≠ default := by
  induction vs generalizing i with
  | nil => simp [Memory.cells] at h
  | cons v vs ih =>
    unfold Memory.cells at h
    split at h
    · have := ih h; simp only [List.length_cons]; exact ⟨by omega, by omega, this.2.2⟩
    · rename_i hv
      rcases List.mem_cons.1 h with rfl | h
      · simpa using hv
      · have := ih h; simp only [List.length_cons]; exact ⟨by omega, by omega, this.2.2⟩

theorem Memory.read_cells (i k : Nat) (vs : List α) :
    (Memory.cells i vs).read k = if i ≤ k then vs.getD (k - i) default else default := by
  induction vs generalizing i with
  | nil => simp [Memory.cells]
  | cons v vs ih =>
    unfold Memory.cells
    rcases lt_trichotomy i k with h | rfl | h
    · have e : k - i = (k - (i + 1)) + 1 := by omega
      split
      · rw [ih, if_pos (by omega), if_pos (by omega), e, List.getD_cons_succ]
      · rw [Memory.read_cons, if_neg (by omega), ih, if_pos (by omega), if_pos (by omega), e, List.getD_cons_succ]
    · split
      · rename_i hv; rw [ih, if_neg (by omega), if_pos (le_refl _)]; simp [hv]
      · rw [Memory.read_cons, if_pos rfl]; simp
    · split
      · rw [ih, if_neg (by omega), if_neg (by omega)]
      · rw [Memory.read_cons, if_neg (by omega), ih, if_neg (by omega), if_neg (by omega)]

/-- A read after a block write: the value written inside the block, the old value outside. -/
theorem Memory.read_writeBlock (m : Memory α) (i k : Nat) (vs : List α) :
    (m.writeBlock i vs).read k = if i ≤ k ∧ k < i + vs.length then vs.getD (k - i) default else m.read k := by
  unfold Memory.writeBlock
  have hleft : ∀ c ∈ m.filter (fun c => c.1 < i), c.1 < i := by
    intro c hc; simpa using (List.mem_filter.1 hc).2
  have hright : ∀ c ∈ m.filter (fun c => i + vs.length ≤ c.1), i + vs.length ≤ c.1 := by
    intro c hc; simpa using (List.mem_filter.1 hc).2
  rcases lt_or_ge k i with h | h
  · rw [if_neg (by omega), Memory.read_append_left (fun c hc => by have := hright c hc; omega),
      Memory.read_append_left (fun c hc => by have := Memory.cells_bounds hc; omega),
      Memory.read_filter m (fun j => decide (j < i))]
    simp [h]
  · rcases lt_or_ge k (i + vs.length) with h' | h'
    · rw [if_pos ⟨h, h'⟩, Memory.read_append_left (fun c hc => by have := hright c hc; omega),
        Memory.read_append_right (fun c hc => by have := hleft c hc; omega), Memory.read_cells, if_pos h]
    · rw [if_neg (by omega), Memory.read_append_right, Memory.read_filter m (fun j => decide (i + vs.length ≤ j))]
      · simp [h']
      · intro c hc
        rcases List.mem_append.1 hc with hc | hc
        · have := hleft c hc; omega
        · have := Memory.cells_bounds hc; omega

theorem Memory.read_write (m : Memory α) (i k : Nat) (v : α) :
    (m.write i v).read k = if k = i then v else m.read k := by
  rw [Memory.write, Memory.read_writeBlock]
  by_cases h : k = i
  · subst h; simp
  · rw [if_neg (by simp only [List.length_singleton]; omega), if_neg h]

/-- The canonical form, in words: cells at or above `lo`, rising strictly, none holding the default. -/
theorem Memory.wfFrom_iff (lo : Nat) (m : Memory α) :
    m.wfFrom lo = true ↔ (∀ c ∈ m, lo ≤ c.1 ∧ c.2 ≠ default) ∧ m.Pairwise (fun a b => a.1 < b.1) := by
  induction m generalizing lo with
  | nil => simp [Memory.wfFrom]
  | cons c m ih =>
    obtain ⟨k, v⟩ := c
    simp only [Memory.wfFrom, Bool.and_eq_true, decide_eq_true_eq, ih, List.pairwise_cons, List.mem_cons]
    constructor
    · rintro ⟨⟨h1, h2⟩, h3, h4⟩
      refine ⟨?_, fun c hc => by have := (h3 c hc).1; omega, h4⟩
      rintro c (rfl | hc)
      · exact ⟨h1, h2⟩
      · exact ⟨by have := (h3 c hc).1; omega, (h3 c hc).2⟩
    · rintro ⟨h1, h2, h3⟩
      exact ⟨h1 (k, v) (.inl rfl), fun c hc => ⟨h2 c hc, (h1 c (.inr hc)).2⟩, h3⟩

@[simp] theorem Memory.wf_nil : Memory.wf ([] : Memory α) = true := rfl

/-- A block write keeps the canonical form. -/
theorem Memory.wf_writeBlock {m : Memory α} (h : m.wf = true) (i : Nat) (vs : List α) :
    (m.writeBlock i vs).wf = true := by
  rw [Memory.wf, Memory.wfFrom_iff] at h ⊢
  obtain ⟨hd, hs⟩ := h
  have hcells : ∀ (i : Nat) (vs : List α), (Memory.cells i vs).Pairwise (fun a b => a.1 < b.1) := by
    intro i vs
    induction vs generalizing i with
    | nil => simp [Memory.cells]
    | cons v vs ih =>
      unfold Memory.cells
      split
      · exact ih (i + 1)
      · exact List.pairwise_cons.2 ⟨fun c hc => by have := Memory.cells_bounds hc; simp only; omega, ih (i + 1)⟩
  constructor
  · intro c hc
    refine ⟨Nat.zero_le _, ?_⟩
    simp only [Memory.writeBlock, List.mem_append] at hc
    rcases hc with (hc | hc) | hc
    · exact (hd c (List.mem_filter.1 hc).1).2
    · exact (Memory.cells_bounds hc).2.2
    · exact (hd c (List.mem_filter.1 hc).1).2
  · simp only [Memory.writeBlock, List.pairwise_append, List.mem_append]
    refine ⟨⟨hs.filter _, hcells i vs, ?_⟩, hs.filter _, ?_⟩
    · intro a ha b hb
      have h1 : a.1 < i := by simpa using (List.mem_filter.1 ha).2
      have := Memory.cells_bounds hb
      omega
    · intro a ha b hb
      have h2 : i + vs.length ≤ b.1 := by simpa using (List.mem_filter.1 hb).2
      rcases ha with ha | ha
      · have h1 : a.1 < i := by simpa using (List.mem_filter.1 ha).2
        omega
      · have := Memory.cells_bounds ha
        omega

/-- A single write keeps the canonical form. -/
theorem Memory.wf_write {m : Memory α} (h : m.wf = true) (i : Nat) (v : α) : (m.write i v).wf = true :=
  Memory.wf_writeBlock h i [v]

/-- A block write inside the space stays inside it. -/
theorem Memory.within_writeBlock {m : Memory α} {size i : Nat} {vs : List α} (h : m.within size = true)
    (hi : i + vs.length ≤ size) : (m.writeBlock i vs).within size = true := by
  simp only [Memory.within, Memory.writeBlock, List.all_append, Bool.and_eq_true, List.all_eq_true,
    decide_eq_true_eq] at h ⊢
  refine ⟨⟨fun c hc => h c (List.mem_filter.1 hc).1, fun c hc => ?_⟩, fun c hc => h c (List.mem_filter.1 hc).1⟩
  have := Memory.cells_bounds hc
  omega

/-- Canonical memories that read alike are equal. -/
theorem Memory.ext_of_wfFrom {lo : Nat} {a b : Memory α} (ha : a.wfFrom lo = true) (hb : b.wfFrom lo = true)
    (h : ∀ i, a.read i = b.read i) : a = b := by
  have low : ∀ {lo : Nat} {m : Memory α} {i : Nat}, m.wfFrom lo = true → i < lo → m.read i = default :=
    fun hm hi => Memory.read_eq_default fun c hc => by have := ((Memory.wfFrom_iff _ _).1 hm).1 c hc; omega
  have head : ∀ {k : Nat} {v : α} {m : Memory α}, Memory.read ((k, v) :: m) k = v := by
    intro k v m; rw [Memory.read_cons, if_pos rfl]
  induction a generalizing lo b with
  | nil =>
    cases b with
    | nil => rfl
    | cons d b =>
      obtain ⟨k, w⟩ := d
      have := h k
      rw [head, Memory.read_nil] at this
      simp only [Memory.wfFrom, Bool.and_eq_true, decide_eq_true_eq] at hb
      exact absurd this.symm hb.1.2
  | cons c a ih =>
    obtain ⟨k, v⟩ := c
    simp only [Memory.wfFrom, Bool.and_eq_true, decide_eq_true_eq] at ha
    cases b with
    | nil =>
      have := h k
      rw [head, Memory.read_nil] at this
      exact absurd this ha.1.2
    | cons d b =>
      obtain ⟨j, w⟩ := d
      simp only [Memory.wfFrom, Bool.and_eq_true, decide_eq_true_eq] at hb
      rcases lt_trichotomy k j with hk | rfl | hk
      · have := h k
        rw [head, Memory.read_cons, if_neg (by omega), low hb.2 (by omega)] at this
        exact absurd this ha.1.2
      · have hv : v = w := by have := h k; rwa [head, head] at this
        subst hv
        rw [ih ha.2 hb.2 fun i => ?_]
        have := h i
        rw [Memory.read_cons, Memory.read_cons] at this
        by_cases hi : k = i
        · subst hi; rw [low ha.2 (by omega), low hb.2 (by omega)]
        · simpa [hi] using this
      · have := h j
        rw [head, Memory.read_cons, if_neg (by omega), low ha.2 (by omega)] at this
        exact absurd this.symm hb.1.2

theorem Memory.ext_of_wf {a b : Memory α} (ha : a.wf = true) (hb : b.wf = true) (h : ∀ i, a.read i = b.read i) :
    a = b :=
  Memory.ext_of_wfFrom ha hb h

end Sys2Proof.Machine
end

