-- ==== Sys2Proof/Laws/Check.lean ====
section
/-! SUPPORT. A check that Lean evaluates and that implies `GoodState`, so that a concrete state is shown good by
`decide`. -/

namespace Sys2Proof.Machine

def pairSpaceCheck (m : Memory Pair) (size : Nat) : Bool :=
  m.wf && m.within size && m.all fun c => decide (c.2.l = c.2.r)

theorem pairSpace_of_check {m : Memory Pair} {size : Nat} (h : pairSpaceCheck m size = true) : PairSpace m size := by
  simp only [pairSpaceCheck, Bool.and_eq_true] at h
  refine ⟨h.1.1, h.1.2, fun i => ?_⟩
  have hall := h.2
  induction m with
  | nil => rfl
  | cons c m ih =>
    obtain ⟨k, v⟩ := c
    simp only [List.all_cons, Bool.and_eq_true, decide_eq_true_eq] at hall
    rw [Memory.read_cons]
    split
    · exact hall.1
    · have hwf : Memory.wf m = true := by
        have := (Memory.wfFrom_iff 0 _).1 h.1.1
        exact (Memory.wfFrom_iff 0 m).2 ⟨fun c hc => this.1 c (by simp [hc]), (List.pairwise_cons.1 this.2).2⟩
      have hin : Memory.within m size = true := by
        have h2 := h.1.2
        simp only [Memory.within, List.all_cons, Bool.and_eq_true] at h2
        exact h2.2
      exact ih ⟨⟨hwf, hin⟩, hall.2⟩ hall.2

def sampleSpaceCheck (m : Memory Sample) (size : Nat) : Bool := m.wf && m.within size

theorem sampleSpace_of_check {m : Memory Sample} {size : Nat} (h : sampleSpaceCheck m size = true) :
    SampleSpace m size := by
  simp only [sampleSpaceCheck, Bool.and_eq_true] at h
  exact ⟨h.1, h.2⟩

def mixerCheck (c : Config) (m : Mixer) : Bool :=
  decide (-32768 ≤ m.lpfState.toInt ∧ m.lpfState.toInt ≤ 32767 ∧ m.startupCtr.toNat ≤ c.startupFrames) &&
    pairSpaceCheck m.outBuf c.n

theorem mixer_of_check {c : Config} {m : Mixer} (h : mixerCheck c m = true) : MixerInv c m := by
  simp only [mixerCheck, Bool.and_eq_true, decide_eq_true_eq] at h
  exact ⟨h.1.1, h.1.2.1, h.1.2.2, pairSpace_of_check h.2⟩

def descCheck (c : Config) (d : Desc) : Bool := decide (d.addr + d.count = c.bufLen ∧ 1 ≤ d.count)

theorem desc_of_check {c : Config} {d : Desc} (h : descCheck c d = true) : DescInv c d := by
  have := of_decide_eq_true h
  exact ⟨this.1, this.2⟩

def noRingCheck (e : Engine) : Bool := decide (e.wrPos = 0 ∧ e.rdPos = 0)

theorem noRing_of_check {e : Engine} (h : noRingCheck e = true) : NoRing e := by
  have := of_decide_eq_true h
  exact ⟨this.1, this.2⟩

def noPingpongCheck (c : Config) (e : Engine) : Bool :=
  decide (e.playing = 0 ∧ e.bst0 = .idle ∧ e.bst1 = .idle ∧ e.desc0 = .armed c ∧ e.desc1 = .armed c)

theorem noPingpong_of_check {c : Config} {e : Engine} (h : noPingpongCheck c e = true) : NoPingpong c e := by
  obtain ⟨h1, h2, h3, h4, h5⟩ := of_decide_eq_true h
  exact ⟨h1, h2, h3, h4, h5⟩

def noQueueCheck (c : Config) (e : Engine) : Bool :=
  decide (e.wrCnt = 0 ∧ e.rdCnt = 0 ∧ e.curSilent = false ∧ e.desc = .armed c)

theorem noQueue_of_check {c : Config} {e : Engine} (h : noQueueCheck c e = true) : NoQueue c e := by
  obtain ⟨h1, h2, h3, h4⟩ := of_decide_eq_true h
  exact ⟨h1, h2, h3, h4⟩

def ringCheck (c : Config) (e : Engine) : Bool :=
  decide (e.wrPos < c.ringSize ∧ e.rdPos < c.ringSize ∧ ringFill c e ≤ c.ringSize - c.minHeadroom ∧ e.rst = rstOf e ∧
    (e.running = false → e.rdPos = 0 ∧ e.wrPos = e.pushCnt.toNat * c.n)) &&
    noPingpongCheck c e && noQueueCheck c e

theorem ring_of_check {c : Config} {e : Engine} (h : ringCheck c e = true) : RingInv c e := by
  simp only [ringCheck, Bool.and_eq_true] at h
  obtain ⟨h1, h2, h3, h4, h5⟩ := of_decide_eq_true h.1.1
  exact ⟨h1, h2, h3, h4, h5, noPingpong_of_check h.1.2, noQueue_of_check h.2⟩

def pingpongCheck (c : Config) (e : Engine) : Bool :=
  decide ((e.running = true → e.bst e.playing = .playing) ∧
    (e.running = true → e.bst (otherBuffer e.playing) ≠ .playing) ∧
    e.bufDesc (otherBuffer e.playing) = .armed c ∧
    (e.running = false → e.playing = 0 ∧ e.desc0 = .armed c ∧
      e.bst0 = (if 1 ≤ e.pushCnt.toNat then BufState.armed else .idle) ∧ e.bst1 = .idle) ∧
    e.rst = .idle) &&
    descCheck c (e.bufDesc e.playing) && noRingCheck e && noQueueCheck c e

theorem pingpong_of_check {c : Config} {e : Engine} (h : pingpongCheck c e = true) : PingpongInv c e := by
  simp only [pingpongCheck, Bool.and_eq_true] at h
  obtain ⟨h1, h2, h3, h4, h5⟩ := of_decide_eq_true h.1.1.1
  exact ⟨h1, h2, desc_of_check h.1.1.2, h3, h4, h5, noRing_of_check h.1.2, noQueue_of_check h.2⟩

def queueCheck (c : Config) (e : Engine) : Bool :=
  decide (queueFill e ≤ c.nbuf ∧ (e.running = true → e.curSilent = false → 1 ≤ queueFill e) ∧ e.rst = rstOf e ∧
    (e.running = false → e.rdCnt = 0 ∧ e.wrCnt = e.pushCnt ∧ e.curSilent = false ∧ e.desc = .armed c)) &&
    descCheck c e.desc && noRingCheck e && noPingpongCheck c e

theorem queue_of_check {c : Config} {e : Engine} (h : queueCheck c e = true) : QueueInv c e := by
  simp only [queueCheck, Bool.and_eq_true] at h
  obtain ⟨h1, h2, h3, h4⟩ := of_decide_eq_true h.1.1.1
  exact ⟨h1, desc_of_check h.1.1.2, h2, h3, h4, noRing_of_check h.1.2, noPingpong_of_check h.2⟩

def shapeCheck (c : Config) (e : Engine) : Bool :=
  match c.shape with
  | .ring => ringCheck c e
  | .pingpong => pingpongCheck c e
  | .nbuf => queueCheck c e

theorem shape_of_check {c : Config} {e : Engine} (h : shapeCheck c e = true) : ShapeInv c e := by
  unfold shapeCheck at h
  unfold ShapeInv
  cases hs : c.shape with
  | ring => rw [hs] at h; exact ring_of_check h
  | pingpong => rw [hs] at h; exact pingpong_of_check h
  | nbuf => rw [hs] at h; exact queue_of_check h

def engineCheck (c : Config) (e : Engine) : Bool :=
  decide ((e.running = true → e.blkState = .ready) ∧ e.irqEn = decide (e.blkState = .ready) ∧ e.irqPend0 = false ∧
    e.irqPend1 = false ∧ (e.running = false → e.pushCnt.toNat < c.preroll) ∧
    (e.running = true → e.pushCnt.toNat = c.preroll)) &&
    pairSpaceCheck e.region (regionSize c) && shapeCheck c e

theorem engine_of_check {c : Config} {e : Engine} (h : engineCheck c e = true) : EngineInv c e := by
  simp only [engineCheck, Bool.and_eq_true] at h
  obtain ⟨h1, h2, h3, h4, h5, h6⟩ := of_decide_eq_true h.1.1
  exact ⟨pairSpace_of_check h.1.2, h1, h2, h3, h4, h5, h6, shape_of_check h.2⟩

def turnCheck (c : Config) : Turn → Bool
  | .host => true
  | .dma => true
  | .sca (.fmCount _) => true
  | .sca (.psgCount _) => true
  | .sca (.fmSample i _) => decide (i < c.cap)
  | .sca (.psgSample i _) => decide (i < c.cap)
  | .env _ => true

theorem turn_of_check {c : Config} {t : Turn} (h : turnCheck c t = true) : t.inRange c := by
  rcases t with _ | _ | w | a
  · trivial
  · trivial
  · cases w
    · trivial
    · trivial
    · simpa [turnCheck, Turn.inRange, ScaWrite.inRange] using h
    · simpa [turnCheck, Turn.inRange, ScaWrite.inRange] using h
  · trivial

/-- The whole check. -/
def goodCheck (s : State) : Bool :=
  legalConfig s.cfg &&
  (decide (s.control.volume.toNat ≤ 128) &&
  (sampleSpaceCheck s.input.fmIn s.cfg.cap &&
  (sampleSpaceCheck s.input.psgIn s.cfg.cap &&
  (mixerCheck s.cfg s.mixer &&
  (engineCheck s.cfg s.engine &&
  (decide (s.engine.blkState ≠ .ready →
    s.mixer = .reset ∧ s.engine = { Engine.reset s.cfg with blkState := s.engine.blkState }) &&
  s.turns.all (turnCheck s.cfg)))))))

/-- A state that passes the check is good. -/
theorem goodState_of_check {s : State} (h : goodCheck s = true) : GoodState s := by
  simp only [goodCheck, Bool.and_eq_true, decide_eq_true_eq] at h
  obtain ⟨h1, h2, h3, h4, h5, h6, h7, h8⟩ := h
  refine ⟨h1, h2, ⟨sampleSpace_of_check h3, sampleSpace_of_check h4⟩, mixer_of_check h5, engine_of_check h6, ?_, ?_⟩
  · intro hne
    exact ⟨(h7 hne).1, (h7 hne).2⟩
  · intro t ht
    exact turn_of_check (List.all_eq_true.1 h8 t ht)

end Sys2Proof.Machine
end

