-- ==== Sys2Proof/Laws/Ops.lean ====
section
/-! SUPPORT. What each shared operation can do, said once: buffer registers, ring positions, fills, range-checked
accesses, outcomes, the interrupt. -/

namespace Sys2Proof.Machine

/-! ### Outcomes -/

@[simp] theorem nextState_next (s : State) : nextState (.next s) = some s := rfl

@[simp] theorem andThen_next (s : State) (f : State → Result) : andThen (.next s) f = f s := rfl
@[simp] theorem andThen_fault (r : Fault) (f : State → Result) : andThen (.fault r) f = .fault r := rfl
@[simp] theorem andThen_refused (r : Refusal) (f : State → Result) : andThen (.refused r) f = .refused r := rfl

/-- If two operations in a row answer a next state, the first did and the second did from there. -/
theorem andThen_eq_next {o : Result} {f : State → Result} {t : State} (h : andThen o f = .next t) :
    ∃ u, o = .next u ∧ f u = .next t := by
  cases o with
  | next u => exact ⟨u, rfl, h⟩
  | fault r => simp at h
  | refused r => simp at h

@[simp] theorem ifLegal_true (s : State) (run : Result) : ifLegal true s run = run := rfl
@[simp] theorem ifLegal_false (s : State) (run : Result) : ifLegal false s run = .next s := rfl
@[simp] theorem unlessHeld_true (s : State) (run : Result) : unlessHeld true s run = .next s := rfl
@[simp] theorem unlessHeld_false (s : State) (run : Result) : unlessHeld false s run = run := rfl

/-- A guarded command either runs or leaves the state. -/
theorem ifLegal_eq_next {b : Bool} {s t : State} {run : Result} (h : ifLegal b s run = .next t) :
    (b = true ∧ run = .next t) ∨ (b = false ∧ t = s) := by
  cases b with
  | true => exact .inl ⟨rfl, h⟩
  | false => exact .inr ⟨rfl, by simpa using h.symm⟩

/-- A command that can be held either runs or leaves the state. -/
theorem unlessHeld_eq_next {b : Bool} {s t : State} {run : Result} (h : unlessHeld b s run = .next t) :
    (b = false ∧ run = .next t) ∨ (b = true ∧ t = s) := by
  cases b with
  | false => exact .inl ⟨rfl, h⟩
  | true => exact .inr ⟨rfl, by simpa using h.symm⟩

/-! ### Range-checked accesses -/

section Access

variable {α : Type} [DecidableEq α] [Inhabited α]

theorem readIn_of_lt {m : Memory α} {size i : Nat} (h : i < size) : readIn m size i = some (m.read i) := if_pos h

theorem readIn_eq_some {m : Memory α} {size i : Nat} {v : α} (h : readIn m size i = some v) :
    i < size ∧ v = m.read i := by
  unfold readIn at h; split at h
  · exact ⟨‹_›, by simpa using h.symm⟩
  · simp at h

theorem writeIn_of_le {m : Memory α} {size i : Nat} {vs : List α} (h : i + vs.length ≤ size) :
    writeIn m size i vs = some (m.writeBlock i vs) := if_pos h

theorem writeIn_eq_some {m m' : Memory α} {size i : Nat} {vs : List α} (h : writeIn m size i vs = some m') :
    i + vs.length ≤ size ∧ m' = m.writeBlock i vs := by
  unfold writeIn at h; split at h
  · exact ⟨‹_›, by simpa using h.symm⟩
  · simp at h

end Access

theorem readBuffer_of_lt {c : Config} {m : Memory Pair} {k j : Nat} (hk : k < bufferCount c) (hj : j < c.bufLen) :
    readBuffer c m k j = some (m.read (bufIndex c k j)) := if_pos ⟨hk, hj⟩

theorem readBuffer_eq_some {c : Config} {m : Memory Pair} {k j : Nat} {v : Pair} (h : readBuffer c m k j = some v) :
    k < bufferCount c ∧ j < c.bufLen ∧ v = m.read (bufIndex c k j) := by
  unfold readBuffer at h; split at h
  · rename_i hkj; exact ⟨hkj.1, hkj.2, by simpa using h.symm⟩
  · simp at h

/-! ### Buffer registers -/

@[simp] theorem otherBuffer_zero : otherBuffer 0 = 1 := rfl
@[simp] theorem otherBuffer_one : otherBuffer 1 = 0 := rfl

theorem fin2_cases (k : Fin 2) : k = 0 ∨ k = 1 := by omega

@[simp] theorem otherBuffer_otherBuffer (k : Fin 2) : otherBuffer (otherBuffer k) = k := by
  rcases fin2_cases k with rfl | rfl <;> rfl

theorem otherBuffer_ne (k : Fin 2) : otherBuffer k ≠ k := by
  rcases fin2_cases k with rfl | rfl <;> decide

theorem eq_or_eq_otherBuffer (k p : Fin 2) : k = p ∨ k = otherBuffer p := by
  rcases fin2_cases k with rfl | rfl <;> rcases fin2_cases p with rfl | rfl <;> simp

theorem bst_setBst (e : Engine) (k j : Fin 2) (v : BufState) : (e.setBst k v).bst j = if j = k then v else e.bst j := by
  rcases fin2_cases k with rfl | rfl <;> rcases fin2_cases j with rfl | rfl <;> simp [Engine.setBst, Engine.bst]

theorem bufDesc_setBufDesc (e : Engine) (k j : Fin 2) (d : Desc) :
    (e.setBufDesc k d).bufDesc j = if j = k then d else e.bufDesc j := by
  rcases fin2_cases k with rfl | rfl <;> rcases fin2_cases j with rfl | rfl <;> simp [Engine.setBufDesc, Engine.bufDesc]

theorem irqPend_setIrqPend (e : Engine) (k j : Fin 2) (b : Bool) :
    (e.setIrqPend k b).irqPend j = if j = k then b else e.irqPend j := by
  rcases fin2_cases k with rfl | rfl <;> rcases fin2_cases j with rfl | rfl <;> simp [Engine.setIrqPend, Engine.irqPend]

@[simp] theorem bst_setBufDesc (e : Engine) (k j : Fin 2) (d : Desc) : (e.setBufDesc k d).bst j = e.bst j := by
  unfold Engine.setBufDesc; split <;> rfl

@[simp] theorem bufDesc_setBst (e : Engine) (k j : Fin 2) (v : BufState) : (e.setBst k v).bufDesc j = e.bufDesc j := by
  unfold Engine.setBst; split <;> rfl

@[simp] theorem bst_setIrqPend (e : Engine) (k j : Fin 2) (b : Bool) : (e.setIrqPend k b).bst j = e.bst j := by
  unfold Engine.setIrqPend; split <;> rfl

@[simp] theorem bufDesc_setIrqPend (e : Engine) (k j : Fin 2) (b : Bool) :
    (e.setIrqPend k b).bufDesc j = e.bufDesc j := by
  unfold Engine.setIrqPend; split <;> rfl

/-- Raising and clearing a pending bit that was clear leaves the engine as it was. -/
theorem setIrqPend_setIrqPend (e : Engine) (k : Fin 2) (a b : Bool) :
    (e.setIrqPend k a).setIrqPend k b = e.setIrqPend k b := by
  unfold Engine.setIrqPend; split <;> rfl

/-! ### Ring positions and fills -/

theorem wrapPos_lt {c : Config} (h : 0 < c.ringSize) (p : Nat) : wrapPos c p < c.ringSize := Nat.mod_lt _ h

theorem wrapPos_of_lt {c : Config} {p : Nat} (h : p < c.ringSize) : wrapPos c p = p := Nat.mod_eq_of_lt h

/-- A position past the end, less than one turn ahead, wraps by one ring size. -/
theorem wrapPos_of_le {c : Config} {p : Nat} (h : c.ringSize ≤ p) (h' : p < 2 * c.ringSize) :
    wrapPos c p = p - c.ringSize := by
  rw [wrapPos, Nat.mod_eq_sub_mod h, Nat.mod_eq_of_lt (by omega)]

theorem wrapPos_add_wrapPos (c : Config) (p d : Nat) : wrapPos c (wrapPos c p + d) = wrapPos c (p + d) := by
  simp [wrapPos, Nat.mod_add_mod]

/-- The fill of the ring in Nat arithmetic. -/
theorem ringFill_eq {c : Config} {e : Engine} (hw : e.wrPos < c.ringSize) (hr : e.rdPos < c.ringSize) :
    ringFill c e = if e.rdPos ≤ e.wrPos then e.wrPos - e.rdPos else e.wrPos + c.ringSize - e.rdPos := by
  unfold ringFill
  split
  · rw [Int.emod_eq_of_lt (by omega) (by omega)]; omega
  · rw [← Int.add_emod_right, Int.emod_eq_of_lt (by omega) (by omega)]; omega

theorem ringFill_lt {c : Config} {e : Engine} (hw : e.wrPos < c.ringSize) (hr : e.rdPos < c.ringSize) :
    ringFill c e < c.ringSize := by
  rw [ringFill_eq hw hr]; split <;> omega

/-- `n` elements appended raise the fill by `n` while they fit. -/
theorem ringFill_append {c : Config} {e : Engine} {n : Nat} {m : Memory Pair} (hw : e.wrPos < c.ringSize)
    (hr : e.rdPos < c.ringSize) (hn : ringFill c e + n < c.ringSize) :
    ringFill c { e with region := m, wrPos := wrapPos c (e.wrPos + n) } = ringFill c e + n := by
  have h0 : 0 < c.ringSize := by omega
  have key := ringFill_eq (e := { e with region := m, wrPos := wrapPos c (e.wrPos + n) }) (wrapPos_lt h0 _) hr
  dsimp only at key
  rw [key]
  rw [ringFill_eq hw hr] at hn ⊢
  by_cases h : e.wrPos + n < c.ringSize
  · rw [wrapPos_of_lt h]; split at hn <;> split <;> omega
  · rw [wrapPos_of_le (by omega) (by split at hn <;> omega)]; split at hn <;> split <;> omega

/-- One element read lowers a fill that is not 0 by one. -/
theorem ringFill_read {c : Config} {e : Engine} (hw : e.wrPos < c.ringSize) (hr : e.rdPos < c.ringSize)
    (hf : ringFill c e ≠ 0) :
    ringFill c { e with rdPos := wrapPos c (e.rdPos + 1) } = ringFill c e - 1 := by
  have h0 : 0 < c.ringSize := by omega
  have key := ringFill_eq (e := { e with rdPos := wrapPos c (e.rdPos + 1) }) hw (wrapPos_lt h0 _)
  dsimp only at key
  rw [key]
  rw [ringFill_eq hw hr] at hf ⊢
  by_cases h : e.rdPos + 1 < c.ringSize
  · rw [wrapPos_of_lt h]; split at hf <;> split <;> omega
  · rw [wrapPos_of_le (by omega) (by omega)]; split at hf <;> split <;> omega

/-- An element written to the ring: element `j` of `vs` at `(p + j) mod RING_SIZE`, every other element as before
(R135). -/
theorem read_writeRing {c : Config} (m : Memory Pair) (p i : Nat) (vs : List Pair) (h0 : 0 < c.ringSize)
    (hlen : vs.length ≤ c.ringSize) :
    (writeRing c m p vs).read i =
      if i < c.ringSize ∧ wrapPos c (i + c.ringSize - wrapPos c p) < vs.length then
        vs.getD (wrapPos c (i + c.ringSize - wrapPos c p)) .silent
      else m.read i := by
  have hp := wrapPos_lt h0 p
  generalize hq : wrapPos c p = q at hp ⊢
  unfold writeRing
  rw [hq, Memory.read_writeBlock, Memory.read_writeBlock]
  simp only [List.length_drop, List.length_take, Nat.zero_le, true_and, Nat.zero_add, Nat.sub_zero, default_pair]
  rcases lt_or_ge i q with hi | hi
  · rw [wrapPos_of_lt (p := i + c.ringSize - q) (by omega)]
    by_cases h : i < vs.length - (c.ringSize - q)
    · rw [if_pos h, if_pos (by omega), List.getD_eq_getElem?_getD, List.getD_eq_getElem?_getD, List.getElem?_drop]
      congr 3; omega
    · rw [if_neg h, if_neg (by omega), if_neg (by omega)]
  · rw [if_neg (by omega)]
    by_cases hs : i < c.ringSize
    · rw [wrapPos_of_le (p := i + c.ringSize - q) (by omega) (by omega)]
      have e : i + c.ringSize - q - c.ringSize = i - q := by omega
      rw [e]
      by_cases h : i - q < vs.length
      · rw [if_pos (by omega), if_pos (by omega), List.getD_eq_getElem?_getD, List.getD_eq_getElem?_getD,
          List.getElem?_take_of_lt (by omega)]
      · rw [if_neg (by omega), if_neg (by omega)]
    · rw [if_neg (by omega), if_neg (by omega)]

theorem wf_writeRing {c : Config} {m : Memory Pair} (h : m.wf = true) (p : Nat) (vs : List Pair) :
    (writeRing c m p vs).wf = true :=
  Memory.wf_writeBlock (Memory.wf_writeBlock h _ _) _ _

theorem within_writeRing {c : Config} {m : Memory Pair} (h : m.within c.ringSize = true) (h0 : 0 < c.ringSize) (p : Nat)
    {vs : List Pair} (hlen : vs.length ≤ c.ringSize) : (writeRing c m p vs).within c.ringSize = true := by
  have := wrapPos_lt h0 p
  refine Memory.within_writeBlock (Memory.within_writeBlock h ?_) ?_
  · simp only [List.length_take]; omega
  · simp only [List.length_drop]; omega

theorem queueFill_lt (e : Engine) : queueFill e < 4294967296 := by
  have := (e.wrCnt - e.rdCnt).isLt
  simpa [queueFill] using this

@[simp] theorem length_silence (n : Nat) : (silence n).length = n := by simp [silence]

theorem getD_silence (n i : Nat) : (silence n).getD i .silent = .silent := by
  simp only [silence, List.getD_eq_getElem?_getD, List.getElem?_replicate]; split <;> rfl

theorem bufIndex_inj {c : Config} {k j k' j' : Nat} (hj : j < c.bufLen) (hj' : j' < c.bufLen)
    (h : bufIndex c k j = bufIndex c k' j') : k = k' ∧ j = j' := by
  unfold bufIndex at h
  have hk : k = k' := by
    rcases lt_trichotomy k k' with hlt | rfl | hlt
    · have := Nat.mul_le_mul_right c.bufLen (Nat.succ_le_of_lt hlt); rw [Nat.succ_mul] at this; omega
    · rfl
    · have := Nat.mul_le_mul_right c.bufLen (Nat.succ_le_of_lt hlt); rw [Nat.succ_mul] at this; omega
  subst hk
  exact ⟨rfl, by omega⟩

/-- Every element of a buffer of the shape is an element of the region. -/
theorem bufIndex_lt {c : Config} {count k j : Nat} (hk : k < count) (hj : j < c.bufLen) :
    bufIndex c k j < count * c.bufLen := by
  unfold bufIndex
  have := Nat.mul_le_mul_right c.bufLen (Nat.succ_le_of_lt hk)
  rw [Nat.succ_mul] at this; omega

/-! ### Events -/

/-- Count validation answers the count where it is in `0..CAP`, else 0; either way it is at most `CAP`. -/
theorem validCount_le (c : Config) (count : Word32) : validCount c count ≤ c.cap := by
  unfold validCount; split
  · omega
  · omega

/-- The interrupt, if it is taken: `IRQ_EN` was 1, and the next state is the service's with the request cleared. -/
theorem takeInterrupt_eq_next {k : Fin 2} {service : State → State} {s t : State}
    (h : takeInterrupt k service s = .next t) :
    s.engine.irqEn = true ∧
      t = (let u := service (countIrq { s with engine := s.engine.setIrqPend k true })
           { u with engine := u.engine.setIrqPend k false }) := by
  unfold takeInterrupt at h
  split at h
  · exact ⟨‹_›, by simpa using h.symm⟩
  · simp at h

theorem takeInterrupt_enabled {k : Fin 2} {service : State → State} {s : State} (h : s.engine.irqEn = true) :
    takeInterrupt k service s =
      .next (let u := service (countIrq { s with engine := s.engine.setIrqPend k true })
             { u with engine := u.engine.setIrqPend k false }) := by
  unfold takeInterrupt; rw [if_pos h]

end Sys2Proof.Machine
end

