-- ==== Sys2Proof/Laws/Legal.lean ====
section
/-! SUPPORT. The constraints of 00_scope.md R10 that a legal configuration gives, one lemma each. -/

namespace Sys2Proof.Machine

variable {c : Config}

theorem legal_common (h : Legal c) :
    1 ≤ c.n ∧ c.n ≤ c.cap ∧ 1 ≤ c.shiftNormal ∧ c.shiftNormal < c.shiftClick ∧ c.shiftClick ≤ 15 ∧
      c.clickThreshold ≤ 65535 ∧ c.f ≤ c.n ∧ c.limT ≤ 32767 ∧ c.limShift ≤ 15 ∧ 1 ≤ c.fadeShift ∧
      c.fadeShift ≤ 15 ∧ c.startupFrames < 4294967296 ∧ 1 ≤ c.preroll ∧ c.preroll < 4294967296 := by
  have h : legalConfig c = true := h
  rw [legalConfig, Bool.and_eq_true] at h
  exact of_decide_eq_true h.1

theorem legal_shape (h : Legal c) : shapeLegal c = true := by
  have h : legalConfig c = true := h
  rw [legalConfig, Bool.and_eq_true] at h
  exact h.2

theorem legal_n_pos (h : Legal c) : 1 ≤ c.n := (legal_common h).1
theorem legal_n_le_cap (h : Legal c) : c.n ≤ c.cap := (legal_common h).2.1
theorem legal_startup (h : Legal c) : c.startupFrames < 4294967296 := (legal_common h).2.2.2.2.2.2.2.2.2.2.2.1
theorem legal_preroll_pos (h : Legal c) : 1 ≤ c.preroll := (legal_common h).2.2.2.2.2.2.2.2.2.2.2.2.1
theorem legal_preroll_lt (h : Legal c) : c.preroll < 4294967296 := (legal_common h).2.2.2.2.2.2.2.2.2.2.2.2.2

theorem isPowerOfTwo_iff (n : Nat) : isPowerOfTwo n = true ↔ ∃ k, n = 2 ^ k := by
  simp only [isPowerOfTwo, decide_eq_true_eq]
  constructor
  · intro h; exact ⟨_, h.symm⟩
  · rintro ⟨k, rfl⟩; rw [Nat.log2_two_pow]

theorem legal_ring (h : Legal c) (hs : c.shape = .ring) :
    (∃ k, c.ringSize = 2 ^ k) ∧ c.n ≤ c.minHeadroom ∧ c.minHeadroom < c.ringSize ∧
      c.preroll * c.n ≤ c.ringSize - c.minHeadroom := by
  have := legal_shape h
  simp only [shapeLegal, hs, Bool.and_eq_true, decide_eq_true_eq] at this
  exact ⟨(isPowerOfTwo_iff _).1 this.1, this.2⟩

theorem legal_pingpong (h : Legal c) (hs : c.shape = .pingpong) : c.bufLen = c.n ∧ c.preroll ≤ 2 := by
  have := legal_shape h
  simpa only [shapeLegal, hs, decide_eq_true_eq] using this

theorem legal_nbuf (h : Legal c) (hs : c.shape = .nbuf) :
    (∃ k, c.nbuf = 2 ^ k) ∧ c.bufLen = c.n ∧ 2 ≤ c.nbuf ∧ c.nbuf < 4294967296 ∧ c.preroll ≤ c.nbuf := by
  have := legal_shape h
  simp only [shapeLegal, hs, Bool.and_eq_true, decide_eq_true_eq] at this
  exact ⟨(isPowerOfTwo_iff _).1 this.1, this.2⟩

/-- One frame always fits under the ring's headroom bound, since the pre-roll holds at least one frame. -/
theorem legal_ring_frame (h : Legal c) (hs : c.shape = .ring) : c.n ≤ c.ringSize - c.minHeadroom := by
  have hp := legal_preroll_pos h
  have := (legal_ring h hs).2.2.2
  calc c.n = 1 * c.n := (Nat.one_mul _).symm
    _ ≤ c.preroll * c.n := Nat.mul_le_mul_right _ hp
    _ ≤ _ := this

end Sys2Proof.Machine
end

