-- ==== Sys2Proof/Laws/State.lean ====
section
/-! SUPPORT. One lemma per field per named update of the state, true by unfolding, so that no later proof unfolds a record
update. -/

namespace Sys2Proof.Machine

/-! ### `countCommand` -/

@[simp] theorem countCommand_cfg (s : State) : (countCommand s).cfg = s.cfg := rfl
@[simp] theorem countCommand_control (s : State) : (countCommand s).control = s.control := rfl
@[simp] theorem countCommand_input (s : State) : (countCommand s).input = s.input := rfl
@[simp] theorem countCommand_mixer (s : State) : (countCommand s).mixer = s.mixer := rfl
@[simp] theorem countCommand_engine (s : State) : (countCommand s).engine = s.engine := rfl
@[simp] theorem countCommand_stats (s : State) : (countCommand s).stats = { s.stats with commandsProcessed := satInc32 s.stats.commandsProcessed } := rfl
@[simp] theorem countCommand_outStream (s : State) : (countCommand s).outStream = s.outStream := rfl
@[simp] theorem countCommand_respStream (s : State) : (countCommand s).respStream = s.respStream := rfl
@[simp] theorem countCommand_port (s : State) : (countCommand s).port = s.port := rfl
@[simp] theorem countCommand_hwAvailable (s : State) : (countCommand s).hwAvailable = s.hwAvailable := rfl
@[simp] theorem countCommand_turns (s : State) : (countCommand s).turns = s.turns := rfl
@[simp] theorem countCommand_scaInbox (s : State) : (countCommand s).scaInbox = s.scaInbox := rfl

/-! ### `countFilled` -/

@[simp] theorem countFilled_cfg (s : State) : (countFilled s).cfg = s.cfg := rfl
@[simp] theorem countFilled_control (s : State) : (countFilled s).control = s.control := rfl
@[simp] theorem countFilled_input (s : State) : (countFilled s).input = s.input := rfl
@[simp] theorem countFilled_mixer (s : State) : (countFilled s).mixer = s.mixer := rfl
@[simp] theorem countFilled_engine (s : State) : (countFilled s).engine = s.engine := rfl
@[simp] theorem countFilled_stats (s : State) : (countFilled s).stats = { s.stats with buffersFilled := satInc32 s.stats.buffersFilled } := rfl
@[simp] theorem countFilled_outStream (s : State) : (countFilled s).outStream = s.outStream := rfl
@[simp] theorem countFilled_respStream (s : State) : (countFilled s).respStream = s.respStream := rfl
@[simp] theorem countFilled_port (s : State) : (countFilled s).port = s.port := rfl
@[simp] theorem countFilled_hwAvailable (s : State) : (countFilled s).hwAvailable = s.hwAvailable := rfl
@[simp] theorem countFilled_turns (s : State) : (countFilled s).turns = s.turns := rfl
@[simp] theorem countFilled_scaInbox (s : State) : (countFilled s).scaInbox = s.scaInbox := rfl

/-! ### `countUnderrun` -/

@[simp] theorem countUnderrun_cfg (s : State) : (countUnderrun s).cfg = s.cfg := rfl
@[simp] theorem countUnderrun_control (s : State) : (countUnderrun s).control = s.control := rfl
@[simp] theorem countUnderrun_input (s : State) : (countUnderrun s).input = s.input := rfl
@[simp] theorem countUnderrun_mixer (s : State) : (countUnderrun s).mixer = s.mixer := rfl
@[simp] theorem countUnderrun_engine (s : State) : (countUnderrun s).engine = s.engine := rfl
@[simp] theorem countUnderrun_stats (s : State) : (countUnderrun s).stats = { s.stats with underruns := satInc32 s.stats.underruns } := rfl
@[simp] theorem countUnderrun_outStream (s : State) : (countUnderrun s).outStream = s.outStream := rfl
@[simp] theorem countUnderrun_respStream (s : State) : (countUnderrun s).respStream = s.respStream := rfl
@[simp] theorem countUnderrun_port (s : State) : (countUnderrun s).port = s.port := rfl
@[simp] theorem countUnderrun_hwAvailable (s : State) : (countUnderrun s).hwAvailable = s.hwAvailable := rfl
@[simp] theorem countUnderrun_turns (s : State) : (countUnderrun s).turns = s.turns := rfl
@[simp] theorem countUnderrun_scaInbox (s : State) : (countUnderrun s).scaInbox = s.scaInbox := rfl

/-! ### `countIrq` -/

@[simp] theorem countIrq_cfg (s : State) : (countIrq s).cfg = s.cfg := rfl
@[simp] theorem countIrq_control (s : State) : (countIrq s).control = s.control := rfl
@[simp] theorem countIrq_input (s : State) : (countIrq s).input = s.input := rfl
@[simp] theorem countIrq_mixer (s : State) : (countIrq s).mixer = s.mixer := rfl
@[simp] theorem countIrq_engine (s : State) : (countIrq s).engine = s.engine := rfl
@[simp] theorem countIrq_stats (s : State) : (countIrq s).stats = { s.stats with irqCount := satInc32 s.stats.irqCount } := rfl
@[simp] theorem countIrq_outStream (s : State) : (countIrq s).outStream = s.outStream := rfl
@[simp] theorem countIrq_respStream (s : State) : (countIrq s).respStream = s.respStream := rfl
@[simp] theorem countIrq_port (s : State) : (countIrq s).port = s.port := rfl
@[simp] theorem countIrq_hwAvailable (s : State) : (countIrq s).hwAvailable = s.hwAvailable := rfl
@[simp] theorem countIrq_turns (s : State) : (countIrq s).turns = s.turns := rfl
@[simp] theorem countIrq_scaInbox (s : State) : (countIrq s).scaInbox = s.scaInbox := rfl

/-! ### `emit` -/

@[simp] theorem emit_cfg (p : Pair) (s : State) : (emit p s).cfg = s.cfg := rfl
@[simp] theorem emit_control (p : Pair) (s : State) : (emit p s).control = s.control := rfl
@[simp] theorem emit_input (p : Pair) (s : State) : (emit p s).input = s.input := rfl
@[simp] theorem emit_mixer (p : Pair) (s : State) : (emit p s).mixer = s.mixer := rfl
@[simp] theorem emit_engine (p : Pair) (s : State) : (emit p s).engine = s.engine := rfl
@[simp] theorem emit_stats (p : Pair) (s : State) : (emit p s).stats = { s.stats with samplesEmitted := satInc32 s.stats.samplesEmitted } := rfl
@[simp] theorem emit_outStream (p : Pair) (s : State) : (emit p s).outStream = s.outStream ++ [p] := rfl
@[simp] theorem emit_respStream (p : Pair) (s : State) : (emit p s).respStream = s.respStream := rfl
@[simp] theorem emit_port (p : Pair) (s : State) : (emit p s).port = s.port := rfl
@[simp] theorem emit_hwAvailable (p : Pair) (s : State) : (emit p s).hwAvailable = s.hwAvailable := rfl
@[simp] theorem emit_turns (p : Pair) (s : State) : (emit p s).turns = s.turns := rfl
@[simp] theorem emit_scaInbox (p : Pair) (s : State) : (emit p s).scaInbox = s.scaInbox := rfl

/-! ### `respond` -/

@[simp] theorem respond_cfg (w : Word32) (s : State) : (respond w s).cfg = s.cfg := rfl
@[simp] theorem respond_control (w : Word32) (s : State) : (respond w s).control = s.control := rfl
@[simp] theorem respond_input (w : Word32) (s : State) : (respond w s).input = s.input := rfl
@[simp] theorem respond_mixer (w : Word32) (s : State) : (respond w s).mixer = s.mixer := rfl
@[simp] theorem respond_engine (w : Word32) (s : State) : (respond w s).engine = s.engine := rfl
@[simp] theorem respond_stats (w : Word32) (s : State) : (respond w s).stats = s.stats := rfl
@[simp] theorem respond_outStream (w : Word32) (s : State) : (respond w s).outStream = s.outStream := rfl
@[simp] theorem respond_respStream (w : Word32) (s : State) : (respond w s).respStream = s.respStream ++ [w] := rfl
@[simp] theorem respond_port (w : Word32) (s : State) : (respond w s).port = s.port := rfl
@[simp] theorem respond_hwAvailable (w : Word32) (s : State) : (respond w s).hwAvailable = s.hwAvailable := rfl
@[simp] theorem respond_turns (w : Word32) (s : State) : (respond w s).turns = s.turns := rfl
@[simp] theorem respond_scaInbox (w : Word32) (s : State) : (respond w s).scaInbox = s.scaInbox := rfl

/-! ### `raiseUnderrun` -/

@[simp] theorem raiseUnderrun_cfg (f : Engine → Engine) (s : State) : (raiseUnderrun f s).cfg = s.cfg := rfl
@[simp] theorem raiseUnderrun_control (f : Engine → Engine) (s : State) : (raiseUnderrun f s).control = s.control := rfl
@[simp] theorem raiseUnderrun_input (f : Engine → Engine) (s : State) : (raiseUnderrun f s).input = s.input := rfl
@[simp] theorem raiseUnderrun_mixer (f : Engine → Engine) (s : State) : (raiseUnderrun f s).mixer = s.mixer := rfl
@[simp] theorem raiseUnderrun_engine (f : Engine → Engine) (s : State) : (raiseUnderrun f s).engine = f s.engine := rfl
@[simp] theorem raiseUnderrun_stats (f : Engine → Engine) (s : State) : (raiseUnderrun f s).stats = { s.stats with underruns := satInc32 s.stats.underruns } := rfl
@[simp] theorem raiseUnderrun_outStream (f : Engine → Engine) (s : State) : (raiseUnderrun f s).outStream = s.outStream := rfl
@[simp] theorem raiseUnderrun_respStream (f : Engine → Engine) (s : State) : (raiseUnderrun f s).respStream = s.respStream := rfl
@[simp] theorem raiseUnderrun_port (f : Engine → Engine) (s : State) : (raiseUnderrun f s).port = s.port := rfl
@[simp] theorem raiseUnderrun_hwAvailable (f : Engine → Engine) (s : State) : (raiseUnderrun f s).hwAvailable = s.hwAvailable := rfl
@[simp] theorem raiseUnderrun_turns (f : Engine → Engine) (s : State) : (raiseUnderrun f s).turns = s.turns := rfl
@[simp] theorem raiseUnderrun_scaInbox (f : Engine → Engine) (s : State) : (raiseUnderrun f s).scaInbox = s.scaInbox := rfl

/-! ### `consume` -/

@[simp] theorem consume_cfg (r : Record) (rest : List Record) (b : Bool) (s : State) : (consume r rest b s).cfg = s.cfg := rfl
@[simp] theorem consume_control (r : Record) (rest : List Record) (b : Bool) (s : State) : (consume r rest b s).control = s.control := rfl
@[simp] theorem consume_input (r : Record) (rest : List Record) (b : Bool) (s : State) : (consume r rest b s).input = s.input := rfl
@[simp] theorem consume_mixer (r : Record) (rest : List Record) (b : Bool) (s : State) : (consume r rest b s).mixer = s.mixer := rfl
@[simp] theorem consume_engine (r : Record) (rest : List Record) (b : Bool) (s : State) : (consume r rest b s).engine = s.engine := rfl
@[simp] theorem consume_stats (r : Record) (rest : List Record) (b : Bool) (s : State) : (consume r rest b s).stats = s.stats := rfl
@[simp] theorem consume_outStream (r : Record) (rest : List Record) (b : Bool) (s : State) : (consume r rest b s).outStream = s.outStream := rfl
@[simp] theorem consume_respStream (r : Record) (rest : List Record) (b : Bool) (s : State) : (consume r rest b s).respStream = s.respStream := rfl
@[simp] theorem consume_port (r : Record) (rest : List Record) (b : Bool) (s : State) : (consume r rest b s).port = rest := rfl
@[simp] theorem consume_hwAvailable (r : Record) (rest : List Record) (b : Bool) (s : State) : (consume r rest b s).hwAvailable = s.hwAvailable := rfl
@[simp] theorem consume_turns (r : Record) (rest : List Record) (b : Bool) (s : State) : (consume r rest b s).turns = s.turns := rfl
@[simp] theorem consume_scaInbox (r : Record) (rest : List Record) (b : Bool) (s : State) : (consume r rest b s).scaInbox = if b then s.scaInbox ++ [r] else s.scaInbox := rfl

/-! ### `zeroEngineAndMixer` -/

@[simp] theorem zeroEngineAndMixer_cfg (s : State) : (zeroEngineAndMixer s).cfg = s.cfg := rfl
@[simp] theorem zeroEngineAndMixer_control (s : State) : (zeroEngineAndMixer s).control = s.control := rfl
@[simp] theorem zeroEngineAndMixer_input (s : State) : (zeroEngineAndMixer s).input = s.input := rfl
@[simp] theorem zeroEngineAndMixer_mixer (s : State) : (zeroEngineAndMixer s).mixer = .reset := rfl
@[simp] theorem zeroEngineAndMixer_engine (s : State) : (zeroEngineAndMixer s).engine = { Engine.reset s.cfg with blkState := s.engine.blkState, irqEn := s.engine.irqEn } := rfl
@[simp] theorem zeroEngineAndMixer_stats (s : State) : (zeroEngineAndMixer s).stats = s.stats := rfl
@[simp] theorem zeroEngineAndMixer_outStream (s : State) : (zeroEngineAndMixer s).outStream = s.outStream := rfl
@[simp] theorem zeroEngineAndMixer_respStream (s : State) : (zeroEngineAndMixer s).respStream = s.respStream := rfl
@[simp] theorem zeroEngineAndMixer_port (s : State) : (zeroEngineAndMixer s).port = s.port := rfl
@[simp] theorem zeroEngineAndMixer_hwAvailable (s : State) : (zeroEngineAndMixer s).hwAvailable = s.hwAvailable := rfl
@[simp] theorem zeroEngineAndMixer_turns (s : State) : (zeroEngineAndMixer s).turns = s.turns := rfl
@[simp] theorem zeroEngineAndMixer_scaInbox (s : State) : (zeroEngineAndMixer s).scaInbox = s.scaInbox := rfl

/-! ### `tearDown` -/

@[simp] theorem tearDown_cfg (s : State) : (tearDown s).cfg = s.cfg := rfl
@[simp] theorem tearDown_control (s : State) : (tearDown s).control = s.control := rfl
@[simp] theorem tearDown_input (s : State) : (tearDown s).input = s.input := rfl
@[simp] theorem tearDown_mixer (s : State) : (tearDown s).mixer = .reset := rfl
@[simp] theorem tearDown_engine (s : State) : (tearDown s).engine = .reset s.cfg := rfl
@[simp] theorem tearDown_stats (s : State) : (tearDown s).stats = s.stats := rfl
@[simp] theorem tearDown_outStream (s : State) : (tearDown s).outStream = s.outStream := rfl
@[simp] theorem tearDown_respStream (s : State) : (tearDown s).respStream = s.respStream := rfl
@[simp] theorem tearDown_port (s : State) : (tearDown s).port = s.port := rfl
@[simp] theorem tearDown_hwAvailable (s : State) : (tearDown s).hwAvailable = s.hwAvailable := rfl
@[simp] theorem tearDown_turns (s : State) : (tearDown s).turns = s.turns := rfl
@[simp] theorem tearDown_scaInbox (s : State) : (tearDown s).scaInbox = s.scaInbox := rfl

/-! ### `rearm` -/

@[simp] theorem rearm_cfg (p : Fin 2) (s : State) : (rearm p s).cfg = s.cfg := rfl
@[simp] theorem rearm_control (p : Fin 2) (s : State) : (rearm p s).control = s.control := rfl
@[simp] theorem rearm_input (p : Fin 2) (s : State) : (rearm p s).input = s.input := rfl
@[simp] theorem rearm_mixer (p : Fin 2) (s : State) : (rearm p s).mixer = s.mixer := rfl
@[simp] theorem rearm_engine (p : Fin 2) (s : State) : (rearm p s).engine = (s.engine.setBufDesc p (.armed s.cfg)).setBst p .refilling := rfl
@[simp] theorem rearm_stats (p : Fin 2) (s : State) : (rearm p s).stats = s.stats := rfl
@[simp] theorem rearm_outStream (p : Fin 2) (s : State) : (rearm p s).outStream = s.outStream := rfl
@[simp] theorem rearm_respStream (p : Fin 2) (s : State) : (rearm p s).respStream = s.respStream := rfl
@[simp] theorem rearm_port (p : Fin 2) (s : State) : (rearm p s).port = s.port := rfl
@[simp] theorem rearm_hwAvailable (p : Fin 2) (s : State) : (rearm p s).hwAvailable = s.hwAvailable := rfl
@[simp] theorem rearm_turns (p : Fin 2) (s : State) : (rearm p s).turns = s.turns := rfl
@[simp] theorem rearm_scaInbox (p : Fin 2) (s : State) : (rearm p s).scaInbox = s.scaInbox := rfl

/-! ### `chainTo` -/

@[simp] theorem chainTo_cfg (q : Fin 2) (s : State) : (chainTo q s).cfg = s.cfg := rfl
@[simp] theorem chainTo_control (q : Fin 2) (s : State) : (chainTo q s).control = s.control := rfl
@[simp] theorem chainTo_input (q : Fin 2) (s : State) : (chainTo q s).input = s.input := rfl
@[simp] theorem chainTo_mixer (q : Fin 2) (s : State) : (chainTo q s).mixer = s.mixer := rfl
@[simp] theorem chainTo_engine (q : Fin 2) (s : State) : (chainTo q s).engine = { s.engine.setBst q .playing with playing := q } := rfl
@[simp] theorem chainTo_stats (q : Fin 2) (s : State) : (chainTo q s).stats = s.stats := rfl
@[simp] theorem chainTo_outStream (q : Fin 2) (s : State) : (chainTo q s).outStream = s.outStream := rfl
@[simp] theorem chainTo_respStream (q : Fin 2) (s : State) : (chainTo q s).respStream = s.respStream := rfl
@[simp] theorem chainTo_port (q : Fin 2) (s : State) : (chainTo q s).port = s.port := rfl
@[simp] theorem chainTo_hwAvailable (q : Fin 2) (s : State) : (chainTo q s).hwAvailable = s.hwAvailable := rfl
@[simp] theorem chainTo_turns (q : Fin 2) (s : State) : (chainTo q s).turns = s.turns := rfl
@[simp] theorem chainTo_scaInbox (q : Fin 2) (s : State) : (chainTo q s).scaInbox = s.scaInbox := rfl

/-! ### `retireBuffer` -/

@[simp] theorem retireBuffer_cfg (s : State) : (retireBuffer s).cfg = s.cfg := rfl
@[simp] theorem retireBuffer_control (s : State) : (retireBuffer s).control = s.control := rfl
@[simp] theorem retireBuffer_input (s : State) : (retireBuffer s).input = s.input := rfl
@[simp] theorem retireBuffer_mixer (s : State) : (retireBuffer s).mixer = s.mixer := rfl
@[simp] theorem retireBuffer_engine (s : State) : (retireBuffer s).engine = { s.engine with
      rdCnt := if s.engine.curSilent then s.engine.rdCnt else s.engine.rdCnt + 1
      desc := .armed s.cfg } := rfl
@[simp] theorem retireBuffer_stats (s : State) : (retireBuffer s).stats = s.stats := rfl
@[simp] theorem retireBuffer_outStream (s : State) : (retireBuffer s).outStream = s.outStream := rfl
@[simp] theorem retireBuffer_respStream (s : State) : (retireBuffer s).respStream = s.respStream := rfl
@[simp] theorem retireBuffer_port (s : State) : (retireBuffer s).port = s.port := rfl
@[simp] theorem retireBuffer_hwAvailable (s : State) : (retireBuffer s).hwAvailable = s.hwAvailable := rfl
@[simp] theorem retireBuffer_turns (s : State) : (retireBuffer s).turns = s.turns := rfl
@[simp] theorem retireBuffer_scaInbox (s : State) : (retireBuffer s).scaInbox = s.scaInbox := rfl

/-! ### `Engine.setBst` -/

@[simp] theorem Engine.setBst_blkState (e : Engine) (k : Fin 2) (v : BufState) : (e.setBst k v).blkState = e.blkState := by
  unfold Engine.setBst; split <;> rfl
@[simp] theorem Engine.setBst_running (e : Engine) (k : Fin 2) (v : BufState) : (e.setBst k v).running = e.running := by
  unfold Engine.setBst; split <;> rfl
@[simp] theorem Engine.setBst_pushCnt (e : Engine) (k : Fin 2) (v : BufState) : (e.setBst k v).pushCnt = e.pushCnt := by
  unfold Engine.setBst; split <;> rfl
@[simp] theorem Engine.setBst_irqEn (e : Engine) (k : Fin 2) (v : BufState) : (e.setBst k v).irqEn = e.irqEn := by
  unfold Engine.setBst; split <;> rfl
@[simp] theorem Engine.setBst_irqPend0 (e : Engine) (k : Fin 2) (v : BufState) : (e.setBst k v).irqPend0 = e.irqPend0 := by
  unfold Engine.setBst; split <;> rfl
@[simp] theorem Engine.setBst_irqPend1 (e : Engine) (k : Fin 2) (v : BufState) : (e.setBst k v).irqPend1 = e.irqPend1 := by
  unfold Engine.setBst; split <;> rfl
@[simp] theorem Engine.setBst_region (e : Engine) (k : Fin 2) (v : BufState) : (e.setBst k v).region = e.region := by
  unfold Engine.setBst; split <;> rfl
@[simp] theorem Engine.setBst_wrPos (e : Engine) (k : Fin 2) (v : BufState) : (e.setBst k v).wrPos = e.wrPos := by
  unfold Engine.setBst; split <;> rfl
@[simp] theorem Engine.setBst_rdPos (e : Engine) (k : Fin 2) (v : BufState) : (e.setBst k v).rdPos = e.rdPos := by
  unfold Engine.setBst; split <;> rfl
@[simp] theorem Engine.setBst_rst (e : Engine) (k : Fin 2) (v : BufState) : (e.setBst k v).rst = e.rst := by
  unfold Engine.setBst; split <;> rfl
@[simp] theorem Engine.setBst_playing (e : Engine) (k : Fin 2) (v : BufState) : (e.setBst k v).playing = e.playing := by
  unfold Engine.setBst; split <;> rfl
@[simp] theorem Engine.setBst_desc0 (e : Engine) (k : Fin 2) (v : BufState) : (e.setBst k v).desc0 = e.desc0 := by
  unfold Engine.setBst; split <;> rfl
@[simp] theorem Engine.setBst_desc1 (e : Engine) (k : Fin 2) (v : BufState) : (e.setBst k v).desc1 = e.desc1 := by
  unfold Engine.setBst; split <;> rfl
@[simp] theorem Engine.setBst_wrCnt (e : Engine) (k : Fin 2) (v : BufState) : (e.setBst k v).wrCnt = e.wrCnt := by
  unfold Engine.setBst; split <;> rfl
@[simp] theorem Engine.setBst_rdCnt (e : Engine) (k : Fin 2) (v : BufState) : (e.setBst k v).rdCnt = e.rdCnt := by
  unfold Engine.setBst; split <;> rfl
@[simp] theorem Engine.setBst_curSilent (e : Engine) (k : Fin 2) (v : BufState) : (e.setBst k v).curSilent = e.curSilent := by
  unfold Engine.setBst; split <;> rfl
@[simp] theorem Engine.setBst_desc (e : Engine) (k : Fin 2) (v : BufState) : (e.setBst k v).desc = e.desc := by
  unfold Engine.setBst; split <;> rfl

/-! ### `Engine.setBufDesc` -/

@[simp] theorem Engine.setBufDesc_blkState (e : Engine) (k : Fin 2) (v : Desc) : (e.setBufDesc k v).blkState = e.blkState := by
  unfold Engine.setBufDesc; split <;> rfl
@[simp] theorem Engine.setBufDesc_running (e : Engine) (k : Fin 2) (v : Desc) : (e.setBufDesc k v).running = e.running := by
  unfold Engine.setBufDesc; split <;> rfl
@[simp] theorem Engine.setBufDesc_pushCnt (e : Engine) (k : Fin 2) (v : Desc) : (e.setBufDesc k v).pushCnt = e.pushCnt := by
  unfold Engine.setBufDesc; split <;> rfl
@[simp] theorem Engine.setBufDesc_irqEn (e : Engine) (k : Fin 2) (v : Desc) : (e.setBufDesc k v).irqEn = e.irqEn := by
  unfold Engine.setBufDesc; split <;> rfl
@[simp] theorem Engine.setBufDesc_irqPend0 (e : Engine) (k : Fin 2) (v : Desc) : (e.setBufDesc k v).irqPend0 = e.irqPend0 := by
  unfold Engine.setBufDesc; split <;> rfl
@[simp] theorem Engine.setBufDesc_irqPend1 (e : Engine) (k : Fin 2) (v : Desc) : (e.setBufDesc k v).irqPend1 = e.irqPend1 := by
  unfold Engine.setBufDesc; split <;> rfl
@[simp] theorem Engine.setBufDesc_region (e : Engine) (k : Fin 2) (v : Desc) : (e.setBufDesc k v).region = e.region := by
  unfold Engine.setBufDesc; split <;> rfl
@[simp] theorem Engine.setBufDesc_wrPos (e : Engine) (k : Fin 2) (v : Desc) : (e.setBufDesc k v).wrPos = e.wrPos := by
  unfold Engine.setBufDesc; split <;> rfl
@[simp] theorem Engine.setBufDesc_rdPos (e : Engine) (k : Fin 2) (v : Desc) : (e.setBufDesc k v).rdPos = e.rdPos := by
  unfold Engine.setBufDesc; split <;> rfl
@[simp] theorem Engine.setBufDesc_rst (e : Engine) (k : Fin 2) (v : Desc) : (e.setBufDesc k v).rst = e.rst := by
  unfold Engine.setBufDesc; split <;> rfl
@[simp] theorem Engine.setBufDesc_playing (e : Engine) (k : Fin 2) (v : Desc) : (e.setBufDesc k v).playing = e.playing := by
  unfold Engine.setBufDesc; split <;> rfl
@[simp] theorem Engine.setBufDesc_bst0 (e : Engine) (k : Fin 2) (v : Desc) : (e.setBufDesc k v).bst0 = e.bst0 := by
  unfold Engine.setBufDesc; split <;> rfl
@[simp] theorem Engine.setBufDesc_bst1 (e : Engine) (k : Fin 2) (v : Desc) : (e.setBufDesc k v).bst1 = e.bst1 := by
  unfold Engine.setBufDesc; split <;> rfl
@[simp] theorem Engine.setBufDesc_wrCnt (e : Engine) (k : Fin 2) (v : Desc) : (e.setBufDesc k v).wrCnt = e.wrCnt := by
  unfold Engine.setBufDesc; split <;> rfl
@[simp] theorem Engine.setBufDesc_rdCnt (e : Engine) (k : Fin 2) (v : Desc) : (e.setBufDesc k v).rdCnt = e.rdCnt := by
  unfold Engine.setBufDesc; split <;> rfl
@[simp] theorem Engine.setBufDesc_curSilent (e : Engine) (k : Fin 2) (v : Desc) : (e.setBufDesc k v).curSilent = e.curSilent := by
  unfold Engine.setBufDesc; split <;> rfl
@[simp] theorem Engine.setBufDesc_desc (e : Engine) (k : Fin 2) (v : Desc) : (e.setBufDesc k v).desc = e.desc := by
  unfold Engine.setBufDesc; split <;> rfl

/-! ### `Engine.setIrqPend` -/

@[simp] theorem Engine.setIrqPend_blkState (e : Engine) (k : Fin 2) (v : Bool) : (e.setIrqPend k v).blkState = e.blkState := by
  unfold Engine.setIrqPend; split <;> rfl
@[simp] theorem Engine.setIrqPend_running (e : Engine) (k : Fin 2) (v : Bool) : (e.setIrqPend k v).running = e.running := by
  unfold Engine.setIrqPend; split <;> rfl
@[simp] theorem Engine.setIrqPend_pushCnt (e : Engine) (k : Fin 2) (v : Bool) : (e.setIrqPend k v).pushCnt = e.pushCnt := by
  unfold Engine.setIrqPend; split <;> rfl
@[simp] theorem Engine.setIrqPend_irqEn (e : Engine) (k : Fin 2) (v : Bool) : (e.setIrqPend k v).irqEn = e.irqEn := by
  unfold Engine.setIrqPend; split <;> rfl
@[simp] theorem Engine.setIrqPend_region (e : Engine) (k : Fin 2) (v : Bool) : (e.setIrqPend k v).region = e.region := by
  unfold Engine.setIrqPend; split <;> rfl
@[simp] theorem Engine.setIrqPend_wrPos (e : Engine) (k : Fin 2) (v : Bool) : (e.setIrqPend k v).wrPos = e.wrPos := by
  unfold Engine.setIrqPend; split <;> rfl
@[simp] theorem Engine.setIrqPend_rdPos (e : Engine) (k : Fin 2) (v : Bool) : (e.setIrqPend k v).rdPos = e.rdPos := by
  unfold Engine.setIrqPend; split <;> rfl
@[simp] theorem Engine.setIrqPend_rst (e : Engine) (k : Fin 2) (v : Bool) : (e.setIrqPend k v).rst = e.rst := by
  unfold Engine.setIrqPend; split <;> rfl
@[simp] theorem Engine.setIrqPend_playing (e : Engine) (k : Fin 2) (v : Bool) : (e.setIrqPend k v).playing = e.playing := by
  unfold Engine.setIrqPend; split <;> rfl
@[simp] theorem Engine.setIrqPend_bst0 (e : Engine) (k : Fin 2) (v : Bool) : (e.setIrqPend k v).bst0 = e.bst0 := by
  unfold Engine.setIrqPend; split <;> rfl
@[simp] theorem Engine.setIrqPend_bst1 (e : Engine) (k : Fin 2) (v : Bool) : (e.setIrqPend k v).bst1 = e.bst1 := by
  unfold Engine.setIrqPend; split <;> rfl
@[simp] theorem Engine.setIrqPend_desc0 (e : Engine) (k : Fin 2) (v : Bool) : (e.setIrqPend k v).desc0 = e.desc0 := by
  unfold Engine.setIrqPend; split <;> rfl
@[simp] theorem Engine.setIrqPend_desc1 (e : Engine) (k : Fin 2) (v : Bool) : (e.setIrqPend k v).desc1 = e.desc1 := by
  unfold Engine.setIrqPend; split <;> rfl
@[simp] theorem Engine.setIrqPend_wrCnt (e : Engine) (k : Fin 2) (v : Bool) : (e.setIrqPend k v).wrCnt = e.wrCnt := by
  unfold Engine.setIrqPend; split <;> rfl
@[simp] theorem Engine.setIrqPend_rdCnt (e : Engine) (k : Fin 2) (v : Bool) : (e.setIrqPend k v).rdCnt = e.rdCnt := by
  unfold Engine.setIrqPend; split <;> rfl
@[simp] theorem Engine.setIrqPend_curSilent (e : Engine) (k : Fin 2) (v : Bool) : (e.setIrqPend k v).curSilent = e.curSilent := by
  unfold Engine.setIrqPend; split <;> rfl
@[simp] theorem Engine.setIrqPend_desc (e : Engine) (k : Fin 2) (v : Bool) : (e.setIrqPend k v).desc = e.desc := by
  unfold Engine.setIrqPend; split <;> rfl

/-! ### Runs of responses -/

@[simp] theorem foldl_respond (ws : List Word32) (s : State) :
    ws.foldl (fun t w => respond w t) s = { s with respStream := s.respStream ++ ws } := by
  induction ws generalizing s with
  | nil => simp
  | cons w ws ih => rw [List.foldl_cons, ih]; simp [respond]

end Sys2Proof.Machine
end

