-- ==== Sys2Proof/Laws/Engine.lean ====
section
/-! SUPPORT. What PUSH and TICK can do to the engine, said once per shape. -/

namespace Sys2Proof.Machine

/-! ### PUSH -/

@[simp] theorem length_copiedFrame (s : State) : (copiedFrame s).length = s.cfg.n := by simp [copiedFrame]

theorem getElem_copiedFrame (s : State) (j : Nat) (h : j < (copiedFrame s).length) :
    (copiedFrame s)[j] = attenuate s.control.dmaShift (s.mixer.outBuf.read j) := by
  simp [copiedFrame, Memory.getElem_readBlock]

/-- `attenuate` acts on each half on its own, so equal halves stay equal (R49 item 4). -/
theorem attenuate_mono {h : BitVec 4} {p : Pair} (hp : p.l = p.r) : (attenuate h p).l = (attenuate h p).r := by
  simp [attenuate, hp]

/-- What PUSH can do to the machine: the engine, by the copy and then the pre-roll step, and one buffer counted. -/
theorem runPush_eq_next {s t : State} (h : runPush s = .next t) :
    ∃ e, publishFrame s.cfg (copiedFrame s) s.engine = some e ∧
      t = countFilled { s with engine := prerollStep s.cfg e } := by
  unfold runPush at h
  split at h
  · simp at h
  · rename_i e he; exact ⟨e, he, by simpa using h.symm⟩

theorem runPush_of_publish {s : State} {e : Engine} (h : publishFrame s.cfg (copiedFrame s) s.engine = some e) :
    runPush s = .next (countFilled { s with engine := prerollStep s.cfg e }) := by
  unfold runPush; rw [h]

theorem publishFrame_ring {c : Config} (hs : c.shape = .ring) (frame : List Pair) (e : Engine) :
    publishFrame c frame e =
      some { e with region := writeRing c e.region e.wrPos frame, wrPos := wrapPos c (e.wrPos + c.n) } := by
  simp [publishFrame, hs]

theorem publishFrame_pingpong {c : Config} (hs : c.shape = .pingpong) {frame : List Pair} {e : Engine}
    (ht : pushTarget e < 2) (hlen : frame.length = c.bufLen) :
    publishFrame c frame e =
      some (({ e with region := e.region.writeBlock (bufIndex c (pushTarget e) 0) frame } : Engine).setBst
        ⟨pushTarget e, ht⟩ .armed) := by
  have hle : bufIndex c (pushTarget e) 0 + frame.length ≤ regionSize c := by
    have : pushTarget e * c.bufLen ≤ 1 * c.bufLen := Nat.mul_le_mul_right _ (by omega)
    simp only [bufIndex, regionSize, hs]; omega
  simp only [publishFrame, hs, dif_pos ht, writeIn_of_le hle]

theorem publishFrame_nbuf {c : Config} (hs : c.shape = .nbuf) {frame : List Pair} {e : Engine} (hn : 0 < c.nbuf)
    (hlen : frame.length = c.bufLen) :
    publishFrame c frame e =
      some { e with
        region := e.region.writeBlock (bufIndex c (e.wrCnt.toNat % c.nbuf) 0) frame
        wrCnt := e.wrCnt + 1 } := by
  have hle : bufIndex c (e.wrCnt.toNat % c.nbuf) 0 + frame.length ≤ regionSize c := by
    have hk := Nat.mod_lt e.wrCnt.toNat hn
    have := Nat.mul_le_mul_right c.bufLen (Nat.succ_le_of_lt hk)
    rw [Nat.succ_mul] at this
    simp only [bufIndex, regionSize, hs]; omega
  simp only [publishFrame, hs, writeIn_of_le hle]

theorem prerollStep_running {c : Config} {e : Engine} (h : e.running = true) : prerollStep c e = e := by
  simp [prerollStep, h]

/-- The pre-roll step before the start: one more push counted, and the start when the count is reached. -/
theorem prerollStep_stopped {c : Config} {e : Engine} (h : e.running = false) :
    prerollStep c e =
      if c.preroll ≤ (e.pushCnt + 1).toNat then startEngine c { e with pushCnt := e.pushCnt + 1 }
      else awaitPreroll c { e with pushCnt := e.pushCnt + 1 } := by
  simp [prerollStep, h]

@[simp] theorem prerollStep_region (c : Config) (e : Engine) : (prerollStep c e).region = e.region := by
  unfold prerollStep
  split
  · rfl
  · simp only; split
    · unfold startEngine; split <;> simp
    · unfold awaitPreroll; split <;> rfl

/-! ### TICK -/

/-- What the ring's tick can do: the underrun first where the fill is 0, then one element read and emitted. -/
theorem tickRing_eq_next {s t : State} (h : tickRing s = .next t) :
    ∃ u, u = (if ringFill s.cfg s.engine = 0 then raiseUnderrun (insertSilence s.cfg) s else s) ∧
      u.engine.rdPos < regionSize u.cfg ∧
      t = emit (u.engine.region.read u.engine.rdPos)
        { u with engine := { u.engine with rdPos := wrapPos u.cfg (u.engine.rdPos + 1) } } := by
  unfold tickRing at h
  simp only at h
  refine ⟨_, rfl, ?_⟩
  split at h
  · simp at h
  · rename_i p hp
    obtain ⟨hlt, rfl⟩ := readIn_eq_some hp
    exact ⟨hlt, by simpa using h.symm⟩

/-- What the ping-pong tick can do: one element moved, and the completion where it was the buffer's last. -/
theorem tickPingpong_eq_next {s t : State} (h : tickPingpong s = .next t) :
    ∃ moved, s.engine.playing.val < bufferCount s.cfg ∧ (s.engine.bufDesc s.engine.playing).addr < s.cfg.bufLen ∧
      moved = emit (s.engine.region.read (bufIndex s.cfg s.engine.playing.val (s.engine.bufDesc s.engine.playing).addr))
        { s with
          engine := s.engine.setBufDesc s.engine.playing (s.engine.bufDesc s.engine.playing).advance } ∧
      (((s.engine.bufDesc s.engine.playing).advance.count ≠ 0 ∧ t = moved) ∨
        ((s.engine.bufDesc s.engine.playing).advance.count = 0 ∧
          takeInterrupt s.engine.playing (serviceBuffer s.engine.playing) moved = .next t)) := by
  unfold tickPingpong at h
  simp only at h
  split at h
  · simp at h
  · rename_i v hv
    obtain ⟨hk, hj, rfl⟩ := readBuffer_eq_some hv
    refine ⟨_, hk, hj, rfl, ?_⟩
    split at h
    · exact .inr ⟨‹_›, h⟩
    · exact .inl ⟨‹_›, by simpa using h.symm⟩

/-- What the N-buffer tick can do: one element, or silence, moved, and the completion where it was the last. -/
theorem tickNbuf_eq_next {s t : State} (h : tickNbuf s = .next t) :
    ∃ v moved, queueSample s.cfg s.engine = some v ∧
      moved = emit v { s with engine := { s.engine with desc := s.engine.desc.advance } } ∧
      ((s.engine.desc.advance.count ≠ 0 ∧ t = moved) ∨
        (s.engine.desc.advance.count = 0 ∧ takeInterrupt 0 serviceQueue moved = .next t)) := by
  unfold tickNbuf at h
  split at h
  · simp at h
  · rename_i v hv
    refine ⟨v, _, hv, rfl, ?_⟩
    simp only at h
    split at h
    · exact .inr ⟨‹_›, h⟩
    · exact .inl ⟨‹_›, by simpa using h.symm⟩

/-- A tick that is not enabled moves nothing (R150). -/
theorem tick_disabled {s : State} (h : tickEnabled s.engine = false) : tick s = .next s := by
  simp [tick, h]

/-- A tick that is enabled is the tick of the shape. -/
theorem tick_enabled {s : State} (h : tickEnabled s.engine = true) :
    tick s = match s.cfg.shape with
      | .ring => tickRing s
      | .pingpong => tickPingpong s
      | .nbuf => tickNbuf s := by
  unfold tick; exact if_pos h

theorem tickEnabled_iff (e : Engine) : tickEnabled e = true ↔ e.blkState = .ready ∧ e.running = true := by
  simp [tickEnabled]

end Sys2Proof.Machine
end

