-- ==== Sys2Proof/Laws/Mixer.lean ====
section
/-! SUPPORT. What one frame of the mixer computes, said once. -/

namespace Sys2Proof.Machine

/-- The filter state before sample `i + j`, from `l` before sample `i`. -/
def filterTrace (next : Nat → Int → Int) (i : Nat) (l : Int) : Nat → Int
  | 0 => l
  | j + 1 => next (i + j) (filterTrace next i l j)

theorem filterTrace_succ (next : Nat → Int → Int) (i : Nat) (l : Int) (j : Nat) :
    filterTrace next (i + 1) (next i l) j = filterTrace next i l (j + 1) := by
  induction j with
  | zero => rfl
  | succ j ih => rw [filterTrace, ih, filterTrace]; congr 1; omega

/-- One value is written per sample. -/
@[simp] theorem length_mixLoop (next output : Nat → Int → Int) (i n : Nat) (l : Int) :
    (mixLoop next output i n l).1.length = n := by
  induction n generalizing i l with
  | zero => rfl
  | succ n ih => simp [mixLoop, ih]

/-- The filter state at the end of the loop. -/
theorem mixLoop_snd (next output : Nat → Int → Int) (i n : Nat) (l : Int) :
    (mixLoop next output i n l).2 = filterTrace next i l n := by
  induction n generalizing i l with
  | zero => rfl
  | succ n ih => rw [mixLoop, ih, filterTrace_succ]

/-- The value written for sample `i + j`. -/
theorem mixLoop_getElem (next output : Nat → Int → Int) (i n : Nat) (l : Int) (j : Nat)
    (h : j < (mixLoop next output i n l).1.length) :
    (mixLoop next output i n l).1[j] = output (i + j) (filterTrace next i l (j + 1)) := by
  induction n generalizing i l j with
  | zero => simp [mixLoop] at h
  | succ n ih =>
    cases j with
    | zero => simp [mixLoop, filterTrace]
    | succ j =>
      simp only [mixLoop, List.getElem_cons_succ]
      rw [ih, filterTrace_succ]
      congr 1; omega

@[simp] theorem length_mixSamples (c : Config) (k : Control) (inp : Input) (m : Mixer) :
    (mixSamples c k inp m).1.length = c.n := length_mixLoop _ _ _ _ _

/-- The filter state before sample `j` of a frame. -/
def frameTrace (c : Config) (k : Control) (inp : Input) (m : Mixer) : Nat → Int :=
  filterTrace (filterNext c k inp) 0 m.lpfState.toInt

/-- The filter state is where the register left it before sample 0, and moves by `filterNext` at every sample. -/
theorem frameTrace_zero (c : Config) (k : Control) (inp : Input) (m : Mixer) :
    frameTrace c k inp m 0 = m.lpfState.toInt := rfl

theorem frameTrace_succ (c : Config) (k : Control) (inp : Input) (m : Mixer) (j : Nat) :
    frameTrace c k inp m (j + 1) = filterNext c k inp j (frameTrace c k inp m j) := by
  simp [frameTrace, filterTrace]

theorem mixSamples_getElem (c : Config) (k : Control) (inp : Input) (m : Mixer) (j : Nat)
    (h : j < (mixSamples c k inp m).1.length) :
    (mixSamples c k inp m).1[j] = outputValue c m j (frameTrace c k inp m (j + 1)) := by
  simp only [mixSamples]; rw [mixLoop_getElem]; simp [frameTrace]

theorem mixSamples_snd (c : Config) (k : Control) (inp : Input) (m : Mixer) :
    (mixSamples c k inp m).2 = frameTrace c k inp m c.n := mixLoop_snd _ _ _ _ _

/-- The mixer state after one frame. -/
def mixedFrame (c : Config) (k : Control) (inp : Input) (m : Mixer) : Mixer where
  lpfState := toWord32 (frameTrace c k inp m c.n)
  prevOut := toSample (outputValue c m (c.n - 1) (frameTrace c k inp m c.n))
  startupCtr := BitVec.ofNat 32 (min (m.startupCtr.toNat + 1) c.startupFrames)
  outBuf := m.outBuf.writeBlock 0 ((mixSamples c k inp m).1.map stereo)

/-- A frame fits `OUT_BUF`, so mixing it always answers. -/
theorem mixFrame_eq {c : Config} (k : Control) (inp : Input) (m : Mixer) (hn : 1 ≤ c.n) (hcap : c.n ≤ c.cap) :
    mixFrame c k inp m = some (mixedFrame c k inp m) := by
  unfold mixFrame
  simp only
  rw [writeIn_of_le (by simpa using hcap)]
  simp only [Option.some.injEq, mixedFrame, Mixer.mk.injEq, true_and, and_true, mixSamples_snd]
  have hlen := length_mixSamples c k inp m
  rw [List.getLast?_eq_getElem?, List.getElem?_eq_getElem (by omega)]
  simp only [Option.map_some, Option.getD_some]
  rw [mixSamples_getElem]
  congr 2 <;> simp only [hlen]
  congr 1; omega

theorem runMix_eq {s : State} (hn : 1 ≤ s.cfg.n) (hcap : s.cfg.n ≤ s.cfg.cap) :
    runMix s = .next { s with mixer := mixedFrame s.cfg s.control s.input s.mixer } := by
  unfold runMix; rw [mixFrame_eq _ _ _ hn hcap]

/-- What MIX can do to the machine: the mixer state alone changes. -/
theorem runMix_eq_next {s t : State} (h : runMix s = .next t) :
    ∃ m, mixFrame s.cfg s.control s.input s.mixer = some m ∧ t = { s with mixer := m } := by
  unfold runMix at h
  split at h
  · simp at h
  · rename_i m hm; exact ⟨m, hm, by simpa using h.symm⟩

/-- An element of `OUT_BUF` after a frame. -/
theorem read_mixedFrame (c : Config) (k : Control) (inp : Input) (m : Mixer) (i : Nat) :
    (mixedFrame c k inp m).outBuf.read i =
      if i < c.n then stereo (outputValue c m i (frameTrace c k inp m (i + 1))) else m.outBuf.read i := by
  simp only [mixedFrame]
  rw [Memory.read_writeBlock]
  simp only [Nat.zero_le, true_and, List.length_map, length_mixSamples, Nat.zero_add, Nat.sub_zero]
  split
  · rename_i h
    rw [List.getD_eq_getElem?_getD, List.getElem?_eq_getElem (by simpa using h)]
    simp [mixSamples_getElem]
  · rfl

end Sys2Proof.Machine
end

