-- ==== Sys2Proof/Laws/PerInstr.lean ====
section
/-! SUPPORT. What holds of every command as syntax, one lemma per constructor: its encoding carries its kind code in byte 0,
and that code is one of the fourteen of 30_encoding.md R83. -/

namespace Sys2Proof.Laws.KindCode

/-- Byte 0 of the encoding is the kind code, and the kind code is in `0x00..0x05` or `0x10..0x17`. -/
def Statement (i : Instr) : Prop :=
  (encode i).b0 = i.kindCode ∧ (i.kindCode.toNat ≤ 0x05 ∨ (0x10 ≤ i.kindCode.toNat ∧ i.kindCode.toNat ≤ 0x17))

theorem regwrite (chip port data : Byte) (ts : Word32) : Statement (.regwrite chip port data ts) :=
  ⟨rfl, .inl (show (0x00 : Byte).toNat ≤ 0x05 by decide)⟩

theorem reset : Statement .reset := ⟨rfl, by decide⟩

theorem volume (a0 : Byte) : Statement (.volume a0) := ⟨rfl, .inl (show (0x02 : Byte).toNat ≤ 0x05 by decide)⟩

theorem enable (a0 : Byte) : Statement (.enable a0) := ⟨rfl, .inl (show (0x03 : Byte).toNat ≤ 0x05 by decide)⟩

theorem framesync (cycle : Word32) : Statement (.framesync cycle) :=
  ⟨rfl, .inl (show (0x04 : Byte).toNat ≤ 0x05 by decide)⟩

theorem dacsample (d : Sample) (ts : Word32) : Statement (.dacsample d ts) :=
  ⟨rfl, .inl (show (0x05 : Byte).toNat ≤ 0x05 by decide)⟩

theorem init : Statement .init := ⟨rfl, by decide⟩

theorem teardown : Statement .teardown := ⟨rfl, by decide⟩

theorem mix : Statement .mix := ⟨rfl, by decide⟩

theorem push : Statement .push := ⟨rfl, by decide⟩

theorem submit : Statement .submit := ⟨rfl, by decide⟩

theorem getStats : Statement .getStats := ⟨rfl, by decide⟩

theorem resetStats : Statement .resetStats := ⟨rfl, by decide⟩

theorem setShift (a0 : Byte) : Statement (.setShift a0) :=
  ⟨rfl, .inr (show 0x10 ≤ (0x17 : Byte).toNat ∧ (0x17 : Byte).toNat ≤ 0x17 by decide)⟩

end Sys2Proof.Laws.KindCode
end

