-- ==== Sys2Proof/Laws/Step.lean ====
section
/-! SUPPORT. What a command and a step can do, said once: the inversion lemmas of the meanings, of each agent's turn and of
`step`. -/

namespace Sys2Proof.Machine

/-! ### Commands -/

/-- MIX, if it answers: discarded, or one frame mixed and counted. -/
theorem execMix_eq_next {s t : State} (h : execMix s = .next t) :
    (s.engine.blkState ≠ .ready ∧ t = s) ∨
      (s.engine.blkState = .ready ∧ ∃ m, mixFrame s.cfg s.control s.input s.mixer = some m ∧
        t = countCommand { s with mixer := m }) := by
  rcases ifLegal_eq_next h with ⟨hl, h⟩ | ⟨hl, rfl⟩
  · refine .inr ⟨by simpa [legalIn] using hl, ?_⟩
    obtain ⟨u, hu, h⟩ := andThen_eq_next h
    obtain ⟨m, hm, rfl⟩ := runMix_eq_next hu
    exact ⟨m, hm, by simpa using h.symm⟩
  · exact .inl ⟨by simpa [legalIn] using hl, rfl⟩

/-- PUSH, if it answers: discarded, held, or one frame published and counted. -/
theorem execPush_eq_next {s t : State} (h : execPush s = .next t) :
    ((s.engine.blkState ≠ .ready ∨ pushHeld s.cfg s.engine = true) ∧ t = s) ∨
      (s.engine.blkState = .ready ∧ pushHeld s.cfg s.engine = false ∧
        ∃ e, publishFrame s.cfg (copiedFrame s) s.engine = some e ∧
          t = countCommand (countFilled { s with engine := prerollStep s.cfg e })) := by
  rcases ifLegal_eq_next h with ⟨hl, h⟩ | ⟨hl, rfl⟩
  · have hr : s.engine.blkState = .ready := by simpa [legalIn] using hl
    rcases unlessHeld_eq_next h with ⟨hh, h⟩ | ⟨hh, rfl⟩
    · obtain ⟨u, hu, h⟩ := andThen_eq_next h
      obtain ⟨e, he, rfl⟩ := runPush_eq_next hu
      exact .inr ⟨hr, hh, e, he, by simpa using h.symm⟩
    · exact .inl ⟨.inr hh, rfl⟩
  · exact .inl ⟨.inl (by simpa [legalIn] using hl), rfl⟩

/-- SUBMIT, if it answers: discarded, held, or one frame mixed, then published, and counted once. -/
theorem execSubmit_eq_next {s t : State} (h : execSubmit s = .next t) :
    ((s.engine.blkState ≠ .ready ∨ pushHeld s.cfg s.engine = true) ∧ t = s) ∨
      (s.engine.blkState = .ready ∧ pushHeld s.cfg s.engine = false ∧
        ∃ m e, mixFrame s.cfg s.control s.input s.mixer = some m ∧
          publishFrame s.cfg (copiedFrame { s with mixer := m }) s.engine = some e ∧
          t = countCommand (countFilled { s with mixer := m, engine := prerollStep s.cfg e })) := by
  rcases ifLegal_eq_next h with ⟨hl, h⟩ | ⟨hl, rfl⟩
  · have hr : s.engine.blkState = .ready := by simpa [legalIn] using hl
    rcases unlessHeld_eq_next h with ⟨hh, h⟩ | ⟨hh, rfl⟩
    · obtain ⟨u, hu, h⟩ := andThen_eq_next h
      obtain ⟨m, hm, rfl⟩ := runMix_eq_next hu
      obtain ⟨v, hv, h⟩ := andThen_eq_next h
      obtain ⟨e, he, rfl⟩ := runPush_eq_next hv
      exact .inr ⟨hr, hh, m, e, hm, he, by simpa using h.symm⟩
    · exact .inl ⟨.inr hh, rfl⟩
  · exact .inl ⟨.inl (by simpa [legalIn] using hl), rfl⟩

/-! ### Turns -/

/-- A write of the SCA, if it answers, changes the input state alone. -/
theorem scaTurn_eq_next {w : ScaWrite} {s t : State} (h : scaTurn w s = .next t) :
    ∃ inp, t = { s with input := inp } ∧
      match w with
      | .fmCount v => inp = { s.input with fmCount := v }
      | .psgCount v => inp = { s.input with psgCount := v }
      | .fmSample i v => i < s.cfg.cap ∧ inp = { s.input with fmIn := s.input.fmIn.write i v }
      | .psgSample i v => i < s.cfg.cap ∧ inp = { s.input with psgIn := s.input.psgIn.write i v } := by
  cases w with
  | fmCount v => exact ⟨_, by simpa [scaTurn] using h.symm, rfl⟩
  | psgCount v => exact ⟨_, by simpa [scaTurn] using h.symm, rfl⟩
  | fmSample i v =>
    simp only [scaTurn] at h
    split at h
    · simp at h
    · rename_i m hm
      obtain ⟨hi, rfl⟩ := writeIn_eq_some hm
      exact ⟨_, by simpa [Memory.write] using h.symm, by simpa using hi, rfl⟩
  | psgSample i v =>
    simp only [scaTurn] at h
    split at h
    · simp at h
    · rename_i m hm
      obtain ⟨hi, rfl⟩ := writeIn_eq_some hm
      exact ⟨_, by simpa [Memory.write] using h.symm, by simpa using hi, rfl⟩

/-- The HOST's turn, if it answers: nothing presented; a reserved record discarded; a held command waiting; or the decoded
command executed, its record consumed. -/
theorem hostTurn_eq_next {s t : State} (h : hostTurn s = .next t) :
    (s.port = [] ∧ t = s) ∨
      ∃ r rest, s.port = r :: rest ∧
        ((∃ k, decode r = .reserved k ∧ t = consume r rest false s) ∨
          ∃ i, decode r = .command i ∧
            ((heldIn i s = true ∧ t = s) ∨
              (heldIn i s = false ∧ exec i (consume r rest (passedOn i) s) = .next t))) := by
  unfold hostTurn at h
  split at h
  · exact .inl ⟨‹_›, by simpa using h.symm⟩
  · rename_i r rest hp
    refine .inr ⟨r, rest, hp, ?_⟩
    split at h
    · exact .inl ⟨_, ‹_›, by simpa using h.symm⟩
    · rename_i i hi
      refine .inr ⟨i, hi, ?_⟩
      split at h
      · exact .inl ⟨‹_›, by simpa using h.symm⟩
      · exact .inr ⟨by simpa using ‹¬ heldIn i s = true›, h⟩

/-- A step, if it answers: the configuration is legal, and either no turn is left or the next agent took its turn. -/
theorem step_eq_next {s t : State} (h : step s = .next t) :
    Legal s.cfg ∧ ((s.turns = [] ∧ t = s) ∨
      ∃ turn later, s.turns = turn :: later ∧ runTurn turn { s with turns := later } = .next t) := by
  unfold step at h
  split at h
  · refine ⟨‹_›, ?_⟩
    split at h
    · exact .inl ⟨‹_›, by simpa using h.symm⟩
    · rename_i turn later ht; exact .inr ⟨turn, later, ht, h⟩
  · simp at h

theorem step_of_turn {s : State} {turn : Turn} {later : List Turn} (hl : Legal s.cfg) (ht : s.turns = turn :: later) :
    step s = runTurn turn { s with turns := later } := by
  have hl : legalConfig s.cfg = true := hl
  simp [step, hl, ht]

end Sys2Proof.Machine
end

