-- ==== Sys2Proof/Tests/Slice0.lean ====
section
/-! SUPPORT. Tests: the well-formedness smoke, a decoded word for every command, one or two small steps per command (expected
values from 95_test_vectors.md or computed by hand from the rule named), and a witness for the hypotheses of every statement of
the certificate. -/

namespace Sys2Proof.Tests

open Sys2Proof.Machine

/-! ### Well-formedness: each check refuses an ill-formed term (R92) -/

theorem test_wellFormed_enable_two_refused : Instr.wellFormed (.enable 2) = false := by decide
theorem test_wellFormed_enable_one_allowed : Instr.wellFormed (.enable 1) = true := by decide
theorem test_wellFormed_shift_sixteen_refused : Instr.wellFormed (.setShift 16) = false := by decide
theorem test_wellFormed_shift_fifteen_allowed : Instr.wellFormed (.setShift 15) = true := by decide

/-! ### Decoding: the words of 95_test_vectors.md section 6 -/

theorem test_word_regwrite :
    decodeTableWord 64 0x000003E8802A0100 = some (.regwrite 1 0x2A 0x80 1000) := by decide
theorem test_word_reset : decodeTableWord 64 0x0000000000000001 = some .reset := by decide
theorem test_word_volume : decodeTableWord 64 0x0000000000006002 = some (.volume 96) := by decide
theorem test_word_volume_junk : decode ⟨0x02, 0x60, 0xAA, 0xBB, 0xCC, 0xDD, 0xEE, 0xFF⟩ = .command (.volume 96) := by decide
theorem test_word_enable : decodeTableWord 64 0x0000000000000103 = some (.enable 1) := by decide
theorem test_word_framesync : decodeTableWord 64 0x0001F36000000004 = some (.framesync 127840) := by decide
theorem test_word_dacsample : decodeTableWord 64 0x00000007FFFE0005 = some (.dacsample (-2) 7) := by decide
theorem test_word_init : decodeTableWord 64 0x0000000000000010 = some .init := by decide
theorem test_word_teardown : decodeTableWord 64 0x0000000000000011 = some .teardown := by decide
theorem test_word_mix : decodeTableWord 64 0x0000000000000012 = some .mix := by decide
theorem test_word_push : decodeTableWord 64 0x0000000000000013 = some .push := by decide
theorem test_word_submit : decodeTableWord 64 0x0000000000000014 = some .submit := by decide
theorem test_word_getStats : decodeTableWord 64 0x0000000000000015 = some .getStats := by decide
theorem test_word_resetStats : decodeTableWord 64 0x0000000000000016 = some .resetStats := by decide
theorem test_word_setShift : decodeTableWord 64 0x0000000000001317 = some (.setShift 0x13) := by decide
theorem test_word_reserved : decode ⟨0x99, 0, 0, 0, 0, 0, 0, 0⟩ = .reserved 0x99 := by decide

/-! ### Arithmetic (95_test_vectors.md section 2) -/

theorem test_sra : [sra (-1) 3, sra (-7) 3, sra (-8) 3, sra (-9) 3, sra (-12800) 7] = [-1, -1, -1, -2, -100] := by decide
theorem test_satInc32 : [satInc32 0xFFFFFFFE, satInc32 0xFFFFFFFF] = [0xFFFFFFFF, 0xFFFFFFFF] := by decide
theorem test_limiter :
    [24577, 24580, 32767, -24580, -32768].map (softLimit .default) = [24576, 24577, 26623, -24577, -26624] := by decide
theorem test_fade : [1000, -1000, 1, -1].map (fade .default) = [937, -937, 0, 0] := by decide
theorem test_premix : [premix 20000 20000 127, premix (-100) 0 1, premix (-20000) (-20000) 127] = [32767, -1, -32768] := by
  decide

/-! ### Defaults (R10, R136, R171) -/

theorem test_default_preroll :
    [Shape.ring, .pingpong, .nbuf].map (fun k => (Config.defaultOf k).preroll) = [3, 2, 2] := by decide
theorem test_default_ring_bound :
    (Config.defaultOf .ring).ringSize - (Config.defaultOf .ring).minHeadroom = 3208 := by decide

/-! ### Small states -/

/-- Ping-pong with frames of two samples (`N = BUF_LEN = 2`, `CAP = 3`, no crossfade, no start-up window). -/
def pingConfig : Config :=
  { Config.default with n := 2, cap := 3, f := 0, startupFrames := 0, bufLen := 2, preroll := 2 }

def ringConfig : Config :=
  { pingConfig with shape := .ring, ringSize := 8, minHeadroom := 2 }

def queueConfig : Config := { pingConfig with shape := .nbuf, nbuf := 2 }

/-- After a successful `INIT`. -/
def ready (c : Config) : State :=
  { State.powerOn c with engine := { Engine.reset c with blkState := .ready, irqEn := true } }

def failed (c : Config) : State :=
  { State.powerOn c with engine := { Engine.reset c with blkState := .failed } }

/-- `v` on both channels. -/
def both (v : Sample) : Pair := ⟨v, v⟩

/-- The ring running, with data between the two positions. -/
def ringRunning (rd wr : Nat) : State :=
  { ready ringConfig with
    engine :=
      { (ready ringConfig).engine with
        running := true
        pushCnt := 2
        rst := .playing
        rdPos := rd
        wrPos := wr
        region := [(0, both 10), (1, both 11), (2, both 12), (3, both 13), (7, both 17)] } }

/-- Ping-pong running on buffer 0, the other buffer in state `b`, `left` elements to play. -/
def pingRunning (b : BufState) (left : Nat) : State :=
  { ready pingConfig with
    mixer := { Mixer.reset with outBuf := [(0, both 1000), (1, both (-1001))] }
    engine :=
      { (ready pingConfig).engine with
        running := true
        pushCnt := 2
        bst0 := .playing
        bst1 := b
        desc0 := ⟨2 - left, left⟩
        region := [(0, both 10), (1, both 11), (2, both 12), (3, both 13)] } }

/-- The N-buffer shape running. -/
def queueRunning (wr rd : Word32) (silent : Bool) (left : Nat) : State :=
  { ready queueConfig with
    engine :=
      { (ready queueConfig).engine with
        running := true
        pushCnt := 2
        rst := .playing
        wrCnt := wr
        rdCnt := rd
        curSilent := silent
        desc := ⟨2 - left, left⟩
        region := [(0, both 10), (1, both 11), (2, both 12), (3, both 13)] } }

/-- The ring or the N-buffer shape before the start. -/
def oncePushed (c : Config) : State :=
  { ready c with
    engine :=
      { (ready c).engine with
        pushCnt := 1
        rst := if c.shape = .pingpong then .idle else .armed
        wrPos := if c.shape = .ring then 2 else 0
        wrCnt := if c.shape = .nbuf then 1 else 0
        bst0 := if c.shape = .pingpong then .armed else .idle } }

/-- `s` with a record presented and the HOST's turn next. -/
def presenting (s : State) (r : Record) : State := { s with port := [r], turns := [.host] }

/-- `s` with inputs: a constant `v` on the FM side. -/
def withInput (s : State) (v : Sample) (fm psg : Word32) : State :=
  { s with input := { s.input with fmCount := fm, psgCount := psg, fmIn := [(0, v), (1, v), (2, v)] } }

/-- One value of the next state. -/
def after {α : Type} (o : Result) (f : State → α) : Option α := (nextState o).map f

theorem next_of_after {o : Result} (h : (after o fun _ => ()).isSome = true) : ∃ t, o = .next t := by
  cases o with
  | next t => exact ⟨t, rfl⟩
  | fault r => simp [after, nextState] at h
  | refused r => simp [after, nextState] at h

/-! ### One step of each command (95_test_vectors.md sections 3 to 5, or by hand from the rule) -/

theorem test_regwrite_counts :
    after (exec (.regwrite 1 0x2A 0x80 1000) (failed pingConfig)) (·.stats.commandsProcessed) = some 1 := by decide
theorem test_framesync_counts :
    after (exec (.framesync 127840) State.reset) (·.stats.commandsProcessed) = some 1 := by decide
theorem test_dacsample_counts :
    after (exec (.dacsample (-2) 7) State.reset) (·.stats.commandsProcessed) = some 1 := by decide
theorem test_reset_keeps_startup :
    after (exec .reset { ready pingConfig with mixer := ⟨97, 97, 5, []⟩ })
      (fun t => (t.mixer.lpfState, t.mixer.prevOut, t.mixer.startupCtr)) = some (0, 0, 5) := by decide
theorem test_volume_saturates : after (exec (.volume 200) State.reset) (·.control.volume) = some 128 := by decide
theorem test_volume_sets : after (exec (.volume 96) State.reset) (·.control.volume) = some 96 := by decide
theorem test_enable_two_clears : after (exec (.enable 2) State.reset) (·.control.enable) = some false := by decide
theorem test_setShift_masks : after (exec (.setShift 0x13) State.reset) (·.control.dmaShift) = some 3 := by decide
theorem test_setShift_high_bits : after (exec (.setShift 0xF0) State.reset) (·.control.dmaShift) = some 0 := by decide
theorem test_init_ready :
    after (exec .init State.reset) (fun t => (t.engine.blkState, t.engine.irqEn, t.respStream)) =
      some (.ready, true, [0]) := by decide
theorem test_init_no_hardware :
    after (exec .init { State.reset with hwAvailable := false })
      (fun t => (t.engine.blkState, t.engine.irqEn, t.respStream)) = some (.failed, false, [1]) := by decide
theorem test_teardown_stops :
    after (exec .teardown (pingRunning .armed 1)) (fun t => (t.engine.blkState, t.engine.running, t.engine.desc0)) =
      some (.off, false, ⟨0, 2⟩) := by decide
theorem test_getStats_after_init :
    after (exec .getStats { ready pingConfig with stats := { Stats.zero with commandsProcessed := 1 } })
      (fun t => (t.respStream, t.stats.commandsProcessed)) = some ([0, 0, 1, 0, 0, 0, 0], 2) := by decide
theorem test_resetStats_zeroes :
    after (exec .resetStats { ready pingConfig with stats := ⟨1, 2, 3, 4, 5, 6, 7⟩ }) (·.stats) = some .zero := by decide
/-- M1: constant 100 from 0 gives 25, 43. -/
theorem test_mix_lowpass :
    after (exec .mix (withInput (ready pingConfig) 100 2 0)) (·.mixer.outBuf) = some [(0, both 25), (1, both 43)] := by decide
/-- M11: the fade from 1000 gives 937, 878; a count of -1 and one above `CAP` are both no data. -/
theorem test_mix_bounds_fade :
    after (exec .mix { withInput (ready pingConfig) 100 (-1) 4 with mixer := ⟨1000, 0, 0, []⟩ }) (·.mixer.outBuf) =
      some [(0, both 937), (1, both 878)] := by decide
/-- DV2: `DMA_SHIFT = 3` stores -1001 as -126 and 1000 as 125; the frame wraps at the end of the ring. -/
theorem test_push_ring_wraps :
    after
      (exec .push
        { ringRunning 5 7 with
          control := ⟨128, true, 3⟩
          mixer := { Mixer.reset with outBuf := [(0, both 1000), (1, both (-1001))] } })
      (fun t => (t.engine.region.read 7, t.engine.region.read 0, t.engine.wrPos)) =
      some (both 125, both (-126), 1) := by decide
/-- DV3: the push that completes the pre-roll fills buffer 1 and starts the engine on buffer 0. -/
theorem test_push_pingpong_starts :
    after (exec .push (oncePushed pingConfig)) (fun t => (t.engine.running, t.engine.bst0, t.engine.bst1)) =
      some (true, .playing, .armed) := by decide
/-- R144: mixes, pushes, counts once. -/
theorem test_submit_counts_once :
    after (exec .submit (withInput (pingRunning .refilling 2) 100 2 0))
      (fun t => (t.engine.region.read 2, t.engine.bst1, t.stats.commandsProcessed, t.stats.buffersFilled)) =
      some (both 25, .armed, 1, 1) := by decide
/-- R138: held while the other buffer is `Armed`. -/
theorem test_submit_held :
    after (exec .submit (withInput (pingRunning .armed 2) 100 2 0)) id = some (withInput (pingRunning .armed 2) 100 2 0) := by
  decide

/-! ### TICK -/

/-- R152: the ring's tick at fill 0 inserts a silent frame and emits its first element. -/
theorem test_tick_ring_underrun :
    after (tick (ringRunning 2 2))
      (fun t => (t.outStream, t.engine.wrPos, t.engine.rdPos, t.engine.region.read 3, t.stats.underruns)) =
      some ([both 0], 4, 3, both 0, 1) := by decide
/-- R159: the completion zeroes a buffer that is not `Armed`, counts it and plays it. -/
theorem test_tick_pingpong_underrun :
    after (tick (pingRunning .refilling 1))
      (fun t => (t.outStream, t.engine.playing, t.engine.bst0, t.engine.bst1, t.engine.region.read 3, t.stats.underruns)) =
      some ([both 11], 1, .refilling, .playing, both 0, 1) := by decide
/-- R164: the completion of the last queued buffer selects a silent substitute; the counters wrap at `2^32`. -/
theorem test_tick_queue_underrun :
    after (tick (queueRunning 0 0xFFFFFFFF false 1))
      (fun t => (t.outStream, t.engine.rdCnt, t.engine.curSilent, t.stats.underruns, t.stats.irqCount)) =
      some ([both 13], 0, true, 1, 1) := by decide

/-! ### The interface -/

theorem test_withFetchWord_runs :
    after (step (State.reset.withFetchWord 64 0x6002)) (fun t => (t.control.volume, t.port)) = some (96, []) := by decide

/-! ### Good states -/

theorem good_ready_ping : GoodState (ready pingConfig) := goodState_of_check (by decide)
theorem good_ready_ring : GoodState (ready ringConfig) := goodState_of_check (by decide)
theorem good_ready_queue : GoodState (ready queueConfig) := goodState_of_check (by decide)
theorem good_off : GoodState (State.powerOn pingConfig) := goodState_of_check (by decide)
theorem good_failed : GoodState (failed pingConfig) := goodState_of_check (by decide)
theorem good_ring_full : GoodState (ringRunning 6 4) := goodState_of_check (by decide)
theorem good_ring_held : GoodState (ringRunning 5 2) := goodState_of_check (by decide)
theorem good_ring_empty : GoodState (ringRunning 2 2) := goodState_of_check (by decide)
theorem good_ring_room : GoodState (ringRunning 5 1) := goodState_of_check (by decide)
theorem good_ping_armed : GoodState (pingRunning .armed 1) := goodState_of_check (by decide)
theorem good_ping_late : GoodState (pingRunning .refilling 1) := goodState_of_check (by decide)
theorem good_ping_midway : GoodState (pingRunning .idle 2) := goodState_of_check (by decide)
theorem good_queue_full : GoodState (queueRunning 1 0xFFFFFFFF false 2) := goodState_of_check (by decide)
theorem good_queue_last : GoodState (queueRunning 1 0 false 1) := goodState_of_check (by decide)
theorem good_queue_silent_full : GoodState (queueRunning 2 0 true 2) := goodState_of_check (by decide)
theorem good_queue_silent_empty : GoodState (queueRunning 3 3 true 1) := goodState_of_check (by decide)
theorem good_once_ring : GoodState (oncePushed ringConfig) := goodState_of_check (by decide)
theorem good_once_ping : GoodState (oncePushed pingConfig) := goodState_of_check (by decide)
theorem good_once_queue : GoodState (oncePushed queueConfig) := goodState_of_check (by decide)

/-! ### Witnesses: for every statement with hypotheses, concrete values that meet all of them, for each clause at a boundary -/

/-- A record with a kind code and zeros. -/
def plain (k : Byte) : Record := ⟨k, 0, 0, 0, 0, 0, 0, 0⟩

theorem presents {s : State} {r : Record} (h : legalConfig s.cfg = true) : Presents (presenting s r) r [] [] :=
  ⟨h, rfl, rfl⟩

theorem test_witness_DecodeEncodeAgree :
    decode ⟨0x17, 0x1F, 0xFF, 0xFF, 0xFF, 0xFF, 0xFF, 0xFF⟩ = .command (.setShift 0x1F) := by decide

theorem test_witness_UnreadFieldsAreIgnored :
    let a : Record := ⟨0x02, 0x60, 0xAA, 0xBB, 0xCC, 0xDD, 0xEE, 0xFF⟩
    let b : Record := ⟨0x02, 0x60, 0, 0, 0, 0, 0, 0⟩
    a.b0 = b.b0 ∧ a.b0 = 0x02 ∧ a.a0 = b.a0 ∧ a ≠ b ∧
      (plain 0x01).b0 = (⟨0x01, 1, 2, 3, 4, 5, 6, 7⟩ : Record).b0 ∧
      (plain 0x10).b0.toNat = 0x10 ∧ (plain 0x16).b0.toNat = 0x16 ∧
      (⟨0x05, 9, 1, 2, 3, 4, 5, 6⟩ : Record).a1 = (⟨0x05, 8, 1, 2, 3, 4, 5, 6⟩ : Record).a1 ∧
      (⟨0x05, 9, 1, 2, 3, 4, 5, 6⟩ : Record).ts = (⟨0x05, 8, 1, 2, 3, 4, 5, 6⟩ : Record).ts ∧
      (⟨0x04, 9, 9, 9, 3, 4, 5, 6⟩ : Record).ts = (⟨0x04, 8, 8, 8, 3, 4, 5, 6⟩ : Record).ts := by decide

theorem test_witness_StepRunsDecodedCommand :
    Presents (presenting (ready pingConfig) (plain 0x01)) (plain 0x01) [] [] ∧ decode (plain 0x01) = .command .reset ∧
      heldIn .reset (presenting (ready pingConfig) (plain 0x01)) = false :=
  ⟨presents (by decide), by decide, by decide⟩

/-- The fill at which the hold begins, one below it, and the other shapes. -/
theorem test_witness_HeldCommandWaits :
    (Legal (ringRunning 5 2).cfg ∧ Legal (pingRunning .armed 2).cfg ∧ Legal (queueRunning 1 0xFFFFFFFF false 2).cfg) ∧
    heldIn .push (ringRunning 5 2) = true ∧ heldIn .push (ringRunning 5 1) = false ∧
      heldIn .submit (pingRunning .armed 2) = true ∧ heldIn .push (queueRunning 1 0xFFFFFFFF false 2) = true ∧
      Presents (presenting (pingRunning .armed 2) (plain 0x13)) (plain 0x13) [] [] ∧
      decode (plain 0x13) = .command .push ∧ heldIn .push (presenting (pingRunning .armed 2) (plain 0x13)) = true :=
  ⟨⟨good_ring_held.legal, good_ping_armed.legal, good_queue_full.legal⟩, by decide, by decide, by decide, by decide,
    presents (by decide), by decide, by decide⟩

theorem test_witness_ReservedKindsAreDiscarded :
    Presents (presenting (ready pingConfig) (plain 0x06)) (plain 0x06) [] [] ∧
      (∀ k ∈ [0x06, 0x0F], 0x06 ≤ (plain k).b0.toNat ∧ (plain k).b0.toNat ≤ 0x0F) ∧
      ∀ k ∈ [0x18, 0xFF], 0x18 ≤ (plain k).b0.toNat :=
  ⟨presents (by decide), by decide, by decide⟩

theorem test_witness_LegalityAndCommandCount :
    (GoodState (failed pingConfig) ∧ heldIn .init (failed pingConfig) = false) ∧
      (GoodState (State.powerOn pingConfig) ∧ heldIn .push (State.powerOn pingConfig) = false) ∧
      (GoodState { ready pingConfig with stats := { Stats.zero with commandsProcessed := 0xFFFFFFFF } } ∧
        heldIn .resetStats { ready pingConfig with stats := { Stats.zero with commandsProcessed := 0xFFFFFFFF } } = false) :=
  ⟨⟨good_failed, by decide⟩, ⟨good_off, by decide⟩, goodState_of_check (by decide), by decide⟩

theorem test_witness_PassedOnKindsOnlyCount :
    ∀ k ∈ [0x00, 0x04, 0x05],
      Presents (presenting State.reset (plain k)) (plain k) [] [] ∧
        ((plain k).b0 = 0x00 ∨ (plain k).b0 = 0x04 ∨ (plain k).b0 = 0x05) :=
  fun k hk => ⟨presents (by decide), by revert k; decide⟩

theorem test_witness_PortOrderAndHandingOn :
    (∃ t, step (presenting (ready pingConfig) (plain 0x01)) = .next t) ∧
      (∃ t, step (presenting (ready pingConfig) (plain 0x12)) = .next t) ∧
      ∃ t, step (presenting (pingRunning .armed 2) (plain 0x13)) = .next t :=
  ⟨next_of_after (by decide), next_of_after (by decide), next_of_after (by decide)⟩

theorem test_witness_OtherAgentsTurns :
    Legal (ready pingConfig).cfg ∧ (ready pingConfig).turns = [] ∧
      (∀ t ∈ [Turn.dma, .sca (.fmCount 3), .sca (.psgCount (-1)), .sca (.fmSample 2 7), .sca (.psgSample 0 7),
          .env (.hwAvailable false), .env (.queueOverflows 0), .env (.maxQueueDepth 9)],
        ({ ready pingConfig with turns := [t] } : State).turns = t :: []) ∧
      2 < (ready pingConfig).cfg.cap ∧ 0 < (ready pingConfig).cfg.cap :=
  ⟨show legalConfig pingConfig = true by decide, rfl, by decide, by decide, by decide⟩

theorem test_witness_IllegalConfigurationIsRefused :
    instantiate { pingConfig with f := 3 } = none ∧ instantiate { ringConfig with preroll := 4 } = none ∧
      instantiate ({ ready pingConfig with cfg := { queueConfig with nbuf := 3 } } : State).cfg = none ∧
      instantiate { ringConfig with preroll := 3 } = some (State.powerOn { ringConfig with preroll := 3 }) := by decide

theorem test_witness_EnableSetsBitZero :
    (∃ t, exec (.enable 0xFE) (ready pingConfig) = .next t) ∧ ∃ t, exec (.enable 0xFF) (ready pingConfig) = .next t :=
  ⟨⟨_, rfl⟩, ⟨_, rfl⟩⟩

theorem test_witness_SetShiftSetsLowFourBits :
    ∃ t, exec (.setShift 0xFF) (pingRunning .refilling 2) = .next t ∧ (copiedFrame t)[1]? = some (both (-1)) :=
  ⟨_, rfl, by decide⟩

theorem test_witness_ResetZeroesFilterAndPrevious :
    (GoodState (State.powerOn pingConfig) ∧ (State.powerOn pingConfig).engine.blkState ≠ .ready) ∧
      (GoodState (failed pingConfig) ∧ (failed pingConfig).engine.blkState ≠ .ready) ∧
      Presents (presenting (ready pingConfig) (plain 0x01)) (plain 0x01) [] [] ∧ (plain 0x01).b0 = 0x01 :=
  ⟨⟨good_off, by decide⟩, ⟨good_failed, by decide⟩, presents (by decide), by decide⟩

theorem test_witness_InitBringsUp :
    (State.powerOn pingConfig).engine.blkState ≠ .failed ∧ (pingRunning .armed 1).engine.blkState ≠ .failed ∧
      (failed pingConfig).engine.blkState = .failed ∧ (pingRunning .armed 1).engine.blkState = .ready ∧
      ∃ u v t, exec .teardown (pingRunning .armed 1) = .next u ∧ exec .init u = .next v ∧
        exec .init (pingRunning .armed 1) = .next t :=
  ⟨by decide, by decide, by decide, by decide, _, _, _, rfl, rfl, rfl⟩

theorem test_witness_TeardownStopsAndZeroes :
    (pingRunning .armed 1).engine.blkState ≠ .failed ∧ (failed pingConfig).engine.blkState = .failed ∧
      GoodState (State.powerOn pingConfig) ∧ (State.powerOn pingConfig).engine.blkState = .off :=
  ⟨by decide, by decide, good_off, by decide⟩

theorem test_witness_ZeroingReachesEverything :
    (pingRunning .armed 1).engine.blkState ≠ .failed ∧ (∃ t, exec .init (pingRunning .armed 1) = .next t) ∧
      ∃ t, exec .teardown (pingRunning .armed 1) = .next t :=
  ⟨by decide, ⟨_, rfl⟩, ⟨_, rfl⟩⟩

theorem test_witness_ResetStatsZeroesSevenCounters :
    ∃ t u, exec .resetStats { ready pingConfig with stats := ⟨1, 2, 3, 4, 5, 6, 7⟩ } = .next t ∧
      exec .getStats t = .next u :=
  ⟨_, _, rfl, rfl⟩

theorem test_witness_FailedIsTerminal :
    (GoodState (presenting (failed pingConfig) (plain 0x15)) ∧
        (presenting (failed pingConfig) (plain 0x15)).engine.blkState = .failed ∧
        ∃ t, step (presenting (failed pingConfig) (plain 0x15)) = .next t) ∧
      (GoodState (presenting (failed pingConfig) (plain 0x10)) ∧
        (presenting (failed pingConfig) (plain 0x10)).engine.blkState = .failed ∧
        ∃ t, step (presenting (failed pingConfig) (plain 0x10)) = .next t) :=
  ⟨⟨goodState_of_check (by decide), by decide, next_of_after (by decide)⟩,
    goodState_of_check (by decide), by decide, next_of_after (by decide)⟩

/-- Counts of `CAP` and `N` agree below `N`; -1 and one above `CAP` are both no data; the elements at `N` and above differ. -/
theorem test_witness_MixReadsOnlyValidInputs :
    let s := withInput (ready pingConfig) 100 3 (-1)
    let inp : Input := ⟨2, 4, [(0, 100), (1, 100)], [(0, 5)]⟩
    Legal s.cfg ∧
      min (validCount s.cfg s.input.fmCount) s.cfg.n = min (validCount s.cfg inp.fmCount) s.cfg.n ∧
      min (validCount s.cfg s.input.psgCount) s.cfg.n = min (validCount s.cfg inp.psgCount) s.cfg.n ∧
      (∀ i, i < min (validCount s.cfg s.input.fmCount) s.cfg.n → s.input.fmIn.read i = inp.fmIn.read i) ∧
      (∀ i, i < min (validCount s.cfg s.input.psgCount) s.cfg.n → s.input.psgIn.read i = inp.psgIn.read i) ∧
      ∃ t, exec .mix s = .next t :=
  ⟨show legalConfig pingConfig = true by decide, by decide, by decide, by decide, by decide, next_of_after (by decide)⟩

theorem test_witness_PremixIsMonotoneAndNearlyOdd : (-32768 : Int) + -32768 ≤ 32767 + 32767 := by decide

/-- The last difference that takes the normal shift and the first that takes the click shift; a state just below the fixed
points, the lowest fixed point, and one above them. -/
theorem test_witness_LowPassConvergesWithoutOvershoot :
    (2 : Nat) = (if ((Config.default.clickThreshold : Nat) : Int) < |(4096 : Int) - 0| then Config.default.shiftClick
        else Config.default.shiftNormal) ∧
      (4 : Nat) = (if ((Config.default.clickThreshold : Nat) : Int) < |(4097 : Int) - 0| then Config.default.shiftClick
        else Config.default.shiftNormal) ∧
      (96 : Int) < 100 - (2 ^ 2 - 1) ∧ ¬ (97 : Int) < 100 - (2 ^ 2 - 1) ∧ (100 : Int) < 101 := by decide

theorem test_witness_CrossfadeRampsFromPrevious :
    Config.default.f ≤ 32 ∧ 31 < Config.default.f ∧ 0 < Config.default.f := by decide

theorem test_witness_SoftLimiterLaw :
    ({ Config.default with limEn := false } : Config).limEn = false ∧ Config.default.limEn = true ∧
      |(24576 : Int)| ≤ ((Config.default.limT : Nat) : Int) ∧ ((Config.default.limT : Nat) : Int) < 24577 ∧
      (-24577 : Int) < -((Config.default.limT : Nat) : Int) ∧ (-32768 : Int) ≤ -32768 ∧ (32767 : Int) ≤ 32767 := by
  decide

theorem test_witness_MuteFadeReachesZero : (0 : Int) ≤ 0 ∧ (-1 : Int) ≠ 0 ∧ (-5 : Int).natAbs ≤ 5 := by decide

/-- Both ends of the filter's range, and the two ways out of `Ready`. -/
theorem test_witness_MixComputesTheFrame :
    (State.powerOn pingConfig).engine.blkState ≠ .ready ∧
      ∀ v ∈ [-32768, 32767],
        let s := { withInput (ready pingConfig) 100 2 0 with mixer := ⟨toWord32 v, 0, 0, []⟩ }
        legalConfig s.cfg = true ∧ s.engine.blkState = .ready ∧ -32768 ≤ s.mixer.lpfState.toInt ∧
          s.mixer.lpfState.toInt ≤ 32767 := by decide

theorem test_witness_DisabledFrameFades :
    let s := { ready pingConfig with control := ⟨128, false, 0⟩, mixer := ⟨toWord32 (-32768), 0, 0, []⟩ }
    legalConfig s.cfg = true ∧ s.engine.blkState = .ready ∧ s.control.enable = false ∧
      -32768 ≤ s.mixer.lpfState.toInt ∧ s.mixer.lpfState.toInt ≤ 32767 := by decide

theorem test_witness_StartupFramesAreSilent :
    let c : Config := { pingConfig with startupFrames := 2 }
    let s : State := { ready c with mixer := ⟨0, 0, 1, []⟩ }
    Legal s.cfg ∧ s.engine.blkState = .ready ∧ s.mixer.startupCtr.toNat < s.cfg.startupFrames ∧
      ∃ t', exec .mix { s with mixer := { s.mixer with startupCtr := 2 } } = .next t' :=
  ⟨show legalConfig { pingConfig with startupFrames := 2 } = true by decide, by decide, by decide,
    next_of_after (by decide)⟩

theorem test_witness_OutputStaysWithinTheLimits :
    let s := withInput (ready pingConfig) 32767 2 0
    Legal s.cfg ∧ s.engine.blkState = .ready ∧ s.cfg.limEn = true ∧ -32768 ≤ s.mixer.lpfState.toInt ∧
      s.mixer.lpfState.toInt ≤ 32767 ∧ ∃ t, exec .mix s = .next t :=
  ⟨show legalConfig pingConfig = true by decide, by decide, by decide, by decide, by decide, next_of_after (by decide)⟩

/-- Admitted exactly at the bound, and before the start. -/
theorem test_witness_PushWritesTheRing :
    (GoodState (ringRunning 5 1) ∧ (ringRunning 5 1).engine.blkState = .ready ∧ (ringRunning 5 1).cfg.shape = .ring ∧
        ringFill ringConfig (ringRunning 5 1).engine + ringConfig.n = ringConfig.ringSize - ringConfig.minHeadroom) ∧
      GoodState (oncePushed ringConfig) ∧ (oncePushed ringConfig).engine.blkState = .ready ∧
        ringFill ringConfig (oncePushed ringConfig).engine + ringConfig.n ≤
          ringConfig.ringSize - ringConfig.minHeadroom :=
  ⟨⟨good_ring_room, by decide, by decide, by decide⟩, good_once_ring, by decide, by decide⟩

theorem test_witness_PushFillsThePingpongBuffer :
    ∀ s ∈ [ready pingConfig, oncePushed pingConfig, pingRunning .refilling 1, pingRunning .idle 2],
      GoodState s ∧ s.engine.blkState = .ready ∧ s.cfg.shape = .pingpong ∧ heldIn .push s = false := by
  intro s hs
  refine ⟨goodState_of_check ?_, ?_⟩ <;> revert s <;> decide

theorem test_witness_PushFillsTheNextBuffer :
    ∀ s ∈ [ready queueConfig, oncePushed queueConfig, queueRunning 1 0 false 1, queueRunning 3 3 true 1],
      GoodState s ∧ s.engine.blkState = .ready ∧ s.cfg.shape = .nbuf ∧
        (s.engine.wrCnt - s.engine.rdCnt).toNat ≠ s.cfg.nbuf := by
  intro s hs
  refine ⟨goodState_of_check ?_, ?_⟩ <;> revert s <;> decide

theorem test_witness_PushBeforeTheStartIsAdmitted :
    (failed pingConfig).engine.blkState ≠ .ready ∧
      ∀ s ∈ [oncePushed ringConfig, oncePushed pingConfig, oncePushed queueConfig, State.powerOn pingConfig],
        GoodState s ∧ s.engine.running = false := by
  refine ⟨by decide, fun s hs => ⟨goodState_of_check ?_, ?_⟩⟩ <;> revert s <;> decide

theorem test_witness_PushNeverWritesUnreadElements :
    GoodState (ringRunning 5 1) ∧ (ringRunning 5 1).engine.blkState = .ready ∧ heldIn .push (ringRunning 5 1) = false ∧
      (∃ t, exec .push (ringRunning 5 1) = .next t) ∧ unread ringConfig (ringRunning 5 1).engine 0 :=
  ⟨good_ring_room, by decide, by decide, next_of_after (by decide), 3, by decide⟩

theorem test_witness_SubmitIsMixThenPush :
    heldIn .submit (pingRunning .armed 1) = true ∧ (failed pingConfig).engine.blkState ≠ .ready ∧
      GoodState (pingRunning .refilling 1) ∧ (pingRunning .refilling 1).engine.blkState = .ready ∧
      heldIn .submit (pingRunning .refilling 1) = false :=
  ⟨by decide, by decide, good_ping_late, by decide, by decide⟩

theorem test_witness_PushAppendsTheFrame :
    ∀ s ∈ [ringRunning 5 1, pingRunning .refilling 1, queueRunning 1 0 false 1, oncePushed queueConfig],
      GoodState s ∧ s.engine.blkState = .ready ∧ heldIn .push s = false := by
  intro s hs
  refine ⟨goodState_of_check ?_, ?_⟩ <;> revert s <;> decide

theorem test_witness_TickEmitsExactlyOne :
    (GoodState (ringRunning 2 2) ∧ (ringRunning 2 2).engine.blkState = .ready ∧
        (ringRunning 2 2).engine.running = true) ∧
      ¬ ((ready pingConfig).engine.blkState = .ready ∧ (ready pingConfig).engine.running = true) :=
  ⟨⟨good_ring_empty, by decide, by decide⟩, by decide⟩

/-- The last index of the ring, and the empty ring. -/
theorem test_witness_RingTick :
    (GoodState (ringRunning 7 2) ∧ (ringRunning 7 2).cfg.shape = .ring ∧ (ringRunning 7 2).engine.running = true ∧
        ringFill ringConfig (ringRunning 7 2).engine ≠ 0) ∧
      GoodState (ringRunning 2 2) ∧ ringFill ringConfig (ringRunning 2 2).engine = 0 :=
  ⟨⟨goodState_of_check (by decide), by decide, by decide, by decide⟩, good_ring_empty, by decide⟩

theorem test_witness_PingpongTick :
    (GoodState (pingRunning .idle 2) ∧ (pingRunning .idle 2).cfg.shape = .pingpong ∧
        (pingRunning .idle 2).engine.running = true ∧ (pingRunning .idle 2).engine.playing = 0 ∧
        (pingRunning .idle 2).engine.bufDesc 0 = ⟨0, 2⟩) ∧
      (GoodState (pingRunning .armed 1) ∧ (pingRunning .armed 1).engine.bufDesc 0 = ⟨1, 1⟩) ∧
      GoodState (pingRunning .refilling 1) ∧ (pingRunning .refilling 1).engine.bufDesc 0 = ⟨1, 1⟩ :=
  ⟨⟨good_ping_midway, by decide, by decide, by decide, by decide⟩, ⟨good_ping_armed, by decide⟩,
    good_ping_late, by decide⟩

theorem test_witness_QueueTick :
    (GoodState (queueRunning 1 0xFFFFFFFF false 2) ∧ (queueRunning 1 0xFFFFFFFF false 2).cfg.shape = .nbuf ∧
        (queueRunning 1 0xFFFFFFFF false 2).engine.running = true ∧
        (queueRunning 1 0xFFFFFFFF false 2).engine.desc.count ≠ 1) ∧
      (GoodState (queueRunning 1 0 false 1) ∧ (queueRunning 1 0 false 1).engine.desc.count = 1) ∧
      GoodState (queueRunning 3 3 true 1) ∧ (queueRunning 3 3 true 1).engine.desc.count = 1 :=
  ⟨⟨good_queue_full, by decide, by decide, by decide⟩, ⟨good_queue_last, by decide⟩, good_queue_silent_empty, by decide⟩

theorem test_witness_TickPlaysWhatIsPending :
    ∀ s ∈ [ringRunning 2 2, ringRunning 7 2, pingRunning .refilling 1, pingRunning .armed 1, queueRunning 1 0 false 1,
        queueRunning 3 3 true 1],
      GoodState s ∧ s.engine.running = true := by
  intro s hs
  refine ⟨goodState_of_check ?_, ?_⟩ <;> revert s <;> decide

theorem test_witness_OneBufferPeriodOfTicks :
    ∀ s ∈ [ringRunning 2 2, pingRunning .refilling 1, queueRunning 1 0 false 1],
      GoodState s ∧ s.engine.running = true := by
  intro s hs
  refine ⟨goodState_of_check ?_, ?_⟩ <;> revert s <;> decide

theorem test_witness_EveryHoldEnds :
    ∀ s ∈ [ringRunning 5 2, ringRunning 6 4, pingRunning .armed 1, queueRunning 1 0xFFFFFFFF false 2,
        queueRunning 2 0 true 2],
      GoodState s ∧ heldIn .push s = true ∧ heldIn .submit s = true := by
  intro s hs
  refine ⟨goodState_of_check ?_, ?_⟩ <;> revert s <;> decide

theorem test_witness_AgentsKeepToTheirFields :
    (∃ t, tick (pingRunning .refilling 1) = .next t) ∧ GoodState (oncePushed pingConfig) ∧
      ∃ t, exec .push (oncePushed pingConfig) = .next t :=
  ⟨next_of_after (by decide), good_once_ping, next_of_after (by decide)⟩

theorem test_witness_StepKeepsGoodState :
    GoodState { pingRunning .refilling 1 with turns := [.dma, .sca (.fmSample 2 1)] } ∧
      ∃ t, step { pingRunning .refilling 1 with turns := [.dma, .sca (.fmSample 2 1)] } = .next t :=
  ⟨goodState_of_check (by decide), next_of_after (by decide)⟩

theorem test_witness_PowerOnIsGood : Legal pingConfig ∧ Legal ringConfig ∧ Legal queueConfig ∧ Legal .default := by
  refine ⟨?_, ?_, ?_, ?_⟩ <;> (unfold Legal; decide)

theorem test_witness_StepNeverStops :
    GoodState (presenting (ringRunning 6 4) (plain 0x14)) ∧ GoodState State.reset :=
  ⟨goodState_of_check (by decide), goodState_of_check (by decide)⟩

theorem test_witness_StreamsOnlyGrow :
    (∃ t, step { pingRunning .armed 1 with turns := [.dma] } = .next t) ∧
      ∃ t, step (presenting (ready pingConfig) (plain 0x15)) = .next t :=
  ⟨next_of_after (by decide), next_of_after (by decide)⟩

theorem test_witness_CountersNeverDecrease :
    (∃ t, step (presenting { ready pingConfig with stats := ⟨1, 2, 3, 4, 5, 6, 7⟩ } (plain 0x16)) = .next t) ∧
      ∃ t, step (presenting { ready pingConfig with stats := ⟨1, 2, 0xFFFFFFFF, 4, 5, 6, 7⟩ } (plain 0x01)) = .next t :=
  ⟨next_of_after (by decide), next_of_after (by decide)⟩

theorem test_witness_OutputIsMono :
    let s : State := { pingRunning .armed 1 with turns := [.dma], outStream := [both 9] }
    GoodState s ∧ (∃ t, step s = .next t) ∧ ∀ p ∈ s.outStream, p.l = p.r :=
  ⟨goodState_of_check (by decide), next_of_after (by decide), by decide⟩

theorem test_witness_RingWrapsByMasking : Legal ringConfig ∧ ringConfig.shape = .ring :=
  ⟨show legalConfig ringConfig = true by decide, by decide⟩

end Sys2Proof.Tests
end

section
/-! PROOFS. The constraints of 00_scope.md R10 as an equivalence with legality, and the refusal of R11. -/

namespace Sys2Proof.Machine

/-- The shape's own check is its three implications: of the constraints of R10 for ring, ping-pong and N-buffer only those of
the shape that is built can fail. -/
theorem shapeLegal_iff (c : Config) : shapeLegal c = true ↔
    (c.shape = .ring → (∃ k, c.ringSize = 2 ^ k) ∧ c.n ≤ c.minHeadroom ∧ c.minHeadroom < c.ringSize ∧
      c.preroll * c.n ≤ c.ringSize - c.minHeadroom) ∧
    (c.shape = .pingpong → c.bufLen = c.n ∧ c.preroll ≤ 2) ∧
    (c.shape = .nbuf →
      (∃ k, c.nbuf = 2 ^ k) ∧ c.bufLen = c.n ∧ 2 ≤ c.nbuf ∧ c.nbuf < 2 ^ 32 ∧ c.preroll ≤ c.nbuf) := by
  cases hs : c.shape with
  | ring => simp [shapeLegal, hs, isPowerOfTwo_iff]
  | pingpong => simp [shapeLegal, hs]
  | nbuf => simp [shapeLegal, hs, isPowerOfTwo_iff]

theorem legal_iff_common_and_shape (c : Config) : Legal c ↔ commonLegal c = true ∧ shapeLegal c = true :=
  Bool.and_eq_true_iff

theorem instantiate_of_legal {c : Config} (h : Legal c) : instantiate c = some (State.powerOn c) := if_pos h

theorem instantiate_of_not_legal {c : Config} (h : ¬ Legal c) : instantiate c = none := if_neg h

theorem instantiate_eq_powerOn_iff (c : Config) : instantiate c = some (State.powerOn c) ↔ Legal c := by
  refine ⟨fun h => ?_, instantiate_of_legal⟩
  by_contra hl
  simp [instantiate_of_not_legal hl] at h

theorem instantiate_eq_none_iff (c : Config) : instantiate c = none ↔ ¬ Legal c := by
  refine ⟨fun h hl => ?_, instantiate_of_not_legal⟩
  simp [instantiate_of_legal hl] at h

/-- The refusal of R11 in its form per step (log 2): it comes before any turn, whatever the rest of the state holds. -/
theorem step_of_not_legal {s : State} (h : ¬ Legal s.cfg) : step s = .refused .illegalConfiguration := if_neg h

/-- Settles O13: instantiation answers exactly on the legal configurations, legality is the constraints of R10 written out,
and a step from an illegal configuration is refused. -/
theorem illegalConfigurationIsRefused : Obligations.IllegalConfigurationIsRefused := by
  refine ⟨fun c => ⟨?_, ?_⟩, fun s h => step_of_not_legal ((instantiate_eq_none_iff s.cfg).1 h)⟩
  · rw [instantiate_eq_powerOn_iff, legal_iff_common_and_shape, shapeLegal_iff]
    simp only [commonLegal, decide_eq_true_eq, and_assoc, Nat.reducePow]
  · by_cases hl : Legal c
    · exact .inr (instantiate_of_legal hl)
    · exact .inl (instantiate_of_not_legal hl)

end Sys2Proof.Machine
end

section
/-! PROOFS. Spaces of pairs under the block's writes (10_state.md R49 item 4), the invariants of the zeroed block, and the good
state after power-on reset (R50). -/

namespace Sys2Proof.Machine

/-! ### Spaces of pairs -/

/-- Both halves of every element are equal (R49 item 4). -/
def MonoFrame (vs : List Pair) : Prop := ∀ p ∈ vs, p.l = p.r

theorem MonoFrame.getD {vs : List Pair} (h : MonoFrame vs) (j : Nat) : (vs.getD j .silent).l = (vs.getD j .silent).r := by
  rw [List.getD_eq_getElem?_getD]
  rcases Nat.lt_or_ge j vs.length with hj | hj
  · simpa [List.getElem?_eq_getElem hj] using h _ (List.getElem_mem hj)
  · simp [List.getElem?_eq_none hj, Pair.silent]

theorem monoFrame_silence (n : Nat) : MonoFrame (silence n) := fun p hp => by
  rw [List.eq_of_mem_replicate hp]; rfl

theorem monoFrame_map_stereo (vs : List Int) : MonoFrame (vs.map stereo) := fun p hp => by
  obtain ⟨v, -, rfl⟩ := List.mem_map.1 hp; rfl

theorem pairSpace_nil (size : Nat) : PairSpace [] size := ⟨Memory.wf_nil, Memory.within_nil size, fun _ => rfl⟩

theorem PairSpace.writeBlock {m : Memory Pair} {size i : Nat} {vs : List Pair} (h : PairSpace m size) (hvs : MonoFrame vs)
    (hi : i + vs.length ≤ size) : PairSpace (m.writeBlock i vs) size where
  wf := Memory.wf_writeBlock h.wf i vs
  within := Memory.within_writeBlock h.within hi
  mono k := by
    rw [Memory.read_writeBlock]
    split
    · exact hvs.getD _
    · exact h.mono k

theorem PairSpace.writeRing {c : Config} {m : Memory Pair} {vs : List Pair} (h : PairSpace m c.ringSize) (h0 : 0 < c.ringSize)
    (p : Nat) (hvs : MonoFrame vs) (hlen : vs.length ≤ c.ringSize) : PairSpace (writeRing c m p vs) c.ringSize where
  wf := wf_writeRing h.wf p vs
  within := within_writeRing h.within h0 p hlen
  mono k := by
    rw [read_writeRing m p k vs h0 hlen]
    split
    · exact hvs.getD _
    · exact h.mono k

/-! ### The zeroed block -/

/-- The engine that power-on reset, INIT and TEARDOWN leave in block state `b`: zeroed, the interrupt enabled exactly in
`Ready` (R50, R191, R193, R194). -/
def Engine.zeroed (c : Config) (b : BlkState) : Engine :=
  { Engine.reset c with blkState := b, irqEn := decide (b = .ready) }

theorem Engine.reset_eq_zeroed (c : Config) : Engine.reset c = .zeroed c .off := rfl

theorem legal_bufLen_pos {c : Config} (h : Legal c) (hs : c.shape ≠ .ring) : 1 ≤ c.bufLen := by
  have hn := legal_n_pos h
  cases hc : c.shape with
  | ring => exact absurd hc hs
  | pingpong => have := (legal_pingpong h hc).1; omega
  | nbuf => have := (legal_nbuf h hc).2.1; omega

theorem legal_ringSize_pos {c : Config} (h : Legal c) (hs : c.shape = .ring) : 0 < c.ringSize := by
  have := (legal_ring h hs).2.2.1; omega

theorem descInv_armed {c : Config} (h : 1 ≤ c.bufLen) : DescInv c (.armed c) := ⟨Nat.zero_add _, h⟩

theorem shapeInv_zeroed {c : Config} (h : Legal c) (b : BlkState) : ShapeInv c (.zeroed c b) := by
  have noRing : NoRing (.zeroed c b) := ⟨rfl, rfl⟩
  have noPingpong : NoPingpong c (.zeroed c b) := ⟨rfl, rfl, rfl, rfl, rfl⟩
  have noQueue : NoQueue c (.zeroed c b) := ⟨rfl, rfl, rfl, rfl⟩
  unfold ShapeInv
  cases hs : c.shape with
  | ring =>
    have h0 := legal_ringSize_pos h hs
    have hfill : ringFill c (.zeroed c b) = 0 := by rw [ringFill_eq h0 h0]; rfl
    exact ⟨h0, h0, by omega, rfl, fun _ => ⟨rfl, (Nat.zero_mul _).symm⟩, noPingpong, noQueue⟩
  | pingpong =>
    have hd := descInv_armed (legal_bufLen_pos h (by simp [hs]))
    exact ⟨nofun, nofun, hd, rfl, fun _ => ⟨rfl, rfl, rfl, rfl⟩, rfl, noRing, noQueue⟩
  | nbuf =>
    have hd := descInv_armed (legal_bufLen_pos h (by simp [hs]))
    have hfill : queueFill (.zeroed c b) = 0 := by simp [queueFill, Engine.zeroed, Engine.reset]
    exact ⟨by omega, hd, nofun, rfl, fun _ => ⟨rfl, rfl, rfl, rfl⟩, noRing, noPingpong⟩

theorem engineInv_zeroed {c : Config} (h : Legal c) (b : BlkState) : EngineInv c (.zeroed c b) where
  region := pairSpace_nil _
  ready := nofun
  irqEn := rfl
  irqPend0 := rfl
  irqPend1 := rfl
  preroll _ := legal_preroll_pos h
  started := nofun
  shape := shapeInv_zeroed h b

theorem mixerInv_reset (c : Config) : MixerInv c .reset where
  lpf_ge := by decide
  lpf_le := by decide
  startup_le := Nat.zero_le _
  outBuf := pairSpace_nil _

/-- Outside `Ready` the zeroed engine is the reset engine but for `BLK_STATE`, its interrupt enable at 0. -/
theorem Engine.zeroed_of_ne_ready {c : Config} {b : BlkState} (h : b ≠ .ready) :
    Engine.zeroed c b = { Engine.reset c with blkState := b } := by
  simp [Engine.zeroed, Engine.reset, h]

theorem goodState_powerOn {c : Config} (h : Legal c) : GoodState (State.powerOn c) where
  legal := h
  volume_le := le_refl 128
  input := ⟨⟨Memory.wf_nil, Memory.within_nil _⟩, ⟨Memory.wf_nil, Memory.within_nil _⟩⟩
  mixer := mixerInv_reset c
  engine := engineInv_zeroed h .off
  stopped _ := ⟨rfl, rfl⟩
  turns := nofun

theorem legal_defaultOf (shape : Shape) : Legal (.defaultOf shape) := by
  unfold Legal
  cases shape with
  | ring => decide
  | pingpong => decide
  | nbuf => decide

/-- Settles O51: power-on reset is good under every legal configuration, hence under the defaults, which are legal. -/
theorem powerOnIsGood : Obligations.PowerOnIsGood :=
  ⟨fun _ => goodState_powerOn, legal_defaultOf, goodState_powerOn (legal_defaultOf .pingpong)⟩

end Sys2Proof.Machine
end

section
/-! PROOFS. What each command, a tick and an agent's turn can do to the whole state; what follows for the configuration, the
two streams (10_state.md R46, R47) and the counters (R41) from any state, good or not. -/

namespace Sys2Proof.Machine

/-! ### Commands -/

theorem bringUp_eq (s : State) :
    bringUp s = respond (if s.hwAvailable then 0 else 1)
      { s with mixer := .reset, engine := .zeroed s.cfg (if s.hwAvailable then .ready else .failed) } := by
  unfold bringUp
  split <;> rfl

/-- INIT in `Ready` runs TEARDOWN first (R192), which zeroes nothing that INIT does not zero itself. -/
theorem bringUp_tearDown (s : State) : bringUp (tearDown s) = bringUp s := by
  simp only [bringUp_eq, tearDown_hwAvailable, tearDown_cfg]; rfl

/-- What the command `i` does where it answers, as the next state it gives: one equation, or one per guard that it has. -/
def CommandEffect (s t : State) : Instr → Prop
  | .regwrite _ _ _ _ => t = countCommand s
  | .reset => t = countCommand { s with mixer := { s.mixer with lpfState := 0, prevOut := 0 } }
  | .volume a0 => t = countCommand { s with control := { s.control with volume := volumeOperand a0 } }
  | .enable a0 => t = countCommand { s with control := { s.control with enable := enableOperand a0 } }
  | .framesync _ => t = countCommand s
  | .dacsample _ _ => t = countCommand s
  | .init => (s.engine.blkState = .failed ∧ t = s) ∨ (s.engine.blkState ≠ .failed ∧ t = countCommand (bringUp s))
  | .teardown => (s.engine.blkState = .failed ∧ t = s) ∨ (s.engine.blkState ≠ .failed ∧ t = countCommand (tearDown s))
  | .mix =>
    (s.engine.blkState ≠ .ready ∧ t = s) ∨
      (s.engine.blkState = .ready ∧
        ∃ m, mixFrame s.cfg s.control s.input s.mixer = some m ∧ t = countCommand { s with mixer := m })
  | .push =>
    ((s.engine.blkState ≠ .ready ∨ pushHeld s.cfg s.engine = true) ∧ t = s) ∨
      (s.engine.blkState = .ready ∧ pushHeld s.cfg s.engine = false ∧
        ∃ e, publishFrame s.cfg (copiedFrame s) s.engine = some e ∧
          t = countCommand (countFilled { s with engine := prerollStep s.cfg e }))
  | .submit =>
    ((s.engine.blkState ≠ .ready ∨ pushHeld s.cfg s.engine = true) ∧ t = s) ∨
      (s.engine.blkState = .ready ∧ pushHeld s.cfg s.engine = false ∧
        ∃ m e, mixFrame s.cfg s.control s.input s.mixer = some m ∧
          publishFrame s.cfg (copiedFrame { s with mixer := m }) s.engine = some e ∧
          t = countCommand (countFilled { s with mixer := m, engine := prerollStep s.cfg e }))
  | .getStats => t = countCommand { s with respStream := s.respStream ++ statsWords s.stats }
  | .resetStats => t = { s with stats := .zero }
  | .setShift a0 => t = countCommand { s with control := { s.control with dmaShift := shiftOperand a0 } }

theorem execInit_eq_next {s t : State} (h : execInit s = .next t) : CommandEffect s t .init := by
  rcases ifLegal_eq_next h with ⟨hl, h⟩ | ⟨hl, rfl⟩
  · refine .inr ⟨by simpa [legalIn] using hl, ?_⟩
    rw [← Host.Outcome.next.inj h]
    split
    · rw [bringUp_tearDown]
    · rfl
  · exact .inl ⟨by simpa [legalIn] using hl, rfl⟩

theorem execTeardown_eq_next {s t : State} (h : execTeardown s = .next t) : CommandEffect s t .teardown := by
  rcases ifLegal_eq_next h with ⟨hl, h⟩ | ⟨hl, rfl⟩
  · exact .inr ⟨by simpa [legalIn] using hl, (Host.Outcome.next.inj h).symm⟩
  · exact .inl ⟨by simpa [legalIn] using hl, rfl⟩

theorem execGetStats_eq (s : State) :
    execGetStats s = .next (countCommand { s with respStream := s.respStream ++ statsWords s.stats }) := by
  rw [execGetStats, foldl_respond]

/-- What a command can do, said once: the inversion of `exec`. -/
theorem exec_effect {i : Instr} {s t : State} (h : exec i s = .next t) : CommandEffect s t i := by
  cases i with
  | regwrite chip port data ts => exact (Host.Outcome.next.inj h).symm
  | reset => exact (Host.Outcome.next.inj h).symm
  | volume a0 => exact (Host.Outcome.next.inj h).symm
  | enable a0 => exact (Host.Outcome.next.inj h).symm
  | framesync cycle => exact (Host.Outcome.next.inj h).symm
  | dacsample d ts => exact (Host.Outcome.next.inj h).symm
  | init => exact execInit_eq_next h
  | teardown => exact execTeardown_eq_next h
  | mix => exact execMix_eq_next h
  | push => exact execPush_eq_next h
  | submit => exact execSubmit_eq_next h
  | getStats => exact (Host.Outcome.next.inj ((execGetStats_eq s).symm.trans h)).symm
  | resetStats => exact (Host.Outcome.next.inj h).symm
  | setShift a0 => exact (Host.Outcome.next.inj h).symm

/-- What every command leaves alone: the configuration, the input, the output stream, the schedule, and the responses so
far. -/
structure CommandFrame (s t : State) : Prop where
  cfg : t.cfg = s.cfg
  input : t.input = s.input
  outStream : t.outStream = s.outStream
  turns : t.turns = s.turns
  responses : ∃ ws, t.respStream = s.respStream ++ ws

theorem CommandFrame.refl (s : State) : CommandFrame s s := ⟨rfl, rfl, rfl, rfl, [], (List.append_nil _).symm⟩

/-- Counting a command, or a filled buffer, keeps the frame. -/
theorem CommandFrame.counted {s t : State} (h : CommandFrame s t) : CommandFrame s (countCommand t) :=
  ⟨h.cfg, h.input, h.outStream, h.turns, h.responses⟩

theorem CommandFrame.filled {s t : State} (h : CommandFrame s t) : CommandFrame s (countFilled t) :=
  ⟨h.cfg, h.input, h.outStream, h.turns, h.responses⟩

/-- A command that writes the control, mixer, engine or statistics registers alone keeps the frame. -/
theorem CommandFrame.registers (s : State) (k : Control) (m : Mixer) (e : Engine) (st : Stats) :
    CommandFrame s { s with control := k, mixer := m, engine := e, stats := st } :=
  ⟨rfl, rfl, rfl, rfl, [], (List.append_nil _).symm⟩

theorem commandFrame_bringUp (s : State) : CommandFrame s (bringUp s) := by
  rw [bringUp_eq]; exact ⟨rfl, rfl, rfl, rfl, _, rfl⟩

theorem exec_frame {i : Instr} {s t : State} (h : exec i s = .next t) : CommandFrame s t := by
  have he := exec_effect h
  cases i with
  | regwrite chip port data ts => cases he; exact (CommandFrame.refl s).counted
  | reset => cases he; exact (CommandFrame.registers s _ _ _ _).counted
  | volume a0 => cases he; exact (CommandFrame.registers s _ _ _ _).counted
  | enable a0 => cases he; exact (CommandFrame.registers s _ _ _ _).counted
  | framesync cycle => cases he; exact (CommandFrame.refl s).counted
  | dacsample d ts => cases he; exact (CommandFrame.refl s).counted
  | init =>
    obtain ⟨-, rfl⟩ | ⟨-, rfl⟩ := he
    · exact .refl t
    · exact (commandFrame_bringUp s).counted
  | teardown =>
    obtain ⟨-, rfl⟩ | ⟨-, rfl⟩ := he
    · exact .refl t
    · exact (CommandFrame.registers s _ _ _ _).counted
  | mix =>
    obtain ⟨-, rfl⟩ | ⟨-, m, -, rfl⟩ := he
    · exact .refl t
    · exact (CommandFrame.registers s _ _ _ _).counted
  | push =>
    obtain ⟨-, rfl⟩ | ⟨-, -, e, -, rfl⟩ := he
    · exact .refl t
    · exact (CommandFrame.registers s _ _ _ _).filled.counted
  | submit =>
    obtain ⟨-, rfl⟩ | ⟨-, -, m, e, -, -, rfl⟩ := he
    · exact .refl t
    · exact (CommandFrame.registers s _ _ _ _).filled.counted
  | getStats => cases he; exact CommandFrame.counted ⟨rfl, rfl, rfl, rfl, _, rfl⟩
  | resetStats => cases he; exact CommandFrame.registers s _ _ _ _
  | setShift a0 => cases he; exact (CommandFrame.registers s _ _ _ _).counted

/-! ### Ticks -/

/-- The statistics after one enabled tick: one sample emitted, an interrupt and an underrun counted where there was one. -/
def Stats.ticked (irq underrun : Bool) (st : Stats) : Stats :=
  { st with
    samplesEmitted := satInc32 st.samplesEmitted
    irqCount := if irq then satInc32 st.irqCount else st.irqCount
    underruns := if underrun then satInc32 st.underruns else st.underruns }

/-- The state after one enabled tick: a new engine, one element `v` emitted, the statistics; nothing else moves. -/
def State.ticked (e : Engine) (v : Pair) (irq underrun : Bool) (s : State) : State :=
  { s with engine := e, stats := s.stats.ticked irq underrun, outStream := s.outStream ++ [v] }

/-- The ring's engine after a tick: silence inserted first where the fill was 0, then one element read (R151, R152). -/
def ringTicked (c : Config) (e : Engine) : Engine :=
  let fed := if ringFill c e = 0 then insertSilence c e else e
  { fed with rdPos := wrapPos c (fed.rdPos + 1) }

theorem tickRing_ticked {s t : State} (h : tickRing s = .next t) :
    ∃ v, t = s.ticked (ringTicked s.cfg s.engine) v false (decide (ringFill s.cfg s.engine = 0)) := by
  obtain ⟨u, hu, -, rfl⟩ := tickRing_eq_next h
  refine ⟨u.engine.region.read u.engine.rdPos, ?_⟩
  by_cases hf : ringFill s.cfg s.engine = 0
  · rw [if_pos hf] at hu
    subst hu
    simp only [State.ticked, Stats.ticked, ringTicked, hf]; rfl
  · rw [if_neg hf] at hu
    subst hu
    simp only [State.ticked, Stats.ticked, ringTicked, hf]; rfl

/-- The ping-pong engine after the service of `p`'s completion: `p` re-armed and `Refilling`, the other buffer playing,
zeroed first where it had no fresh data (R158, R159). -/
def servicedBuffer (c : Config) (p : Fin 2) (e : Engine) : Engine :=
  let rearmed := (e.setBufDesc p (.armed c)).setBst p .refilling
  let ready := if e.bst (otherBuffer p) = .armed then rearmed else silenceBuffer c (otherBuffer p) rearmed
  { ready.setBst (otherBuffer p) .playing with playing := otherBuffer p }

theorem serviceBuffer_eq (p : Fin 2) (s : State) :
    serviceBuffer p s =
      { s with
        engine := servicedBuffer s.cfg p s.engine
        stats := { s.stats with
          underruns := if s.engine.bst (otherBuffer p) = .armed then s.stats.underruns
            else satInc32 s.stats.underruns } } := by
  have hb : (rearm p s).engine.bst (otherBuffer p) = s.engine.bst (otherBuffer p) := by
    simp [bst_setBst, otherBuffer_ne]
  by_cases h : s.engine.bst (otherBuffer p) = .armed
  · simp only [serviceBuffer, checkDeadline, servicedBuffer, hb, h, if_true]; rfl
  · simp only [serviceBuffer, checkDeadline, servicedBuffer, hb, h, if_false]; rfl

/-- The completion interrupt of buffer `p`, if it is taken: the service between the request and its clearing, counted. -/
theorem takeInterrupt_serviceBuffer {p : Fin 2} {s t : State} (h : takeInterrupt p (serviceBuffer p) s = .next t) :
    t = { s with
      engine := (servicedBuffer s.cfg p (s.engine.setIrqPend p true)).setIrqPend p false
      stats := { s.stats with
        irqCount := satInc32 s.stats.irqCount
        underruns := if s.engine.bst (otherBuffer p) = .armed then s.stats.underruns
          else satInc32 s.stats.underruns } } := by
  obtain ⟨-, rfl⟩ := takeInterrupt_eq_next h
  simp only [serviceBuffer_eq, countIrq, bst_setIrqPend]

/-- The ping-pong engine after a tick that plays the last element of buffer `p`. -/
def completedBuffer (c : Config) (p : Fin 2) (e : Engine) : Engine :=
  (servicedBuffer c p ((e.setBufDesc p (e.bufDesc p).advance).setIrqPend p true)).setIrqPend p false

theorem tickPingpong_ticked {s t : State} (h : tickPingpong s = .next t) :
    ∃ v, ((s.engine.bufDesc s.engine.playing).advance.count ≠ 0 ∧
          t = s.ticked (s.engine.setBufDesc s.engine.playing (s.engine.bufDesc s.engine.playing).advance) v false false) ∨
        ((s.engine.bufDesc s.engine.playing).advance.count = 0 ∧
          t = s.ticked (completedBuffer s.cfg s.engine.playing s.engine) v true
            (decide (s.engine.bst (otherBuffer s.engine.playing) ≠ .armed))) := by
  obtain ⟨moved, -, -, hmoved, ht⟩ := tickPingpong_eq_next h
  generalize s.engine.region.read _ = v at hmoved
  refine ⟨v, ?_⟩
  obtain ⟨hc, rfl⟩ | ⟨hc, ht⟩ := ht
  · exact .inl ⟨hc, hmoved⟩
  · refine .inr ⟨hc, ?_⟩
    rw [takeInterrupt_serviceBuffer ht, hmoved]
    by_cases hb : s.engine.bst (otherBuffer s.engine.playing) = .armed
    · simp [State.ticked, Stats.ticked, completedBuffer, hb, emit]
    · simp [State.ticked, Stats.ticked, completedBuffer, hb, emit]

/-- The N-buffer engine with the buffer that played retired: it leaves the fill unless it was a silent substitute (R163). -/
def retired (c : Config) (e : Engine) : Engine :=
  { e with rdCnt := if e.curSilent then e.rdCnt else e.rdCnt + 1, desc := .armed c }

theorem serviceQueue_eq (s : State) :
    serviceQueue s =
      { s with
        engine := { retired s.cfg s.engine with curSilent := decide (queueFill (retired s.cfg s.engine) = 0) }
        stats := { s.stats with
          underruns := if queueFill (retired s.cfg s.engine) = 0 then satInc32 s.stats.underruns
            else s.stats.underruns } } := by
  have hr : (retireBuffer s).engine = retired s.cfg s.engine := rfl
  by_cases hf : queueFill (retired s.cfg s.engine) = 0
  · simp only [serviceQueue, selectNext, hr, hf, if_true, decide_true]; rfl
  · simp only [serviceQueue, selectNext, hr, hf, if_false, decide_false]; rfl

/-- The N-buffer engine after a tick that plays the last element of a buffer (R163, R164). -/
def completedQueue (c : Config) (e : Engine) : Engine :=
  { retired c e with curSilent := decide (queueFill (retired c e) = 0), irqPend0 := false }

theorem tickNbuf_ticked {s t : State} (h : tickNbuf s = .next t) :
    ∃ v, (s.engine.desc.advance.count ≠ 0 ∧
          t = s.ticked { s.engine with desc := s.engine.desc.advance } v false false) ∨
        (s.engine.desc.advance.count = 0 ∧
          t = s.ticked (completedQueue s.cfg s.engine) v true (decide (queueFill (retired s.cfg s.engine) = 0))) := by
  obtain ⟨v, moved, -, hmoved, ht⟩ := tickNbuf_eq_next h
  refine ⟨v, ?_⟩
  obtain ⟨hc, rfl⟩ | ⟨hc, ht⟩ := ht
  · exact .inl ⟨hc, hmoved⟩
  · refine .inr ⟨hc, ?_⟩
    obtain ⟨-, rfl⟩ := takeInterrupt_eq_next ht
    rw [serviceQueue_eq, hmoved]
    have hfill (d : Desc) (b : Bool) :
        queueFill (retired s.cfg (({ s.engine with desc := d } : Engine).setIrqPend 0 b)) =
          queueFill (retired s.cfg s.engine) := rfl
    simp only [State.ticked, Stats.ticked, completedQueue, countIrq, emit, hfill]
    simp [Engine.setIrqPend, retired]

/-- What a tick can do: nothing where it is not enabled (R150), else a new engine, one element emitted and the statistics. -/
theorem tick_eq_next {s t : State} (h : tick s = .next t) :
    (tickEnabled s.engine = false ∧ t = s) ∨
      (tickEnabled s.engine = true ∧ ∃ e v irq underrun, t = s.ticked e v irq underrun) := by
  cases hen : tickEnabled s.engine with
  | false => exact .inl ⟨rfl, (Host.Outcome.next.inj ((tick_disabled hen).symm.trans h)).symm⟩
  | true =>
    refine .inr ⟨rfl, ?_⟩
    rw [tick_enabled hen] at h
    cases hs : s.cfg.shape with
    | ring =>
      rw [hs] at h
      obtain ⟨v, rfl⟩ := tickRing_ticked h
      exact ⟨_, v, _, _, rfl⟩
    | pingpong =>
      rw [hs] at h
      obtain ⟨v, ⟨-, rfl⟩ | ⟨-, rfl⟩⟩ := tickPingpong_ticked h
      · exact ⟨_, v, _, _, rfl⟩
      · exact ⟨_, v, _, _, rfl⟩
    | nbuf =>
      rw [hs] at h
      obtain ⟨v, ⟨-, rfl⟩ | ⟨-, rfl⟩⟩ := tickNbuf_ticked h
      · exact ⟨_, v, _, _, rfl⟩
      · exact ⟨_, v, _, _, rfl⟩

/-! ### Turns of the environment -/

/-- What ENV can do: its answer, or a counter of its own raised. -/
theorem envTurn_eq_next {a : EnvAction} {s t : State} (h : envTurn a s = .next t) :
    ∃ b v w, t = { s with hwAvailable := b
                          stats := { s.stats with queueOverflows := raiseTo s.stats.queueOverflows v
                                                  maxQueueDepth := raiseTo s.stats.maxQueueDepth w } } := by
  have raiseTo_self (c : Word32) : raiseTo c c = c := if_neg (lt_irrefl _)
  cases a with
  | hwAvailable b =>
    exact ⟨b, s.stats.queueOverflows, s.stats.maxQueueDepth, by
      rw [raiseTo_self, raiseTo_self]; exact (Host.Outcome.next.inj h).symm⟩
  | queueOverflows v =>
    exact ⟨s.hwAvailable, v, s.stats.maxQueueDepth, by rw [raiseTo_self]; exact (Host.Outcome.next.inj h).symm⟩
  | maxQueueDepth w =>
    exact ⟨s.hwAvailable, s.stats.queueOverflows, w, by rw [raiseTo_self]; exact (Host.Outcome.next.inj h).symm⟩

/-! ### The streams -/

/-- The HOST's turn keeps the frame of a command, whether it runs one or not. -/
theorem hostTurn_frame {s t : State} (h : hostTurn s = .next t) : CommandFrame s t := by
  obtain ⟨-, rfl⟩ | ⟨r, rest, -, ⟨k, -, rfl⟩ | ⟨i, -, ⟨-, rfl⟩ | ⟨-, he⟩⟩⟩ := hostTurn_eq_next h
  · exact .refl t
  · exact ⟨rfl, rfl, rfl, rfl, [], (List.append_nil _).symm⟩
  · exact .refl t
  · obtain ⟨hcfg, hinp, hout, hturns, hresp⟩ := exec_frame he
    exact ⟨hcfg, hinp, hout, hturns, hresp⟩

/-- Settles O53: by the agent that moves, from what its turn can do. -/
theorem streamsOnlyGrow : Obligations.StreamsOnlyGrow := by
  intro s t h
  obtain ⟨-, ⟨-, rfl⟩ | ⟨turn, later, hturns, ht⟩⟩ := step_eq_next h
  · exact ⟨rfl, .inl rfl, .inl rfl⟩
  rw [hturns]
  cases turn with
  | host =>
    obtain ⟨hcfg, -, hout, -, hresp⟩ := hostTurn_frame ht
    exact ⟨hcfg, .inl hout, .inr ⟨rfl, hresp⟩⟩
  | dma =>
    obtain ⟨-, rfl⟩ | ⟨-, e, v, irq, underrun, rfl⟩ := tick_eq_next ht
    · exact ⟨rfl, .inl rfl, .inl rfl⟩
    · exact ⟨rfl, .inr ⟨rfl, v, rfl⟩, .inl rfl⟩
  | sca w =>
    obtain ⟨inp, rfl, -⟩ := scaTurn_eq_next ht
    exact ⟨rfl, .inl rfl, .inl rfl⟩
  | env a =>
    obtain ⟨b, v, w, rfl⟩ := envTurn_eq_next ht
    exact ⟨rfl, .inl rfl, .inl rfl⟩

/-! ### The counters -/

/-- No counter of `a` is above the same counter of `b`. -/
def Stats.AtMost (a b : Stats) : Prop :=
  a.buffersFilled.toNat ≤ b.buffersFilled.toNat ∧ a.underruns.toNat ≤ b.underruns.toNat ∧
    a.commandsProcessed.toNat ≤ b.commandsProcessed.toNat ∧ a.queueOverflows.toNat ≤ b.queueOverflows.toNat ∧
    a.irqCount.toNat ≤ b.irqCount.toNat ∧ a.maxQueueDepth.toNat ≤ b.maxQueueDepth.toNat ∧
    a.samplesEmitted.toNat ≤ b.samplesEmitted.toNat

theorem Stats.AtMost.refl (a : Stats) : a.AtMost a := by simp [Stats.AtMost]

theorem atMost_countCommand (s : State) : s.stats.AtMost (countCommand s).stats := by
  simp [Stats.AtMost, le_satInc32]

theorem atMost_countCommand_countFilled (s : State) : s.stats.AtMost (countCommand (countFilled s)).stats := by
  simp [Stats.AtMost, le_satInc32]

/-- A counter that counts an event where there was one. -/
theorem le_satInc32_if (b : Bool) (c : Word32) : c.toNat ≤ (if b then satInc32 c else c).toNat := by
  split
  · exact le_satInc32 c
  · exact le_refl _

theorem atMost_ticked (irq underrun : Bool) (st : Stats) : st.AtMost (st.ticked irq underrun) :=
  ⟨le_refl _, le_satInc32_if _ _, le_refl _, le_refl _, le_satInc32_if _ _, le_refl _, le_satInc32 _⟩

theorem le_raiseTo (c v : Word32) : c.toNat ≤ (raiseTo c v).toNat := by
  unfold raiseTo
  split
  · omega
  · exact le_refl _

/-- RESET_STATS is the only command that lowers a counter (R196). -/
theorem exec_counters {i : Instr} {s t : State} (h : exec i s = .next t) :
    s.stats.AtMost t.stats ∨ (i = .resetStats ∧ t.stats = .zero) := by
  have he := exec_effect h
  cases i with
  | regwrite chip port data ts => cases he; exact .inl (atMost_countCommand s)
  | reset => cases he; exact .inl (atMost_countCommand s)
  | volume a0 => cases he; exact .inl (atMost_countCommand s)
  | enable a0 => cases he; exact .inl (atMost_countCommand s)
  | framesync cycle => cases he; exact .inl (atMost_countCommand s)
  | dacsample d ts => cases he; exact .inl (atMost_countCommand s)
  | init =>
    obtain ⟨-, rfl⟩ | ⟨-, rfl⟩ := he
    · exact .inl (.refl _)
    · rw [bringUp_eq]; exact .inl (atMost_countCommand s)
  | teardown =>
    obtain ⟨-, rfl⟩ | ⟨-, rfl⟩ := he
    · exact .inl (.refl _)
    · exact .inl (atMost_countCommand s)
  | mix =>
    obtain ⟨-, rfl⟩ | ⟨-, m, -, rfl⟩ := he
    · exact .inl (.refl _)
    · exact .inl (atMost_countCommand s)
  | push =>
    obtain ⟨-, rfl⟩ | ⟨-, -, e, -, rfl⟩ := he
    · exact .inl (.refl _)
    · exact .inl (atMost_countCommand_countFilled s)
  | submit =>
    obtain ⟨-, rfl⟩ | ⟨-, -, m, e, -, -, rfl⟩ := he
    · exact .inl (.refl _)
    · exact .inl (atMost_countCommand_countFilled s)
  | getStats => cases he; exact .inl (atMost_countCommand s)
  | resetStats => cases he; exact .inr ⟨rfl, rfl⟩
  | setShift a0 => cases he; exact .inl (atMost_countCommand s)

/-- The one kind code that decodes to RESET_STATS (R83). -/
theorem b0_of_decode_resetStats {r : Record} (h : decode r = .command .resetStats) : r.b0 = 0x16 := by
  unfold decode at h
  split at h <;> cases h
  assumption

/-- Settles O54: by the agent that moves; only the HOST's turn has the exception, and only for the record of RESET_STATS. -/
theorem countersNeverDecrease : Obligations.CountersNeverDecrease := by
  intro s t h
  obtain ⟨-, ⟨-, rfl⟩ | ⟨turn, later, hturns, ht⟩⟩ := step_eq_next h
  · exact .inl (Stats.AtMost.refl _)
  rw [hturns]
  cases turn with
  | host =>
    obtain ⟨-, rfl⟩ | ⟨r, rest, hport, ⟨k, -, rfl⟩ | ⟨i, hi, ⟨-, rfl⟩ | ⟨-, he⟩⟩⟩ := hostTurn_eq_next ht
    · exact .inl (Stats.AtMost.refl _)
    · exact .inl (Stats.AtMost.refl _)
    · exact .inl (Stats.AtMost.refl _)
    · obtain hle | ⟨rfl, hz⟩ := exec_counters he
      · exact .inl hle
      · exact .inr ⟨r, rest, rfl, hport, b0_of_decode_resetStats hi, hz⟩
  | dma =>
    obtain ⟨-, rfl⟩ | ⟨-, e, v, irq, underrun, rfl⟩ := tick_eq_next ht
    · exact .inl (Stats.AtMost.refl _)
    · exact .inl (atMost_ticked irq underrun s.stats)
  | sca w =>
    obtain ⟨inp, rfl, -⟩ := scaTurn_eq_next ht
    exact .inl (Stats.AtMost.refl _)
  | env a =>
    obtain ⟨b, v, w, rfl⟩ := envTurn_eq_next ht
    exact .inl ⟨le_refl _, le_refl _, le_refl _, le_raiseTo _ _, le_refl _, le_raiseTo _ _, le_refl _⟩

/-! ### `Failed` -/

/-- From `Failed` no command moves the engine, the mixer or the output; only GET_STATS responds (R214). -/
theorem exec_failed {i : Instr} {s t : State} (hm : s.mixer = .reset) (hf : s.engine.blkState = .failed)
    (h : exec i s = .next t) :
    t.engine = s.engine ∧ t.mixer = s.mixer ∧
      (t.respStream = s.respStream ∨ t.respStream = s.respStream ++ statsWords s.stats) := by
  have he := exec_effect h
  have discarded {P : Prop} (hr : s.engine.blkState = .ready) : P := by rw [hf] at hr; cases hr
  cases i with
  | regwrite chip port data ts => cases he; exact ⟨rfl, rfl, .inl rfl⟩
  | reset => cases he; exact ⟨rfl, by simp [hm, Mixer.reset], .inl rfl⟩
  | volume a0 => cases he; exact ⟨rfl, rfl, .inl rfl⟩
  | enable a0 => cases he; exact ⟨rfl, rfl, .inl rfl⟩
  | framesync cycle => cases he; exact ⟨rfl, rfl, .inl rfl⟩
  | dacsample d ts => cases he; exact ⟨rfl, rfl, .inl rfl⟩
  | init =>
    obtain ⟨-, rfl⟩ | ⟨hn, -⟩ := he
    · exact ⟨rfl, rfl, .inl rfl⟩
    · exact absurd hf hn
  | teardown =>
    obtain ⟨-, rfl⟩ | ⟨hn, -⟩ := he
    · exact ⟨rfl, rfl, .inl rfl⟩
    · exact absurd hf hn
  | mix =>
    obtain ⟨-, rfl⟩ | ⟨hr, -⟩ := he
    · exact ⟨rfl, rfl, .inl rfl⟩
    · exact discarded hr
  | push =>
    obtain ⟨-, rfl⟩ | ⟨hr, -⟩ := he
    · exact ⟨rfl, rfl, .inl rfl⟩
    · exact discarded hr
  | submit =>
    obtain ⟨-, rfl⟩ | ⟨hr, -⟩ := he
    · exact ⟨rfl, rfl, .inl rfl⟩
    · exact discarded hr
  | getStats => cases he; exact ⟨rfl, rfl, .inr rfl⟩
  | resetStats => cases he; exact ⟨rfl, rfl, .inl rfl⟩
  | setShift a0 => cases he; exact ⟨rfl, rfl, .inl rfl⟩

/-- Settles O24: no tick is enabled in `Failed`, no command that is legal there reaches the engine, and RESET finds the mixer
as it would leave it. -/
theorem failedIsTerminal : Obligations.FailedIsTerminal := by
  intro s t hg hf h
  have hm : s.mixer = .reset := (hg.stopped (by simp [hf])).mixer
  obtain ⟨-, ⟨-, rfl⟩ | ⟨turn, later, -, ht⟩⟩ := step_eq_next h
  · exact ⟨rfl, rfl, rfl, .inl rfl⟩
  cases turn with
  | host =>
    have hout := (hostTurn_frame ht).outStream
    obtain ⟨-, rfl⟩ | ⟨r, rest, -, ⟨k, -, rfl⟩ | ⟨i, -, ⟨-, rfl⟩ | ⟨-, he⟩⟩⟩ := hostTurn_eq_next ht
    · exact ⟨rfl, rfl, rfl, .inl rfl⟩
    · exact ⟨rfl, rfl, rfl, .inl rfl⟩
    · exact ⟨rfl, rfl, rfl, .inl rfl⟩
    · obtain ⟨hengine, hmixer, hresp⟩ := exec_failed (by simpa using hm) (by simpa using hf) he
      exact ⟨hengine, hmixer, hout, hresp⟩
  | dma =>
    obtain ⟨-, rfl⟩ | ⟨hen, -⟩ := tick_eq_next ht
    · exact ⟨rfl, rfl, rfl, .inl rfl⟩
    · have hr : s.engine.blkState = .ready := ((tickEnabled_iff _).1 hen).1
      simp [hf] at hr
  | sca w =>
    obtain ⟨inp, rfl, -⟩ := scaTurn_eq_next ht
    exact ⟨rfl, rfl, rfl, .inl rfl⟩
  | env a =>
    obtain ⟨b, v, w, rfl⟩ := envTurn_eq_next ht
    exact ⟨rfl, rfl, rfl, .inl rfl⟩

end Sys2Proof.Machine
end

section
/-! PROOFS. A frame of the mixer and a PUSH keep the invariants of 10_state.md R49. -/

namespace Sys2Proof.Machine

/-! ### The mixer: the filter state stays in the `i16` range (R49 item 2) -/

/-- The `i16` range. -/
def InI16 (v : Int) : Prop := -32768 ≤ v ∧ v ≤ 32767

/-- The low-pass update is a weighted mean of the sample and the filter state, so it stays between them (R108). -/
theorem inI16_lowPass {c : Config} {s l : Int} (hs : InI16 s) (hl : InI16 l) : InI16 (lowPass c s l) := by
  obtain ⟨hs₁, hs₂⟩ := hs
  obtain ⟨hl₁, hl₂⟩ := hl
  unfold lowPass
  generalize lowPassShift c s l = k
  have hq := pow_cast_pos k
  constructor
  · rw [le_sra_iff]
    generalize ((2 ^ k : Nat) : Int) = q at hq ⊢
    nlinarith [mul_le_mul_of_nonneg_right hl₁ (show 0 ≤ q - 1 by omega)]
  · rw [sra_le_iff]
    generalize ((2 ^ k : Nat) : Int) = q at hq ⊢
    nlinarith [mul_le_mul_of_nonneg_right hl₂ (show 0 ≤ q - 1 by omega)]

/-- A magnitude no larger, with the same sign, stays in the range. -/
theorem inI16_withSign {l : Int} {m : Nat} (hl : InI16 l) (hm : m ≤ l.natAbs) : InI16 (withSign l m) := by
  obtain ⟨hl₁, hl₂⟩ := hl
  unfold InI16
  rcases lt_trichotomy l 0 with h | rfl | h
  · rw [withSign_of_neg h]; omega
  · rw [withSign_zero]; omega
  · rw [withSign_of_pos h]; omega

theorem inI16_fade {c : Config} {l : Int} (hl : InI16 l) : InI16 (fade c l) :=
  inI16_withSign hl (Nat.div_le_of_le_mul (by
    rw [Nat.mul_comm]; exact Nat.mul_le_mul_right _ (Nat.sub_le _ _)))

theorem inI16_filterNext (c : Config) (k : Control) (inp : Input) (i : Nat) {l : Int} (hl : InI16 l) :
    InI16 (filterNext c k inp i l) := by
  unfold filterNext
  split
  · exact inI16_fade hl
  · exact inI16_lowPass (clip16_range _) hl

theorem inI16_frameTrace (c : Config) (k : Control) (inp : Input) {m : Mixer} (hm : InI16 m.lpfState.toInt) (j : Nat) :
    InI16 (frameTrace c k inp m j) := by
  induction j with
  | zero => exact hm
  | succ j ih => rw [frameTrace_succ]; exact inI16_filterNext c k inp j ih

theorem mixerInv_mixedFrame {c : Config} (hl : Legal c) (k : Control) (inp : Input) {m : Mixer} (h : MixerInv c m) :
    MixerInv c (mixedFrame c k inp m) := by
  obtain ⟨hge, hle⟩ := inI16_frameTrace c k inp ⟨h.lpf_ge, h.lpf_le⟩ c.n
  have hlpf : (mixedFrame c k inp m).lpfState.toInt = frameTrace c k inp m c.n := toInt_toWord32 (by omega) (by omega)
  refine ⟨by omega, by omega, ?_, h.outBuf.writeBlock (monoFrame_map_stereo _) (by simp)⟩
  have hs := legal_startup hl
  simp only [mixedFrame, BitVec.toNat_ofNat]
  omega

/-- MIX, from a legal configuration, keeps the mixer's invariants. -/
theorem mixerInv_of_mixFrame {c : Config} (hl : Legal c) {k : Control} {inp : Input} {m m' : Mixer} (h : MixerInv c m)
    (hm : mixFrame c k inp m = some m') : MixerInv c m' := by
  rw [mixFrame_eq k inp m (legal_n_pos hl) (legal_n_le_cap hl), Option.some.injEq] at hm
  exact hm ▸ mixerInv_mixedFrame hl k inp h

/-- RESET puts the filter state and the previous output at 0 (R181). -/
theorem mixerInv_restarted {c : Config} {m : Mixer} (h : MixerInv c m) :
    MixerInv c { m with lpfState := 0, prevOut := 0 } :=
  ⟨show -32768 ≤ (0 : Word32).toInt by decide, show (0 : Word32).toInt ≤ 32767 by decide, h.startup_le, h.outBuf⟩

/-! ### The engine's common registers -/

/-- The registers that every shape has, `REGION` and the shape's own aside, are the same in `e` and `e'`. -/
structure SameBlock (e e' : Engine) : Prop where
  blkState : e'.blkState = e.blkState
  running : e'.running = e.running
  pushCnt : e'.pushCnt = e.pushCnt
  irqEn : e'.irqEn = e.irqEn
  irqPend0 : e'.irqPend0 = e.irqPend0
  irqPend1 : e'.irqPend1 = e.irqPend1

theorem EngineInv.of_sameBlock {c : Config} {e e' : Engine} (h : EngineInv c e) (hb : SameBlock e e')
    (region : PairSpace e'.region (regionSize c)) (shape : ShapeInv c e') : EngineInv c e' where
  region := region
  ready := by rw [hb.running, hb.blkState]; exact h.ready
  irqEn := by rw [hb.irqEn, hb.blkState]; exact h.irqEn
  irqPend0 := hb.irqPend0.trans h.irqPend0
  irqPend1 := hb.irqPend1.trans h.irqPend1
  preroll := by rw [hb.running, hb.pushCnt]; exact h.preroll
  started := by rw [hb.running, hb.pushCnt]; exact h.started
  shape := shape

theorem SameBlock.setBst {a e : Engine} (h : SameBlock a e) (k : Fin 2) (v : BufState) : SameBlock a (e.setBst k v) := by
  obtain ⟨h₁, h₂, h₃, h₄, h₅, h₆⟩ := h
  exact ⟨by simpa, by simpa, by simpa, by simpa, by simpa, by simpa⟩

theorem SameBlock.setBufDesc {a e : Engine} (h : SameBlock a e) (k : Fin 2) (d : Desc) : SameBlock a (e.setBufDesc k d) := by
  obtain ⟨h₁, h₂, h₃, h₄, h₅, h₆⟩ := h
  exact ⟨by simpa, by simpa, by simpa, by simpa, by simpa, by simpa⟩

theorem SameBlock.trans {a b d : Engine} (h : SameBlock a b) (h' : SameBlock b d) : SameBlock a d :=
  ⟨h'.blkState.trans h.blkState, h'.running.trans h.running, h'.pushCnt.trans h.pushCnt, h'.irqEn.trans h.irqEn,
    h'.irqPend0.trans h.irqPend0, h'.irqPend1.trans h.irqPend1⟩

theorem sameBlock_startEngine (c : Config) (e : Engine) : SameBlock { e with running := true } (startEngine c e) := by
  unfold startEngine
  split
  · exact ⟨rfl, rfl, rfl, rfl, rfl, rfl⟩
  · exact .setBst (by constructor <;> rfl) 0 .playing
  · exact ⟨rfl, rfl, rfl, rfl, rfl, rfl⟩

theorem sameBlock_awaitPreroll (c : Config) (e : Engine) : SameBlock e (awaitPreroll c e) := by
  unfold awaitPreroll
  split <;> exact ⟨rfl, rfl, rfl, rfl, rfl, rfl⟩

/-! ### Invariants of a shape, read off `EngineInv` -/

theorem EngineInv.ring {c : Config} {e : Engine} (h : EngineInv c e) (hs : c.shape = .ring) : RingInv c e := by
  have := h.shape; rwa [ShapeInv, hs] at this

theorem EngineInv.pingpong {c : Config} {e : Engine} (h : EngineInv c e) (hs : c.shape = .pingpong) : PingpongInv c e := by
  have := h.shape; rwa [ShapeInv, hs] at this

theorem EngineInv.nbuf {c : Config} {e : Engine} (h : EngineInv c e) (hs : c.shape = .nbuf) : QueueInv c e := by
  have := h.shape; rwa [ShapeInv, hs] at this

theorem shapeInv_ring {c : Config} {e : Engine} (hs : c.shape = .ring) (h : RingInv c e) : ShapeInv c e := by
  rwa [ShapeInv, hs]

theorem shapeInv_pingpong {c : Config} {e : Engine} (hs : c.shape = .pingpong) (h : PingpongInv c e) : ShapeInv c e := by
  rwa [ShapeInv, hs]

theorem shapeInv_nbuf {c : Config} {e : Engine} (hs : c.shape = .nbuf) (h : QueueInv c e) : ShapeInv c e := by
  rwa [ShapeInv, hs]

/-! ### The pre-roll -/

theorem toNat_succ {n : Word32} (h : n.toNat + 1 < 4294967296) : (n + 1).toNat = n.toNat + 1 :=
  BitVec.toNat_add_of_lt (y := 1) h

/-- Before the start `PUSH_CNT` is below the pre-roll, so counting one push does not wrap. -/
theorem EngineInv.pushCnt_succ {c : Config} {e : Engine} (h : EngineInv c e) (hl : Legal c) (hr : e.running = false) :
    (e.pushCnt + 1).toNat = e.pushCnt.toNat + 1 := by
  have h1 := h.preroll hr
  have h2 := legal_preroll_lt hl
  exact toNat_succ (by omega)

/-- The tail of a PUSH on the engine `e'` that the copy gives keeps the invariants, if those of the shape hold in each of its
three outcomes: the engine already running, starting now, or waiting for more of the pre-roll (R133, R140). -/
theorem engineInv_prerollStep {c : Config} {e e' : Engine} (hl : Legal c) (h : EngineInv c e) (hready : e.blkState = .ready)
    (hb : SameBlock e e') (region : PairSpace e'.region (regionSize c)) (hrun : e.running = true → ShapeInv c e')
    (hstart : e.running = false → ShapeInv c (startEngine c { e' with pushCnt := e'.pushCnt + 1 }))
    (hwait : e.running = false → e.pushCnt.toNat + 1 < c.preroll →
      ShapeInv c (awaitPreroll c { e' with pushCnt := e'.pushCnt + 1 })) :
    EngineInv c (prerollStep c e') := by
  cases hr : e.running with
  | true =>
    rw [prerollStep_running (hb.running.trans hr)]
    exact h.of_sameBlock hb region (hrun hr)
  | false =>
    have hr' : e'.running = false := hb.running.trans hr
    have hregion : PairSpace (prerollStep c e').region (regionSize c) := by rwa [prerollStep_region]
    have hlt := h.preroll hr
    have hsucc : (e'.pushCnt + 1).toNat = e.pushCnt.toNat + 1 := by rw [hb.pushCnt, h.pushCnt_succ hl hr]
    have hpre := prerollStep_stopped (c := c) hr'
    rw [hsucc] at hpre
    by_cases hp : c.preroll ≤ e.pushCnt.toNat + 1
    · rw [if_pos hp] at hpre
      rw [hpre] at hregion ⊢
      have hstarted := sameBlock_startEngine c { e' with pushCnt := e'.pushCnt + 1 }
      exact {
        region := hregion
        ready := fun _ => hstarted.blkState.trans (hb.blkState.trans hready)
        irqEn := by rw [hstarted.irqEn, hstarted.blkState, hb.irqEn, hb.blkState]; exact h.irqEn
        irqPend0 := hstarted.irqPend0.trans (hb.irqPend0.trans h.irqPend0)
        irqPend1 := hstarted.irqPend1.trans (hb.irqPend1.trans h.irqPend1)
        preroll := by rw [hstarted.running]; exact nofun
        started := fun _ => by rw [hstarted.pushCnt]; dsimp only; omega
        shape := hstart hr }
    · rw [if_neg hp] at hpre
      rw [hpre] at hregion ⊢
      have hwaiting := sameBlock_awaitPreroll c { e' with pushCnt := e'.pushCnt + 1 }
      exact {
        region := hregion
        ready := fun _ => hwaiting.blkState.trans (hb.blkState.trans hready)
        irqEn := by rw [hwaiting.irqEn, hwaiting.blkState, hb.irqEn, hb.blkState]; exact h.irqEn
        irqPend0 := hwaiting.irqPend0.trans (hb.irqPend0.trans h.irqPend0)
        irqPend1 := hwaiting.irqPend1.trans (hb.irqPend1.trans h.irqPend1)
        preroll := fun _ => by rw [hwaiting.pushCnt]; dsimp only; omega
        started := by rw [hwaiting.running]; dsimp only; rw [hr']; exact nofun
        shape := hwait hr (by omega) }

/-- `RST` once a push has been counted and the pre-roll is not complete. -/
theorem armed_of_waiting {run : Bool} {n : Word32} (hr : run = false) (hn : (n + 1).toNat = n.toNat + 1) :
    RegionState.armed = if run then .playing else if n + 1 = 0 then .idle else .armed := by
  have h0 : n + 1 ≠ 0 := fun h => by rw [h] at hn; simp at hn
  rw [if_neg (by simp [hr]), if_neg h0]

/-! ### PUSH in the ring -/

/-- One frame appended to the ring keeps its invariants where it leaves the headroom, whatever becomes of `RUNNING`,
`PUSH_CNT` and `RST`, as long as `RST` follows the other two. -/
theorem RingInv.append {c : Config} {e : Engine} (hl : Legal c) (hs : c.shape = .ring) (h : RingInv c e)
    (hfill : ringFill c e + c.n ≤ c.ringSize - c.minHeadroom) (region : Memory Pair) {run : Bool} {cnt : Word32}
    {rst : RegionState} (hrst : rst = if run then .playing else if cnt = 0 then .idle else .armed)
    (hstopped : run = false → e.rdPos = 0 ∧ wrapPos c (e.wrPos + c.n) = cnt.toNat * c.n) :
    RingInv c { e with region := region, wrPos := wrapPos c (e.wrPos + c.n), running := run, pushCnt := cnt, rst := rst } := by
  obtain ⟨-, hhead, hheadlt, -⟩ := legal_ring hl hs
  have hn := legal_n_pos hl
  have happend := ringFill_append (m := region) h.wr_lt h.rd_lt (n := c.n) (by omega)
  obtain ⟨p₁, p₂, p₃, p₄, p₅⟩ := h.noPingpong
  obtain ⟨q₁, q₂, q₃, q₄⟩ := h.noQueue
  exact ⟨wrapPos_lt (legal_ringSize_pos hl hs) _, h.rd_lt, happend.trans_le hfill, hrst, hstopped,
    ⟨p₁, p₂, p₃, p₄, p₅⟩, ⟨q₁, q₂, q₃, q₄⟩⟩

theorem pushHeld_ring {c : Config} {e : Engine} (hs : c.shape = .ring) :
    pushHeld c e = false ↔ ringFill c e + c.n ≤ c.ringSize - c.minHeadroom := by
  simp [pushHeld, hs]

theorem pairSpace_writeRing_frame {c : Config} {m : Memory Pair} {vs : List Pair} (hl : Legal c) (hs : c.shape = .ring)
    (h : PairSpace m (regionSize c)) (p : Nat) (hvs : MonoFrame vs) (hlen : vs.length = c.n) :
    PairSpace (writeRing c m p vs) (regionSize c) := by
  have hle := legal_ring_frame hl hs
  simp only [regionSize, hs] at h ⊢
  exact h.writeRing (legal_ringSize_pos hl hs) p hvs (by omega)

theorem engineInv_push_ring {c : Config} {e e' : Engine} {frame : List Pair} (hl : Legal c) (hs : c.shape = .ring)
    (h : EngineInv c e) (hready : e.blkState = .ready) (hheld : pushHeld c e = false) (hmono : MonoFrame frame)
    (hlen : frame.length = c.n) (hp : publishFrame c frame e = some e') : EngineInv c (prerollStep c e') := by
  have hi := h.ring hs
  have hfill := (pushHeld_ring hs).1 hheld
  rw [publishFrame_ring hs, Option.some.injEq] at hp
  subst hp
  refine engineInv_prerollStep hl h hready ⟨rfl, rfl, rfl, rfl, rfl, rfl⟩
    (pairSpace_writeRing_frame hl hs h.region _ hmono hlen) (fun hr => ?_) (fun hr => ?_) fun hr hlt => ?_
  · exact shapeInv_ring hs (hi.append hl hs hfill _ hi.rst fun hf => by simp [hr] at hf)
  · simp only [startEngine, hs]
    exact shapeInv_ring hs (hi.append hl hs hfill _ rfl nofun)
  · simp only [awaitPreroll, hs]
    have hsucc := h.pushCnt_succ hl hr
    obtain ⟨hrd, hwr⟩ := hi.stopped hr
    refine shapeInv_ring hs (hi.append hl hs hfill _ (armed_of_waiting hr hsucc) fun _ => ⟨hrd, ?_⟩)
    have hend : (e.pushCnt.toNat + 1) * c.n ≤ c.preroll * c.n := Nat.mul_le_mul_right _ (by omega)
    obtain ⟨-, -, hheadlt, hroom⟩ := legal_ring hl hs
    have hn := legal_n_pos hl
    have hhead := (legal_ring hl hs).2.1
    have hwr' : e.wrPos + c.n = (e.pushCnt.toNat + 1) * c.n := by rw [hwr, Nat.succ_mul]
    rw [wrapPos_of_lt (by omega), hsucc, hwr']

/-! ### PUSH in the ping-pong shape -/

/-- A whole buffer of equal halves written over buffer `k` of the shape keeps the region a space. -/
theorem pairSpace_writeBuffer {c : Config} {m : Memory Pair} {vs : List Pair} {k : Nat} (h : PairSpace m (regionSize c))
    (hk : (k + 1) * c.bufLen ≤ regionSize c) (hvs : MonoFrame vs) (hlen : vs.length = c.bufLen) :
    PairSpace (m.writeBlock (bufIndex c k 0) vs) (regionSize c) :=
  h.writeBlock hvs (by rw [Nat.succ_mul] at hk; simp only [bufIndex]; omega)

/-- The pushed buffer while the engine runs: the one that does not play (R137). -/
theorem pushTarget_running {e : Engine} (h : e.running = true) : pushTarget e = (otherBuffer e.playing).val := if_pos h

/-- The pushed buffer before the start: the next one in order (R137). -/
theorem pushTarget_stopped {e : Engine} (h : e.running = false) : pushTarget e = e.pushCnt.toNat := by
  simp [pushTarget, h]

theorem EngineInv.pushTarget_lt {c : Config} {e : Engine} (h : EngineInv c e) (hl : Legal c) (hs : c.shape = .pingpong) :
    pushTarget e < 2 := by
  cases hr : e.running with
  | true => rw [pushTarget_running hr]; exact (otherBuffer e.playing).isLt
  | false =>
    have := h.preroll hr
    have := (legal_pingpong hl hs).2
    rw [pushTarget_stopped hr]; omega

/-- While the engine runs, the buffer that does not play takes a fresh frame. -/
theorem PingpongInv.refill {c : Config} {e : Engine} (h : PingpongInv c e) (hr : e.running = true) (region : Memory Pair) :
    PingpongInv c (({ e with region := region } : Engine).setBst (otherBuffer e.playing) .armed) := by
  have hne : e.playing ≠ otherBuffer e.playing := (otherBuffer_ne _).symm
  obtain ⟨r₁, r₂⟩ := h.noRing
  obtain ⟨q₁, q₂, q₃, q₄⟩ := h.noQueue
  exact {
    plays := fun _ => by
      rw [Engine.setBst_playing, bst_setBst, if_neg hne]; exact h.plays hr
    other := fun _ => by rw [Engine.setBst_playing, bst_setBst, if_pos rfl]; exact nofun
    desc := by rw [Engine.setBst_playing, bufDesc_setBst]; exact h.desc
    otherDesc := by rw [Engine.setBst_playing, bufDesc_setBst]; exact h.otherDesc
    stopped := fun hf => by simp [hr] at hf
    rst := by rw [Engine.setBst_rst]; exact h.rst
    noRing := ⟨by simpa using r₁, by simpa using r₂⟩
    noQueue := ⟨by simpa using q₁, by simpa using q₂, by simpa using q₃, by simpa using q₄⟩ }

/-- Before the start the first buffer is not playing, and the second is as reset left it. -/
theorem PingpongInv.firstFrame {c : Config} {e : Engine} (h : PingpongInv c e) (hr : e.running = false) {cnt : Word32}
    (hcnt : cnt.toNat = 1) (region : Memory Pair) :
    PingpongInv c { ({ e with region := region } : Engine).setBst 0 .armed with pushCnt := cnt } := by
  obtain ⟨hplay, hdesc0, -, hbst1⟩ := h.stopped hr
  obtain ⟨r₁, r₂⟩ := h.noRing
  obtain ⟨q₁, q₂, q₃, q₄⟩ := h.noQueue
  exact {
    plays := fun hf => by rw [hr] at hf; cases hf
    other := fun hf => by rw [hr] at hf; cases hf
    desc := h.desc
    otherDesc := h.otherDesc
    stopped := fun _ => ⟨hplay, hdesc0, by simp [Engine.setBst, hcnt], hbst1⟩
    rst := h.rst
    noRing := ⟨r₁, r₂⟩
    noQueue := ⟨q₁, q₂, q₃, q₄⟩ }

/-- The start: buffer 0 plays; the other one is armed where it was the buffer `k` just filled, and else idle (R141). -/
theorem PingpongInv.start {c : Config} {e : Engine} (h : PingpongInv c e) (hr : e.running = false) (k : Fin 2)
    (cnt : Word32) (region : Memory Pair) :
    PingpongInv c (({ ({ e with region := region } : Engine).setBst k .armed with
      pushCnt := cnt, running := true, playing := 0 } : Engine).setBst 0 .playing) := by
  obtain ⟨hplay, -, -, hbst1⟩ := h.stopped hr
  have hdesc := h.desc
  have hother := h.otherDesc
  rw [hplay] at hdesc hother
  obtain ⟨r₁, r₂⟩ := h.noRing
  obtain ⟨q₁, q₂, q₃, q₄⟩ := h.noQueue
  rcases fin2_cases k with rfl | rfl
  · exact ⟨fun _ => rfl, fun _ => by simp [Engine.setBst, Engine.bst, hbst1], hdesc, hother, nofun, h.rst, ⟨r₁, r₂⟩,
      ⟨q₁, q₂, q₃, q₄⟩⟩
  · exact ⟨fun _ => rfl, fun _ => by simp [Engine.setBst, Engine.bst], hdesc, hother, nofun, h.rst, ⟨r₁, r₂⟩,
      ⟨q₁, q₂, q₃, q₄⟩⟩

theorem engineInv_push_pingpong {c : Config} {e e' : Engine} {frame : List Pair} (hl : Legal c) (hs : c.shape = .pingpong)
    (h : EngineInv c e) (hready : e.blkState = .ready) (hmono : MonoFrame frame)
    (hlen : frame.length = c.n) (hp : publishFrame c frame e = some e') : EngineInv c (prerollStep c e') := by
  have hi := h.pingpong hs
  obtain ⟨hbuf, hpre⟩ := legal_pingpong hl hs
  have ht := h.pushTarget_lt hl hs
  rw [publishFrame_pingpong hs ht (hlen.trans hbuf.symm), Option.some.injEq] at hp
  subst hp
  have hregion : PairSpace (e.region.writeBlock (bufIndex c (pushTarget e) 0) frame) (regionSize c) := by
    refine pairSpace_writeBuffer h.region ?_ hmono (hlen.trans hbuf.symm)
    simp only [regionSize, hs]
    exact Nat.mul_le_mul_right _ ht
  refine engineInv_prerollStep hl h hready (.setBst (by constructor <;> rfl) _ _) (by simpa using hregion)
    (fun hr => shapeInv_pingpong hs ?_) (fun hr => shapeInv_pingpong hs ?_) fun hr hlt => shapeInv_pingpong hs ?_
  · have hk : (⟨pushTarget e, ht⟩ : Fin 2) = otherBuffer e.playing := Fin.ext (pushTarget_running hr)
    rw [hk]
    exact hi.refill hr _
  · simp only [startEngine, hs]
    exact hi.start hr _ _ _
  · simp only [awaitPreroll, hs]
    have hsucc := h.pushCnt_succ hl hr
    have hk : (⟨pushTarget e, ht⟩ : Fin 2) = 0 :=
      Fin.ext ((pushTarget_stopped hr).trans (by show e.pushCnt.toNat = 0; omega))
    rw [hk, Engine.setBst_pushCnt]
    exact hi.firstFrame hr (by dsimp only; omega) _

/-! ### PUSH in the N-buffer shape -/

/-- One frame appended to the queue keeps its invariants where it fits, whatever becomes of `RUNNING` and of the registers that
the start writes, as long as `RST` follows. -/
theorem QueueInv.append {c : Config} {e : Engine} (hl : Legal c) (hs : c.shape = .nbuf) (h : QueueInv c e)
    (hfill : queueFill e ≠ c.nbuf) (region : Memory Pair) {run : Bool} {cnt : Word32} {rst : RegionState} {silent : Bool}
    {d : Desc} (hd : DescInv c d) (hrst : rst = if run then .playing else if cnt = 0 then .idle else .armed)
    (hstopped : run = false → e.rdCnt = 0 ∧ e.wrCnt + 1 = cnt ∧ silent = false ∧ d = .armed c) :
    QueueInv c { e with
      region := region, wrCnt := e.wrCnt + 1, running := run, pushCnt := cnt, rst := rst, curSilent := silent, desc := d } := by
  have hle := h.fill_le
  have hlt := (legal_nbuf hl hs).2.2.2.1
  have hnext : (e.wrCnt + 1 - e.rdCnt).toNat = queueFill e + 1 := by
    unfold queueFill at *
    have hcomm : e.wrCnt + 1 - e.rdCnt = (e.wrCnt - e.rdCnt) + 1 := by ring
    rw [hcomm, toNat_succ (by omega)]
  obtain ⟨r₁, r₂⟩ := h.noRing
  obtain ⟨p₁, p₂, p₃, p₄, p₅⟩ := h.noPingpong
  exact ⟨hnext.trans_le (by omega), hd, fun _ _ => (Nat.le_add_left 1 _).trans_eq hnext.symm, hrst, hstopped, ⟨r₁, r₂⟩,
    ⟨p₁, p₂, p₃, p₄, p₅⟩⟩

theorem pushHeld_nbuf {c : Config} {e : Engine} (hs : c.shape = .nbuf) : pushHeld c e = false ↔ queueFill e ≠ c.nbuf := by
  simp [pushHeld, hs]

theorem engineInv_push_nbuf {c : Config} {e e' : Engine} {frame : List Pair} (hl : Legal c) (hs : c.shape = .nbuf)
    (h : EngineInv c e) (hready : e.blkState = .ready) (hheld : pushHeld c e = false) (hmono : MonoFrame frame)
    (hlen : frame.length = c.n) (hp : publishFrame c frame e = some e') : EngineInv c (prerollStep c e') := by
  have hi := h.nbuf hs
  have hfill := (pushHeld_nbuf hs).1 hheld
  obtain ⟨-, hbuf, hnbuf, -, -⟩ := legal_nbuf hl hs
  rw [publishFrame_nbuf hs (by omega) (hlen.trans hbuf.symm), Option.some.injEq] at hp
  subst hp
  have hregion : PairSpace (e.region.writeBlock (bufIndex c (e.wrCnt.toNat % c.nbuf) 0) frame) (regionSize c) := by
    refine pairSpace_writeBuffer h.region ?_ hmono (hlen.trans hbuf.symm)
    simp only [regionSize, hs]
    exact Nat.mul_le_mul_right _ (Nat.mod_lt _ (by omega))
  refine engineInv_prerollStep hl h hready ⟨rfl, rfl, rfl, rfl, rfl, rfl⟩ hregion
    (fun hr => shapeInv_nbuf hs ?_) (fun hr => shapeInv_nbuf hs ?_) fun hr _ => shapeInv_nbuf hs ?_
  · exact hi.append hl hs hfill _ hi.desc hi.rst fun hf => by simp [hr] at hf
  · simp only [startEngine, hs]
    exact hi.append hl hs hfill _ (descInv_armed (legal_bufLen_pos hl (by simp [hs]))) rfl nofun
  · simp only [awaitPreroll, hs]
    obtain ⟨hrd, hwr, hsilent, hdesc⟩ := hi.stopped hr
    exact hi.append hl hs hfill _ hi.desc (armed_of_waiting hr (h.pushCnt_succ hl hr))
      fun _ => ⟨hrd, by rw [hwr], hsilent, hdesc⟩

/-! ### PUSH -/

theorem monoFrame_copiedFrame {s : State} (h : Mono s.mixer.outBuf) : MonoFrame (copiedFrame s) := by
  intro p hp
  obtain ⟨q, hq, rfl⟩ := List.mem_map.1 hp
  obtain ⟨j, -, rfl⟩ := List.mem_map.1 hq
  exact attenuate_mono (h _)

/-- An admitted PUSH of a frame of equal halves keeps the engine's invariants in every shape. -/
theorem engineInv_push {c : Config} {e e' : Engine} {frame : List Pair} (hl : Legal c) (h : EngineInv c e)
    (hready : e.blkState = .ready) (hheld : pushHeld c e = false) (hmono : MonoFrame frame) (hlen : frame.length = c.n)
    (hp : publishFrame c frame e = some e') : EngineInv c (prerollStep c e') := by
  cases hs : c.shape with
  | ring => exact engineInv_push_ring hl hs h hready hheld hmono hlen hp
  | pingpong => exact engineInv_push_pingpong hl hs h hready hmono hlen hp
  | nbuf => exact engineInv_push_nbuf hl hs h hready hheld hmono hlen hp

theorem prerollStep_blkState (c : Config) (e : Engine) : (prerollStep c e).blkState = e.blkState := by
  unfold prerollStep
  split
  · rfl
  · dsimp only
    split
    · exact (sameBlock_startEngine c _).blkState
    · exact (sameBlock_awaitPreroll c _).blkState

end Sys2Proof.Machine
end

section
/-! PROOFS. A tick of a running engine: the invariants of 10_state.md R49 that it keeps, how many ticks stay quiet until the next
completion or underrun, and that it always answers. -/

namespace Sys2Proof.Machine

/-- How many ticks of a running engine pass before the one that completes a buffer, or finds the ring empty. -/
def quietTicks (c : Config) (e : Engine) : Nat :=
  match c.shape with
  | .ring => ringFill c e
  | .pingpong => (e.bufDesc e.playing).count - 1
  | .nbuf => e.desc.count - 1

theorem quietTicks_ring {c : Config} (hs : c.shape = .ring) (e : Engine) : quietTicks c e = ringFill c e := by
  rw [quietTicks, hs]

theorem quietTicks_pingpong {c : Config} (hs : c.shape = .pingpong) (e : Engine) :
    quietTicks c e = (e.bufDesc e.playing).count - 1 := by
  rw [quietTicks, hs]

theorem quietTicks_nbuf {c : Config} (hs : c.shape = .nbuf) (e : Engine) : quietTicks c e = e.desc.count - 1 := by
  rw [quietTicks, hs]

/-- A tick took the running engine `e` to `e'`, with or without an interrupt and an underrun: the invariants are kept, nothing
is counted while the tick is quiet, and the tick that is not quiet is followed by `N - 1` quiet ones (R43). -/
structure EngineTicked (c : Config) (e e' : Engine) (irq underrun : Bool) : Prop where
  inv : EngineInv c e'
  block : SameBlock e e'
  quiet : quietTicks c e ≠ 0 → quietTicks c e' + 1 = quietTicks c e ∧ irq = false ∧ underrun = false
  event : quietTicks c e = 0 → quietTicks c e' + 1 = c.n ∧ irq = !decide (c.shape = .ring)

/-! ### Ring -/

/-- One element read from a ring that is not empty keeps its invariants while the engine runs. -/
theorem RingInv.read {c : Config} {e : Engine} (h : RingInv c e) (h0 : 0 < c.ringSize) (hr : e.running = true)
    (hf : ringFill c e ≠ 0) : RingInv c { e with rdPos := wrapPos c (e.rdPos + 1) } := by
  have hread := ringFill_read h.wr_lt h.rd_lt hf
  have hle := h.fill_le
  obtain ⟨p₁, p₂, p₃, p₄, p₅⟩ := h.noPingpong
  obtain ⟨q₁, q₂, q₃, q₄⟩ := h.noQueue
  exact ⟨h.wr_lt, wrapPos_lt h0 _, by omega, h.rst, fun hstop => by simp [hr] at hstop, ⟨p₁, p₂, p₃, p₄, p₅⟩,
    ⟨q₁, q₂, q₃, q₄⟩⟩

/-- The frame of silence that an underrun inserts fits the empty ring and keeps its invariants (R152). -/
theorem RingInv.insertSilence {c : Config} {e : Engine} (hl : Legal c) (hs : c.shape = .ring) (h : RingInv c e)
    (hr : e.running = true) (hf : ringFill c e = 0) :
    RingInv c (insertSilence c e) ∧ ringFill c (Machine.insertSilence c e) = c.n := by
  have hroom := legal_ring_frame hl hs
  have hhead := (legal_ring hl hs).2.2.1
  have hn := legal_n_pos hl
  have hminhead := (legal_ring hl hs).2.1
  constructor
  · exact h.append hl hs (by omega) _ h.rst fun hstop => by simp [hr] at hstop
  · exact (ringFill_append h.wr_lt h.rd_lt (by omega)).trans (by omega)

theorem engineTicked_ring {c : Config} {e : Engine} (hl : Legal c) (hs : c.shape = .ring) (h : EngineInv c e)
    (hr : e.running = true) : EngineTicked c e (ringTicked c e) false (decide (ringFill c e = 0)) := by
  have hi := h.ring hs
  have h0 := legal_ringSize_pos hl hs
  have hn := legal_n_pos hl
  by_cases hf : ringFill c e = 0
  · obtain ⟨hi', hfill⟩ := hi.insertSilence hl hs hr hf
    have hticked : ringTicked c e = { insertSilence c e with rdPos := wrapPos c ((insertSilence c e).rdPos + 1) } := by
      simp only [ringTicked, hf, if_true]
    rw [hticked]
    have hblock : SameBlock e { insertSilence c e with rdPos := wrapPos c ((insertSilence c e).rdPos + 1) } :=
      ⟨rfl, rfl, rfl, rfl, rfl, rfl⟩
    refine ⟨h.of_sameBlock hblock ?_ (shapeInv_ring hs (hi'.read h0 hr (by omega))), hblock, ?_, ?_⟩
    · exact pairSpace_writeRing_frame hl hs h.region _ (monoFrame_silence _) (length_silence _)
    · rw [quietTicks_ring hs]; exact fun hq => absurd hf hq
    · have hread := ringFill_read hi'.wr_lt hi'.rd_lt (by omega)
      simp only [quietTicks_ring hs, hs, hread]
      exact fun _ => ⟨by omega, by simp⟩
  · have hticked : ringTicked c e = { e with rdPos := wrapPos c (e.rdPos + 1) } := by
      simp only [ringTicked, hf, if_false]
    rw [hticked]
    have hblock : SameBlock e { e with rdPos := wrapPos c (e.rdPos + 1) } := ⟨rfl, rfl, rfl, rfl, rfl, rfl⟩
    refine ⟨h.of_sameBlock hblock h.region (shapeInv_ring hs (hi.read h0 hr hf)), hblock, ?_, ?_⟩
    · have hread := ringFill_read hi.wr_lt hi.rd_lt hf
      simp only [quietTicks_ring hs, hread]
      exact fun _ => ⟨by omega, trivial, by simp [hf]⟩
    · rw [quietTicks_ring hs]; exact fun hq => absurd hq hf

/-! ### Ping-pong -/

theorem DescInv.advance {c : Config} {d : Desc} (h : DescInv c d) (hc : d.advance.count ≠ 0) : DescInv c d.advance := by
  obtain ⟨htotal, hleft⟩ := h
  simp only [Desc.advance] at hc ⊢
  exact ⟨by dsimp only; omega, by dsimp only; omega⟩

/-- One element read from the playing buffer, not its last, keeps the invariants while the engine runs. -/
theorem PingpongInv.read {c : Config} {e : Engine} (h : PingpongInv c e) (hr : e.running = true)
    (hc : (e.bufDesc e.playing).advance.count ≠ 0) :
    PingpongInv c (e.setBufDesc e.playing (e.bufDesc e.playing).advance) := by
  obtain ⟨r₁, r₂⟩ := h.noRing
  obtain ⟨q₁, q₂, q₃, q₄⟩ := h.noQueue
  exact {
    plays := fun _ => by rw [Engine.setBufDesc_playing, bst_setBufDesc]; exact h.plays hr
    other := fun _ => by rw [Engine.setBufDesc_playing, bst_setBufDesc]; exact h.other hr
    desc := by rw [Engine.setBufDesc_playing, bufDesc_setBufDesc, if_pos rfl]; exact h.desc.advance hc
    otherDesc := by
      rw [Engine.setBufDesc_playing, bufDesc_setBufDesc, if_neg (otherBuffer_ne _)]; exact h.otherDesc
    stopped := fun hstop => by simp [hr] at hstop
    rst := by rw [Engine.setBufDesc_rst]; exact h.rst
    noRing := ⟨by simpa using r₁, by simpa using r₂⟩
    noQueue := ⟨by simpa using q₁, by simpa using q₂, by simpa using q₃, by simpa using q₄⟩ }

section
variable (c : Config) (p : Fin 2) (e : Engine)

@[simp] theorem silenceBuffer_bst (q k : Fin 2) : (silenceBuffer c q e).bst k = e.bst k := rfl
@[simp] theorem silenceBuffer_bufDesc (q k : Fin 2) : (silenceBuffer c q e).bufDesc k = e.bufDesc k := rfl

/-- What the service of buffer `p`'s completion does to the registers of the shape: `p` refills, the other buffer plays. -/
theorem servicedBuffer_playing : (servicedBuffer c p e).playing = otherBuffer p := rfl

theorem servicedBuffer_bst (k : Fin 2) :
    (servicedBuffer c p e).bst k = if k = otherBuffer p then .playing else .refilling := by
  have hset : (servicedBuffer c p e).bst k =
      if k = otherBuffer p then .playing else ((e.setBufDesc p (.armed c)).setBst p .refilling).bst k := by
    have hfront (e' : Engine) (q : Fin 2) : ({ e' with playing := q } : Engine).bst k = e'.bst k := rfl
    unfold servicedBuffer
    split <;> simp only [hfront, bst_setBst, silenceBuffer_bst]
  rw [hset, bst_setBst]
  rcases eq_or_eq_otherBuffer k p with rfl | rfl
  · simp
  · simp

theorem servicedBuffer_bufDesc (k : Fin 2) :
    (servicedBuffer c p e).bufDesc k = if k = p then .armed c else e.bufDesc k := by
  have hfront (e' : Engine) (q : Fin 2) : ({ e' with playing := q } : Engine).bufDesc k = e'.bufDesc k := rfl
  unfold servicedBuffer
  split <;> simp only [hfront, bufDesc_setBst, bufDesc_setBufDesc, silenceBuffer_bufDesc]

theorem servicedBuffer_region :
    (servicedBuffer c p e).region =
      if e.bst (otherBuffer p) = .armed then e.region
      else e.region.writeBlock (bufIndex c (otherBuffer p).val 0) (silence c.bufLen) := by
  unfold servicedBuffer
  split <;> simp [silenceBuffer]

/-- The service leaves every register alone but the shape's own and `REGION`. -/
theorem sameBlock_servicedBuffer : SameBlock e (servicedBuffer c p e) := by
  unfold servicedBuffer
  split <;> constructor <;> simp [silenceBuffer]

theorem servicedBuffer_noRing (h : NoRing e) : NoRing (servicedBuffer c p e) := by
  obtain ⟨h₁, h₂⟩ := h
  unfold servicedBuffer
  split <;> constructor <;> simpa [silenceBuffer]

theorem servicedBuffer_noQueue (h : NoQueue c e) : NoQueue c (servicedBuffer c p e) := by
  obtain ⟨h₁, h₂, h₃, h₄⟩ := h
  unfold servicedBuffer
  split <;> constructor <;> simpa [silenceBuffer]

theorem servicedBuffer_rst : (servicedBuffer c p e).rst = e.rst := by
  unfold servicedBuffer
  split <;> simp [silenceBuffer]

end

/-- What happens between the raising and the clearing of a request that was clear leaves the request clear. -/
theorem SameBlock.clearIrq {e e' : Engine} {k : Fin 2} (h : SameBlock (e.setIrqPend k true) e')
    (hk : e.irqPend k = false) : SameBlock e (e'.setIrqPend k false) := by
  obtain ⟨h₁, h₂, h₃, h₄, h₅, h₆⟩ := h
  rcases fin2_cases k with rfl | rfl
  · exact ⟨h₁, h₂, h₃, h₄, hk.symm, h₆⟩
  · exact ⟨h₁, h₂, h₃, h₄, h₅, hk.symm⟩

theorem completedBuffer_bst (c : Config) (p : Fin 2) (e : Engine) (k : Fin 2) :
    (completedBuffer c p e).bst k = if k = otherBuffer p then .playing else .refilling := by
  rw [completedBuffer, bst_setIrqPend, servicedBuffer_bst]

theorem completedBuffer_bufDesc (c : Config) (p : Fin 2) (e : Engine) (k : Fin 2) :
    (completedBuffer c p e).bufDesc k = if k = p then .armed c else e.bufDesc k := by
  rw [completedBuffer, bufDesc_setIrqPend, servicedBuffer_bufDesc, bufDesc_setIrqPend, bufDesc_setBufDesc]
  split <;> rfl

theorem completedBuffer_playing (c : Config) (p : Fin 2) (e : Engine) :
    (completedBuffer c p e).playing = otherBuffer p := by
  rw [completedBuffer, Engine.setIrqPend_playing, servicedBuffer_playing]

theorem sameBlock_completedBuffer {c : Config} {p : Fin 2} {e : Engine} (h : e.irqPend p = false) :
    SameBlock e (completedBuffer c p e) := by
  have hadvanced : SameBlock e (e.setBufDesc p (e.bufDesc p).advance) := .setBufDesc (by constructor <;> rfl) _ _
  have hp : (e.setBufDesc p (e.bufDesc p).advance).irqPend p = false := by
    rw [← h]; simp [Engine.irqPend]
  exact hadvanced.trans ((sameBlock_servicedBuffer c p _).clearIrq hp)

/-- The completion of the playing buffer keeps the invariants while the engine runs: the other buffer plays from its start. -/
theorem PingpongInv.complete {c : Config} {e : Engine} (h : PingpongInv c e) (hlen : 1 ≤ c.bufLen)
    (hr : (completedBuffer c e.playing e).running = true) : PingpongInv c (completedBuffer c e.playing e) := by
  obtain ⟨r₁, r₂⟩ := h.noRing
  obtain ⟨q₁, q₂, q₃, q₄⟩ := h.noQueue
  obtain ⟨r₁', r₂'⟩ := servicedBuffer_noRing c e.playing
    ((e.setBufDesc e.playing (e.bufDesc e.playing).advance).setIrqPend e.playing true) ⟨by simpa, by simpa⟩
  obtain ⟨q₁', q₂', q₃', q₄'⟩ := servicedBuffer_noQueue c e.playing
    ((e.setBufDesc e.playing (e.bufDesc e.playing).advance).setIrqPend e.playing true)
    ⟨by simpa, by simpa, by simpa, by simpa⟩
  exact {
    plays := fun _ => by rw [completedBuffer_playing, completedBuffer_bst, if_pos rfl]
    other := fun _ => by
      rw [completedBuffer_playing, otherBuffer_otherBuffer, completedBuffer_bst, if_neg (otherBuffer_ne _).symm]
      exact nofun
    desc := by
      rw [completedBuffer_playing, completedBuffer_bufDesc, if_neg (otherBuffer_ne _), h.otherDesc]
      exact descInv_armed hlen
    otherDesc := by rw [completedBuffer_playing, otherBuffer_otherBuffer, completedBuffer_bufDesc, if_pos rfl]
    stopped := fun hstop => by simp [hr] at hstop
    rst := by simpa [completedBuffer, servicedBuffer_rst] using h.rst
    noRing := ⟨by simpa [completedBuffer], by simpa [completedBuffer]⟩
    noQueue := ⟨by simpa [completedBuffer], by simpa [completedBuffer], by simpa [completedBuffer],
      by simpa [completedBuffer]⟩ }

theorem EngineInv.irqPend {c : Config} {e : Engine} (h : EngineInv c e) (k : Fin 2) : e.irqPend k = false := by
  rcases fin2_cases k with rfl | rfl
  · exact h.irqPend0
  · exact h.irqPend1

theorem pairSpace_completedBuffer {c : Config} {e : Engine} (hs : c.shape = .pingpong)
    (h : PairSpace e.region (regionSize c)) (p : Fin 2) :
    PairSpace (completedBuffer c p e).region (regionSize c) := by
  simp only [completedBuffer, Engine.setIrqPend_region, servicedBuffer_region, Engine.setBufDesc_region]
  split
  · exact h
  · refine pairSpace_writeBuffer h ?_ (monoFrame_silence _) (length_silence _)
    simp only [regionSize, hs]
    exact Nat.mul_le_mul_right _ (otherBuffer p).isLt

/-- A tick that is not the playing buffer's last: quiet. -/
theorem engineTicked_pingpong_read {c : Config} {e : Engine} (hs : c.shape = .pingpong) (h : EngineInv c e)
    (hr : e.running = true) (hc : (e.bufDesc e.playing).advance.count ≠ 0) :
    EngineTicked c e (e.setBufDesc e.playing (e.bufDesc e.playing).advance) false false := by
  have hblock : SameBlock e (e.setBufDesc e.playing (e.bufDesc e.playing).advance) :=
    .setBufDesc (by constructor <;> rfl) _ _
  have hregion : PairSpace (e.setBufDesc e.playing (e.bufDesc e.playing).advance).region (regionSize c) := by
    rw [Engine.setBufDesc_region]; exact h.region
  refine ⟨h.of_sameBlock hblock hregion (shapeInv_pingpong hs ((h.pingpong hs).read hr hc)), hblock, ?_, ?_⟩
  · rw [quietTicks_pingpong hs, quietTicks_pingpong hs, Engine.setBufDesc_playing, bufDesc_setBufDesc, if_pos rfl]
    simp only [Desc.advance] at hc ⊢
    exact fun _ => ⟨by omega, trivial, trivial⟩
  · rw [quietTicks_pingpong hs]
    exact fun hq => absurd hq hc

/-- The playing buffer's last tick: its completion. -/
theorem engineTicked_pingpong_complete {c : Config} {e : Engine} (hl : Legal c) (hs : c.shape = .pingpong)
    (h : EngineInv c e) (hr : e.running = true) (hc : (e.bufDesc e.playing).advance.count = 0) (underrun : Bool) :
    EngineTicked c e (completedBuffer c e.playing e) true underrun := by
  have hi := h.pingpong hs
  have hlen := (legal_pingpong hl hs).1
  have hn := legal_n_pos hl
  have hblock : SameBlock e (completedBuffer c e.playing e) := sameBlock_completedBuffer (h.irqPend _)
  have hi' := hi.complete (by omega) (hblock.running.trans hr)
  refine ⟨h.of_sameBlock hblock (pairSpace_completedBuffer hs h.region _) (shapeInv_pingpong hs hi'), hblock, ?_, ?_⟩
  · rw [quietTicks_pingpong hs]
    exact fun hq => absurd hc hq
  · rw [quietTicks_pingpong hs (completedBuffer c e.playing e), completedBuffer_playing, completedBuffer_bufDesc,
      if_neg (otherBuffer_ne _), hi.otherDesc]
    simp only [Desc.armed, hs]
    exact fun _ => ⟨by omega, by simp⟩

/-! ### N-buffer -/

/-- One element read from the buffer that plays, not its last, keeps the invariants while the engine runs. -/
theorem QueueInv.read {c : Config} {e : Engine} (h : QueueInv c e) (hr : e.running = true) (hc : e.desc.advance.count ≠ 0) :
    QueueInv c { e with desc := e.desc.advance } := by
  obtain ⟨r₁, r₂⟩ := h.noRing
  obtain ⟨p₁, p₂, p₃, p₄, p₅⟩ := h.noPingpong
  exact ⟨h.fill_le, h.desc.advance hc, h.filled, h.rst, fun hstop => by simp [hr] at hstop, ⟨r₁, r₂⟩,
    ⟨p₁, p₂, p₃, p₄, p₅⟩⟩

/-- Retiring a buffer never raises the fill: a buffer of data that plays counts in it, a silent substitute does not. -/
theorem QueueInv.queueFill_retired_le {c : Config} {e : Engine} (h : QueueInv c e) (hr : e.running = true) :
    queueFill (retired c e) ≤ queueFill e := by
  cases hsilent : e.curSilent with
  | true => simp [queueFill, retired, hsilent]
  | false =>
    have hfilled := h.filled hr hsilent
    have hstep : e.wrCnt - (e.rdCnt + 1) = (e.wrCnt - e.rdCnt) - 1 := by ring
    simp only [queueFill, retired, hsilent] at hfilled ⊢
    rw [if_neg (by simp), hstep, BitVec.toNat_sub_of_le (by simpa [BitVec.le_def] using hfilled)]
    omega

theorem QueueInv.complete {c : Config} {e : Engine} (h : QueueInv c e) (hlen : 1 ≤ c.bufLen) (hr : e.running = true) :
    QueueInv c (completedQueue c e) := by
  have hfill := h.queueFill_retired_le hr
  have hle := h.fill_le
  obtain ⟨r₁, r₂⟩ := h.noRing
  obtain ⟨p₁, p₂, p₃, p₄, p₅⟩ := h.noPingpong
  have hsame : queueFill (completedQueue c e) = queueFill (retired c e) := rfl
  refine ⟨by omega, descInv_armed hlen, fun _ hdata => ?_, h.rst, fun hstop => ?_, ⟨r₁, r₂⟩, ⟨p₁, p₂, p₃, p₄, p₅⟩⟩
  · have hne : queueFill (retired c e) ≠ 0 := of_decide_eq_false hdata
    omega
  · rw [completedQueue, retired] at hstop
    simp [hr] at hstop

theorem engineTicked_nbuf_read {c : Config} {e : Engine} (hs : c.shape = .nbuf) (h : EngineInv c e)
    (hr : e.running = true) (hc : e.desc.advance.count ≠ 0) :
    EngineTicked c e { e with desc := e.desc.advance } false false := by
  have hblock : SameBlock e { e with desc := e.desc.advance } := ⟨rfl, rfl, rfl, rfl, rfl, rfl⟩
  refine ⟨h.of_sameBlock hblock h.region (shapeInv_nbuf hs ((h.nbuf hs).read hr hc)), hblock, ?_, ?_⟩
  · rw [quietTicks_nbuf hs, quietTicks_nbuf hs]
    simp only [Desc.advance] at hc ⊢
    exact fun _ => ⟨by omega, trivial, trivial⟩
  · rw [quietTicks_nbuf hs]
    exact fun hq => absurd hq hc

theorem engineTicked_nbuf_complete {c : Config} {e : Engine} (hl : Legal c) (hs : c.shape = .nbuf) (h : EngineInv c e)
    (hr : e.running = true) (hc : e.desc.advance.count = 0) (underrun : Bool) :
    EngineTicked c e (completedQueue c e) true underrun := by
  have hlen := (legal_nbuf hl hs).2.1
  have hn := legal_n_pos hl
  have hblock : SameBlock e (completedQueue c e) := ⟨rfl, rfl, rfl, rfl, h.irqPend0.symm, rfl⟩
  have hi' := (h.nbuf hs).complete (by omega) hr
  refine ⟨h.of_sameBlock hblock h.region (shapeInv_nbuf hs hi'), hblock, ?_, ?_⟩
  · rw [quietTicks_nbuf hs]
    exact fun hq => absurd hc hq
  · rw [quietTicks_nbuf hs (completedQueue c e)]
    simp only [completedQueue, retired, Desc.armed, hs]
    exact fun _ => ⟨by omega, by simp⟩

/-! ### All shapes -/

theorem tick_ready {s : State} (h : EngineInv s.cfg s.engine) (hr : s.engine.running = true) :
    tickEnabled s.engine = true :=
  (tickEnabled_iff _).2 ⟨h.ready hr, hr⟩

/-- What a tick of a running engine does to a good engine, over the shapes. -/
theorem tick_engineTicked {s t : State} (hl : Legal s.cfg) (h : EngineInv s.cfg s.engine) (hr : s.engine.running = true)
    (ht : tick s = .next t) :
    ∃ e v irq underrun, t = s.ticked e v irq underrun ∧ EngineTicked s.cfg s.engine e irq underrun := by
  rw [tick_enabled (tick_ready h hr)] at ht
  cases hs : s.cfg.shape with
  | ring =>
    rw [hs] at ht
    obtain ⟨v, rfl⟩ := tickRing_ticked ht
    exact ⟨_, v, _, _, rfl, engineTicked_ring hl hs h hr⟩
  | pingpong =>
    rw [hs] at ht
    obtain ⟨v, ⟨hc, rfl⟩ | ⟨hc, rfl⟩⟩ := tickPingpong_ticked ht
    · exact ⟨_, v, _, _, rfl, engineTicked_pingpong_read hs h hr hc⟩
    · exact ⟨_, v, _, _, rfl, engineTicked_pingpong_complete hl hs h hr hc _⟩
  | nbuf =>
    rw [hs] at ht
    obtain ⟨v, ⟨hc, rfl⟩ | ⟨hc, rfl⟩⟩ := tickNbuf_ticked ht
    · exact ⟨_, v, _, _, rfl, engineTicked_nbuf_read hs h hr hc⟩
    · exact ⟨_, v, _, _, rfl, engineTicked_nbuf_complete hl hs h hr hc _⟩

/-! ### A tick always answers -/

theorem takeInterrupt_answers {s : State} (k : Fin 2) (service : State → State) (h : s.engine.irqEn = true) :
    ∃ t, takeInterrupt k service s = .next t := ⟨_, takeInterrupt_enabled h⟩

theorem tickRing_answers {s : State} (hs : s.cfg.shape = .ring) (h : RingInv s.cfg s.engine) : ∃ t, tickRing s = .next t := by
  have hlt : s.engine.rdPos < regionSize s.cfg := by simpa only [regionSize, hs] using h.rd_lt
  have hrd : (if ringFill s.cfg s.engine = 0 then raiseUnderrun (insertSilence s.cfg) s else s).engine.rdPos <
      regionSize (if ringFill s.cfg s.engine = 0 then raiseUnderrun (insertSilence s.cfg) s else s).cfg := by
    split <;> exact hlt
  unfold tickRing
  simp only [readIn_of_lt hrd]
  exact ⟨_, rfl⟩

theorem tickPingpong_answers {s : State} (hs : s.cfg.shape = .pingpong) (h : PingpongInv s.cfg s.engine)
    (hirq : s.engine.irqEn = true) : ∃ t, tickPingpong s = .next t := by
  obtain ⟨htotal, hleft⟩ := h.desc
  have hk : s.engine.playing.val < bufferCount s.cfg := by simp only [bufferCount, hs]; exact s.engine.playing.isLt
  unfold tickPingpong
  simp only [readBuffer_of_lt hk (show (s.engine.bufDesc s.engine.playing).addr < s.cfg.bufLen by omega)]
  split
  · exact takeInterrupt_answers _ _ (by simpa using hirq)
  · exact ⟨_, rfl⟩

theorem queueSample_answers {c : Config} {e : Engine} (hl : Legal c) (hs : c.shape = .nbuf) (h : QueueInv c e) :
    ∃ v, queueSample c e = some v := by
  obtain ⟨htotal, hleft⟩ := h.desc
  have hnbuf := (legal_nbuf hl hs).2.2.1
  have hk : e.rdCnt.toNat % c.nbuf < bufferCount c := by
    simp only [bufferCount, hs]; exact Nat.mod_lt _ (by omega)
  unfold queueSample
  split
  · exact ⟨_, rfl⟩
  · exact ⟨_, readBuffer_of_lt hk (by omega)⟩

theorem tickNbuf_answers {s : State} (hl : Legal s.cfg) (hs : s.cfg.shape = .nbuf) (h : QueueInv s.cfg s.engine)
    (hirq : s.engine.irqEn = true) : ∃ t, tickNbuf s = .next t := by
  obtain ⟨v, hv⟩ := queueSample_answers hl hs h
  unfold tickNbuf
  simp only [hv]
  split
  · exact takeInterrupt_answers _ _ hirq
  · exact ⟨_, rfl⟩

/-- The running engine of a good block answers every tick: no index is out of range and no interrupt masked (R61, R217). -/
theorem tick_answers {s : State} (hl : Legal s.cfg) (h : EngineInv s.cfg s.engine) (hr : s.engine.running = true) :
    ∃ t, tick s = .next t := by
  have hirq : s.engine.irqEn = true := by rw [h.irqEn, h.ready hr]; rfl
  rw [tick_enabled (tick_ready h hr)]
  cases hs : s.cfg.shape with
  | ring => exact tickRing_answers hs (h.ring hs)
  | pingpong => exact tickPingpong_answers hs (h.pingpong hs) hirq
  | nbuf => exact tickNbuf_answers hl hs (h.nbuf hs) hirq

end Sys2Proof.Machine
end

section
/-! PROOFS. Every step of every agent keeps a good state good (10_state.md R49), and one buffer period of ticks (R43). -/

namespace Sys2Proof.Machine

/-! ### Commands -/

/-- A command keeps the configuration, the input and the schedule, so only the volume and the invariants of the mixer and the
engine are left to show. -/
theorem GoodState.of_command {s t : State} (hg : GoodState s) (hf : CommandFrame s t) (hv : t.control.volume.toNat ≤ 128)
    (hm : MixerInv s.cfg t.mixer) (he : EngineInv s.cfg t.engine)
    (hstopped : t.engine.blkState ≠ .ready →
      t.mixer = .reset ∧ t.engine = { Engine.reset s.cfg with blkState := t.engine.blkState }) : GoodState t where
  legal := by rw [hf.cfg]; exact hg.legal
  volume_le := hv
  input := by rw [hf.cfg, hf.input]; exact hg.input
  mixer := by rw [hf.cfg]; exact hm
  engine := by rw [hf.cfg]; exact he
  stopped hne := by
    obtain ⟨hmixer, hengine⟩ := hstopped hne
    exact ⟨hmixer, by rw [hf.cfg]; exact hengine⟩
  turns := by rw [hf.cfg, hf.turns]; exact hg.turns

/-- A command that leaves the mixer and the engine alone. -/
theorem GoodState.of_control {s t : State} (hg : GoodState s) (hf : CommandFrame s t)
    (hv : t.control.volume.toNat ≤ 128) (hm : t.mixer = s.mixer) (he : t.engine = s.engine) : GoodState t := by
  refine hg.of_command hf hv (hm ▸ hg.mixer) (he ▸ hg.engine) ?_
  rw [hm, he]
  exact fun hne => ⟨(hg.stopped hne).mixer, (hg.stopped hne).engine⟩

/-- A command that zeroes the block and leaves it in block state `b`. -/
theorem GoodState.of_zeroed {s t : State} (hg : GoodState s) (hf : CommandFrame s t) (hc : t.control = s.control)
    (hm : t.mixer = .reset) {b : BlkState} (he : t.engine = .zeroed s.cfg b) : GoodState t := by
  refine hg.of_command hf (hc ▸ hg.volume_le) (hm ▸ mixerInv_reset _) (he ▸ engineInv_zeroed hg.legal b) ?_
  rw [he]
  exact fun hne => ⟨hm, Engine.zeroed_of_ne_ready hne⟩

/-- A command that runs in `Ready` and stays there. -/
theorem GoodState.of_ready {s t : State} (hg : GoodState s) (hf : CommandFrame s t) (hc : t.control = s.control)
    (hm : MixerInv s.cfg t.mixer) (he : EngineInv s.cfg t.engine) (hr : t.engine.blkState = .ready) : GoodState t :=
  hg.of_command hf (hc ▸ hg.volume_le) hm he fun hne => absurd hr hne

theorem toNat_volumeOperand_le (a0 : Byte) : (volumeOperand a0).toNat ≤ 128 := by
  simp only [volumeOperand, BitVec.toNat_ofNat]
  omega

/-- An admitted PUSH of a frame from `OUT_BUF` keeps the engine's invariants. -/
theorem GoodState.engineInv_push {s : State} (hg : GoodState s) (hready : s.engine.blkState = .ready)
    (hheld : pushHeld s.cfg s.engine = false) {m : Mixer} (hm : MixerInv s.cfg m) {e : Engine}
    (hp : publishFrame s.cfg (copiedFrame { s with mixer := m }) s.engine = some e) :
    EngineInv s.cfg (prerollStep s.cfg e) :=
  Machine.engineInv_push hg.legal hg.engine hready hheld (monoFrame_copiedFrame hm.outBuf.mono)
    (length_copiedFrame { s with mixer := m }) hp

theorem publishFrame_blkState {c : Config} {frame : List Pair} {e e' : Engine} (h : publishFrame c frame e = some e') :
    e'.blkState = e.blkState := by
  unfold publishFrame at h
  split at h
  · cases h; rfl
  · split at h
    · split at h
      · cases h
      · cases h; simp
    · cases h
  · split at h
    · cases h
    · cases h; rfl

theorem exec_keeps_goodState {i : Instr} {s t : State} (hg : GoodState s) (h : exec i s = .next t) : GoodState t := by
  have hf := exec_frame h
  have he := exec_effect h
  cases i with
  | regwrite chip port data ts => cases he; exact hg.of_control hf hg.volume_le rfl rfl
  | reset =>
    cases he
    refine hg.of_command hf hg.volume_le (mixerInv_restarted hg.mixer) hg.engine fun hne => ?_
    obtain ⟨hmixer, hengine⟩ := hg.stopped hne
    exact ⟨by simp [hmixer, Mixer.reset], hengine⟩
  | volume a0 => cases he; exact hg.of_control hf (toNat_volumeOperand_le a0) rfl rfl
  | enable a0 => cases he; exact hg.of_control hf hg.volume_le rfl rfl
  | framesync cycle => cases he; exact hg.of_control hf hg.volume_le rfl rfl
  | dacsample d ts => cases he; exact hg.of_control hf hg.volume_le rfl rfl
  | init =>
    obtain ⟨-, rfl⟩ | ⟨-, rfl⟩ := he
    · exact hg
    · refine hg.of_zeroed (b := if s.hwAvailable then .ready else .failed) hf ?_ ?_ ?_ <;> rw [bringUp_eq] <;> rfl
  | teardown =>
    obtain ⟨-, rfl⟩ | ⟨-, rfl⟩ := he
    · exact hg
    · exact hg.of_zeroed hf rfl rfl (Engine.reset_eq_zeroed s.cfg)
  | mix =>
    obtain ⟨-, rfl⟩ | ⟨hr, m, hm, rfl⟩ := he
    · exact hg
    · exact hg.of_ready hf rfl (mixerInv_of_mixFrame hg.legal hg.mixer hm) hg.engine hr
  | push =>
    obtain ⟨-, rfl⟩ | ⟨hr, hheld, e, hp, rfl⟩ := he
    · exact hg
    · exact hg.of_ready hf rfl hg.mixer (hg.engineInv_push hr hheld hg.mixer hp)
        ((prerollStep_blkState s.cfg e).trans ((publishFrame_blkState hp).trans hr))
  | submit =>
    obtain ⟨-, rfl⟩ | ⟨hr, hheld, m, e, hm, hp, rfl⟩ := he
    · exact hg
    · have hm' := mixerInv_of_mixFrame hg.legal hg.mixer hm
      exact hg.of_ready hf rfl hm' (hg.engineInv_push hr hheld hm' hp)
        ((prerollStep_blkState s.cfg e).trans ((publishFrame_blkState hp).trans hr))
  | getStats => cases he; exact hg.of_control hf hg.volume_le rfl rfl
  | resetStats => cases he; exact hg.of_control hf hg.volume_le rfl rfl
  | setShift a0 => cases he; exact hg.of_control hf hg.volume_le rfl rfl

/-! ### Turns -/

/-- What the invariants do not speak of may change, and turns may be used up. -/
theorem GoodState.of_same {s t : State} (hg : GoodState s) (hcfg : t.cfg = s.cfg) (hcontrol : t.control = s.control)
    (hinput : t.input = s.input) (hmixer : t.mixer = s.mixer) (hengine : t.engine = s.engine)
    (hturns : ∀ x ∈ t.turns, x ∈ s.turns) : GoodState t where
  legal := by rw [hcfg]; exact hg.legal
  volume_le := by rw [hcontrol]; exact hg.volume_le
  input := by rw [hcfg, hinput]; exact hg.input
  mixer := by rw [hcfg, hmixer]; exact hg.mixer
  engine := by rw [hcfg, hengine]; exact hg.engine
  stopped hne := by
    rw [hengine] at hne
    obtain ⟨hm, he⟩ := hg.stopped hne
    exact ⟨hmixer.trans hm, by rw [hcfg, hengine]; exact he⟩
  turns := by rw [hcfg]; exact fun x hx => hg.turns x (hturns x hx)

theorem GoodState.consume {s : State} (hg : GoodState s) (r : Record) (rest : List Record) (b : Bool) :
    GoodState (consume r rest b s) :=
  hg.of_same rfl rfl rfl rfl rfl fun _ hx => hx

theorem hostTurn_keeps_goodState {s t : State} (hg : GoodState s) (h : hostTurn s = .next t) : GoodState t := by
  obtain ⟨-, rfl⟩ | ⟨r, rest, -, ⟨k, -, rfl⟩ | ⟨i, -, ⟨-, rfl⟩ | ⟨-, he⟩⟩⟩ := hostTurn_eq_next h
  · exact hg
  · exact hg.consume r rest false
  · exact hg
  · exact exec_keeps_goodState (hg.consume r rest (passedOn i)) he

/-- A tick of a running engine leaves a good state, its engine ticked. -/
theorem GoodState.ticked {s : State} (hg : GoodState s) (hr : s.engine.running = true) {e : Engine} (v : Pair)
    {irq underrun : Bool} (h : EngineTicked s.cfg s.engine e irq underrun) : GoodState (s.ticked e v irq underrun) where
  legal := hg.legal
  volume_le := hg.volume_le
  input := hg.input
  mixer := hg.mixer
  engine := h.inv
  stopped hne := absurd (h.block.blkState.trans (hg.engine.ready hr)) hne
  turns := hg.turns

theorem tick_keeps_goodState {s t : State} (hg : GoodState s) (h : tick s = .next t) : GoodState t := by
  obtain ⟨-, rfl⟩ | ⟨hen, -⟩ := tick_eq_next h
  · exact hg
  · have hr := ((tickEnabled_iff _).1 hen).2
    obtain ⟨e, v, irq, underrun, rfl, hticked⟩ := tick_engineTicked hg.legal hg.engine hr h
    exact hg.ticked hr v hticked

theorem SampleSpace.write {m : Memory Sample} {size i : Nat} (h : SampleSpace m size) (hi : i < size) (v : Sample) :
    SampleSpace (m.write i v) size :=
  ⟨Memory.wf_write h.wf i v, Memory.within_writeBlock h.within (by simpa using hi)⟩

theorem GoodState.withInput {s : State} (hg : GoodState s) {inp : Input} (h : InputInv s.cfg inp) :
    GoodState { s with input := inp } :=
  ⟨hg.legal, hg.volume_le, h, hg.mixer, hg.engine, fun hne => ⟨(hg.stopped hne).mixer, (hg.stopped hne).engine⟩, hg.turns⟩

theorem scaTurn_keeps_goodState {w : ScaWrite} {s t : State} (hg : GoodState s) (h : scaTurn w s = .next t) :
    GoodState t := by
  obtain ⟨hfm, hpsg⟩ := hg.input
  obtain ⟨inp, rfl, hinp⟩ := scaTurn_eq_next h
  cases w with
  | fmCount v => obtain ⟨⟩ := hinp; exact hg.withInput ⟨hfm, hpsg⟩
  | psgCount v => obtain ⟨⟩ := hinp; exact hg.withInput ⟨hfm, hpsg⟩
  | fmSample i v =>
    obtain ⟨hi, rfl⟩ := hinp
    exact hg.withInput ⟨hfm.write hi v, hpsg⟩
  | psgSample i v =>
    obtain ⟨hi, rfl⟩ := hinp
    exact hg.withInput ⟨hfm, hpsg.write hi v⟩

theorem runTurn_keeps_goodState {turn : Turn} {s t : State} (hg : GoodState s) (h : runTurn turn s = .next t) :
    GoodState t := by
  cases turn with
  | host => exact hostTurn_keeps_goodState hg h
  | dma => exact tick_keeps_goodState hg h
  | sca w => exact scaTurn_keeps_goodState hg h
  | env a =>
    obtain ⟨b, v, w, rfl⟩ := envTurn_eq_next h
    exact hg.of_same rfl rfl rfl rfl rfl fun _ hx => hx

/-- Settles O50: the turn is used up, and every agent's turn keeps a good state good. -/
theorem stepKeepsGoodState : Obligations.StepKeepsGoodState := by
  intro s t hg h
  obtain ⟨-, ⟨-, rfl⟩ | ⟨turn, later, hturns, ht⟩⟩ := step_eq_next h
  · exact hg
  · have hlater : GoodState { s with turns := later } :=
      hg.of_same rfl rfl rfl rfl rfl fun x hx => hturns ▸ List.mem_cons_of_mem turn hx
    exact runTurn_keeps_goodState hlater ht

/-! ### One buffer period -/

theorem ticks_add (a b : Nat) (s : State) : ticks (a + b) s = andThen (ticks a s) (ticks b) := by
  induction a generalizing s with
  | zero => rw [Nat.zero_add]; rfl
  | succ a ih =>
    rw [Nat.succ_add, ticks, ticks]
    cases tick s with
    | next u => exact ih u
    | fault r => rfl
    | refused r => rfl

/-- `s` runs to `t` in `k` ticks: still good and running, `k` elements further. -/
structure RanFor (k : Nat) (s t : State) : Prop where
  good : GoodState t
  running : t.engine.running = true
  cfg : t.cfg = s.cfg
  emitted : t.outStream.length = s.outStream.length + k

theorem RanFor.trans {a b : Nat} {s u t : State} (h : RanFor a s u) (h' : RanFor b u t) : RanFor (a + b) s t :=
  ⟨h'.good, h'.running, h'.cfg.trans h.cfg, by rw [h'.emitted, h.emitted, Nat.add_assoc]⟩

/-- One tick of a good running state: it answers, and runs on. -/
theorem tick_ran {s : State} (hg : GoodState s) (hr : s.engine.running = true) :
    ∃ e v irq underrun, tick s = .next (s.ticked e v irq underrun) ∧ EngineTicked s.cfg s.engine e irq underrun ∧
      RanFor 1 s (s.ticked e v irq underrun) := by
  obtain ⟨t, ht⟩ := tick_answers hg.legal hg.engine hr
  obtain ⟨e, v, irq, underrun, rfl, hticked⟩ := tick_engineTicked hg.legal hg.engine hr ht
  exact ⟨e, v, irq, underrun, ht, hticked, hg.ticked hr v hticked, hticked.block.running.trans hr, rfl,
    List.length_append⟩

/-- Ticks up to the next event count no interrupt and no underrun. -/
theorem ticks_quiet {k : Nat} {s : State} (hg : GoodState s) (hr : s.engine.running = true)
    (hk : k ≤ quietTicks s.cfg s.engine) :
    ∃ t, ticks k s = .next t ∧ RanFor k s t ∧ quietTicks t.cfg t.engine + k = quietTicks s.cfg s.engine ∧
      t.stats.irqCount = s.stats.irqCount ∧ t.stats.underruns = s.stats.underruns := by
  induction k generalizing s with
  | zero => exact ⟨s, rfl, ⟨hg, hr, rfl, rfl⟩, rfl, rfl, rfl⟩
  | succ k ih =>
    obtain ⟨e, v, irq, underrun, ht, hticked, hran⟩ := tick_ran hg hr
    obtain ⟨hquiet, rfl, rfl⟩ := hticked.quiet (by omega)
    have hk' : k ≤ quietTicks s.cfg e := by omega
    obtain ⟨t, hts, hran', hq, hirq, hund⟩ := ih hran.good hran.running hk'
    have hq' : quietTicks t.cfg t.engine + k = quietTicks s.cfg e := hq
    refine ⟨t, by rw [ticks, ht]; exact hts, Nat.add_comm 1 k ▸ hran.trans hran', by omega, hirq, hund⟩

/-- The tick of the next event counts the completion interrupt, but in the ring, and at most one underrun; `N - 1` quiet ticks
follow it. -/
theorem tick_event {s : State} (hg : GoodState s) (hr : s.engine.running = true) (hq : quietTicks s.cfg s.engine = 0) :
    ∃ t, tick s = .next t ∧ RanFor 1 s t ∧ quietTicks t.cfg t.engine + 1 = s.cfg.n ∧
      t.stats.irqCount = (if s.cfg.shape = .ring then s.stats.irqCount else satInc32 s.stats.irqCount) ∧
      (t.stats.underruns = s.stats.underruns ∨ t.stats.underruns = satInc32 s.stats.underruns) := by
  obtain ⟨e, v, irq, underrun, ht, hticked, hran⟩ := tick_ran hg hr
  obtain ⟨hnext, rfl⟩ := hticked.event hq
  refine ⟨_, ht, hran, hnext, ?_, ?_⟩
  · by_cases hs : s.cfg.shape = .ring <;> simp [State.ticked, Stats.ticked, hs]
  · cases underrun with
    | false => exact .inl rfl
    | true => exact .inr rfl

/-- In the shapes with buffers the event comes within one buffer. -/
theorem quietTicks_lt {c : Config} {e : Engine} (hl : Legal c) (h : EngineInv c e) (hs : c.shape ≠ .ring) :
    quietTicks c e < c.n := by
  have hn := legal_n_pos hl
  cases hc : c.shape with
  | ring => exact absurd hc hs
  | pingpong =>
    obtain ⟨htotal, hleft⟩ := (h.pingpong hc).desc
    have := (legal_pingpong hl hc).1
    rw [quietTicks_pingpong hc]; omega
  | nbuf =>
    obtain ⟨htotal, hleft⟩ := (h.nbuf hc).desc
    have := (legal_nbuf hl hc).2.1
    rw [quietTicks_nbuf hc]; omega

/-- Settles O47: the period is quiet throughout, which only a ring can be, or has exactly one event, since `N - 1` quiet ticks
follow an event. -/
theorem oneBufferPeriodOfTicks : Obligations.OneBufferPeriodOfTicks := by
  intro s hg hr
  rcases Nat.lt_or_ge (quietTicks s.cfg s.engine) s.cfg.n with hlt | hge
  · obtain ⟨u, hu, hran, hqu, hirqu, hundu⟩ := ticks_quiet hg hr (le_refl _)
    obtain ⟨w, hw, hran', hqw, hirqw, hundw⟩ := tick_event hran.good hran.running (by omega)
    rw [hran.cfg] at hqw hirqw
    obtain ⟨t, ht, hran'', -, hirqt, hundt⟩ :=
      ticks_quiet (k := s.cfg.n - 1 - quietTicks s.cfg s.engine) hran'.good hran'.running (by omega)
    have hsplit : s.cfg.n = quietTicks s.cfg s.engine + (s.cfg.n - 1 - quietTicks s.cfg s.engine + 1) := by omega
    have hrun : ticks s.cfg.n s = .next t := by
      rw [hsplit, ticks_add, hu, andThen_next, ticks, hw, andThen_next, ht]
    have hemitted := ((hran.trans hran').trans hran'').emitted
    rw [hirqu] at hirqw
    rw [hundu] at hundw
    exact ⟨t, hrun, by omega, hirqt.trans hirqw, by rwa [hundt]⟩
  · obtain ⟨t, ht, hran, -, hirq, hund⟩ := ticks_quiet hg hr hge
    have hs : s.cfg.shape = .ring := by
      by_contra hs
      have := quietTicks_lt hg.legal hg.engine hs
      omega
    exact ⟨t, ht, hran.emitted, by rw [if_pos hs, hirq], .inl hund⟩

end Sys2Proof.Machine
end

section
/-! PROOFS. The agents' atomic steps in order (20_memory.md R70, R71), who writes what (R73), and the ring's mask (R62). -/

namespace Sys2Proof.Machine

/-! ### Ring positions -/

/-- Settles O56: a legal ring has a power of two of elements, and the remainder by a power of two is the mask below it. -/
theorem ringWrapsByMasking : Obligations.RingWrapsByMasking := by
  intro c p hl hs
  obtain ⟨⟨k, hk⟩, -⟩ := legal_ring hl hs
  refine ⟨?_, wrapPos_lt (legal_ringSize_pos hl hs) p⟩
  rw [wrapPos, hk]
  exact (Nat.and_two_pow_sub_one_eq_mod p k).symm

/-! ### The HOST's turn -/

/-- Whether a command is held does not depend on the order of turns. -/
theorem heldIn_withTurns (i : Instr) (s : State) (later : List Turn) : heldIn i { s with turns := later } = heldIn i s := by
  cases i <;> rfl

theorem hostTurn_of_command {s : State} {r : Record} {rest : List Record} {i : Instr} (hport : s.port = r :: rest)
    (hi : decode r = .command i) (hheld : heldIn i s = false) :
    hostTurn s = exec i (consume r rest (passedOn i) s) := by
  simp [hostTurn, hport, hi, hheld]

/-- Settles O6: the HOST's turn finds the record at the head of the port and its command not held. -/
theorem stepRunsDecodedCommand : Obligations.StepRunsDecodedCommand := by
  rintro s r rest later i ⟨hl, hturns, hport⟩ hi hheld
  rw [step_of_turn hl hturns]
  exact hostTurn_of_command hport hi ((heldIn_withTurns i s later).trans hheld)

/-! ### The turns of the other agents -/

theorem step_of_no_turn {s : State} (hl : Legal s.cfg) (ht : s.turns = []) : step s = .next s := by
  have hl : legalConfig s.cfg = true := hl
  simp [step, hl, ht]

theorem scaTurn_fmSample {s : State} {i : Nat} (h : i < s.cfg.cap) (v : Sample) :
    scaTurn (.fmSample i v) s = .next { s with input := { s.input with fmIn := s.input.fmIn.write i v } } := by
  have hw : writeIn s.input.fmIn s.cfg.cap i [v] = some (s.input.fmIn.write i v) := writeIn_of_le h
  simp only [scaTurn, hw]

theorem scaTurn_psgSample {s : State} {i : Nat} (h : i < s.cfg.cap) (v : Sample) :
    scaTurn (.psgSample i v) s = .next { s with input := { s.input with psgIn := s.input.psgIn.write i v } } := by
  have hw : writeIn s.input.psgIn s.cfg.cap i [v] = some (s.input.psgIn.write i v) := writeIn_of_le h
  simp only [scaTurn, hw]

theorem toNat_raiseTo (old new : Word32) : (raiseTo old new).toNat = max old.toNat new.toNat := by
  unfold raiseTo
  split <;> omega

/-- Settles O12: under a legal configuration a step is the turn at the head of the list, and each turn has its equation. -/
theorem otherAgentsTurns : Obligations.OtherAgentsTurns := by
  intro s later hl
  refine ⟨step_of_no_turn hl, step_of_turn hl, fun v => step_of_turn hl, fun v => step_of_turn hl, fun i v ht hi => ?_,
    fun i v ht hi => ?_, fun b => step_of_turn hl, fun v ht => ?_, fun v ht => ?_⟩
  · exact ⟨_, (step_of_turn hl ht).trans (scaTurn_fmSample (s := { s with turns := later }) hi v),
      fun k => Memory.read_write _ i k v⟩
  · exact ⟨_, (step_of_turn hl ht).trans (scaTurn_psgSample (s := { s with turns := later }) hi v),
      fun k => Memory.read_write _ i k v⟩
  · exact ⟨_, step_of_turn hl ht, toNat_raiseTo _ v⟩
  · exact ⟨_, step_of_turn hl ht, toNat_raiseTo _ v⟩

/-! ### What a tick leaves to the HOST -/

/-- The engine registers that the HOST alone writes are the same in `e` and `e'` (R73). -/
structure SameHostRegisters (e e' : Engine) : Prop where
  blkState : e'.blkState = e.blkState
  running : e'.running = e.running
  pushCnt : e'.pushCnt = e.pushCnt
  irqEn : e'.irqEn = e.irqEn
  wrCnt : e'.wrCnt = e.wrCnt

section
variable {a e : Engine}

theorem SameHostRegisters.setBst (h : SameHostRegisters a e) (k : Fin 2) (v : BufState) :
    SameHostRegisters a (e.setBst k v) := by
  obtain ⟨hblk, hrun, hcnt, hirq, hwr⟩ := h
  exact ⟨by simpa, by simpa, by simpa, by simpa, by simpa⟩

theorem SameHostRegisters.setBufDesc (h : SameHostRegisters a e) (k : Fin 2) (d : Desc) :
    SameHostRegisters a (e.setBufDesc k d) := by
  obtain ⟨hblk, hrun, hcnt, hirq, hwr⟩ := h
  exact ⟨by simpa, by simpa, by simpa, by simpa, by simpa⟩

theorem SameHostRegisters.setIrqPend (h : SameHostRegisters a e) (k : Fin 2) (b : Bool) :
    SameHostRegisters a (e.setIrqPend k b) := by
  obtain ⟨hblk, hrun, hcnt, hirq, hwr⟩ := h
  exact ⟨by simpa, by simpa, by simpa, by simpa, by simpa⟩

/-- `REGION` and `PLAYING` are not among them. -/
theorem SameHostRegisters.withRegion (h : SameHostRegisters a e) (region : Memory Pair) :
    SameHostRegisters a { e with region := region } :=
  ⟨h.blkState, h.running, h.pushCnt, h.irqEn, h.wrCnt⟩

theorem SameHostRegisters.withPlaying (h : SameHostRegisters a e) (p : Fin 2) :
    SameHostRegisters a { e with playing := p } :=
  ⟨h.blkState, h.running, h.pushCnt, h.irqEn, h.wrCnt⟩

theorem SameHostRegisters.servicedBuffer (h : SameHostRegisters a e) (c : Config) (p : Fin 2) :
    SameHostRegisters a (servicedBuffer c p e) := by
  have hrearmed := (h.setBufDesc p (.armed c)).setBst p .refilling
  unfold Machine.servicedBuffer
  dsimp only
  split
  · exact (hrearmed.setBst _ _).withPlaying _
  · exact ((hrearmed.withRegion _).setBst _ _).withPlaying _

end

theorem SameHostRegisters.refl (e : Engine) : SameHostRegisters e e := ⟨rfl, rfl, rfl, rfl, rfl⟩

theorem sameHostRegisters_ringTicked (c : Config) (e : Engine) : SameHostRegisters e (ringTicked c e) := by
  unfold ringTicked
  dsimp only
  split <;> exact ⟨rfl, rfl, rfl, rfl, rfl⟩

theorem sameHostRegisters_completedBuffer (c : Config) (p : Fin 2) (e : Engine) :
    SameHostRegisters e (completedBuffer c p e) :=
  ((((SameHostRegisters.refl e).setBufDesc p _).setIrqPend p true).servicedBuffer c p).setIrqPend p false

/-- By shape, with the completion interrupt inside the tick. -/
theorem tick_sameHostRegisters {s t : State} (h : tick s = .next t) : SameHostRegisters s.engine t.engine := by
  cases hen : tickEnabled s.engine with
  | false =>
    obtain rfl := Host.Outcome.next.inj ((tick_disabled hen).symm.trans h)
    exact .refl _
  | true =>
    rw [tick_enabled hen] at h
    cases hs : s.cfg.shape with
    | ring =>
      rw [hs] at h
      obtain ⟨v, rfl⟩ := tickRing_ticked h
      exact sameHostRegisters_ringTicked s.cfg s.engine
    | pingpong =>
      rw [hs] at h
      obtain ⟨v, ⟨-, rfl⟩ | ⟨-, rfl⟩⟩ := tickPingpong_ticked h
      · exact (SameHostRegisters.refl s.engine).setBufDesc _ _
      · exact sameHostRegisters_completedBuffer s.cfg _ s.engine
    | nbuf =>
      rw [hs] at h
      obtain ⟨v, ⟨-, rfl⟩ | ⟨-, rfl⟩⟩ := tickNbuf_ticked h
      · exact ⟨rfl, rfl, rfl, rfl, rfl⟩
      · exact ⟨rfl, rfl, rfl, rfl, rfl⟩

/-! ### What a command leaves to the DMA agent -/

/-- The engine registers that no command but INIT and TEARDOWN changes: the DMA agent's, and those of the block's state
(R73). -/
structure SameDmaRegisters (e e' : Engine) : Prop where
  rdPos : e'.rdPos = e.rdPos
  rdCnt : e'.rdCnt = e.rdCnt
  playing : e'.playing = e.playing
  desc0 : e'.desc0 = e.desc0
  desc1 : e'.desc1 = e.desc1
  desc : e'.desc = e.desc
  curSilent : e'.curSilent = e.curSilent
  irqPend0 : e'.irqPend0 = e.irqPend0
  irqPend1 : e'.irqPend1 = e.irqPend1
  blkState : e'.blkState = e.blkState
  irqEn : e'.irqEn = e.irqEn

theorem SameDmaRegisters.refl (e : Engine) : SameDmaRegisters e e :=
  ⟨rfl, rfl, rfl, rfl, rfl, rfl, rfl, rfl, rfl, rfl, rfl⟩

theorem SameDmaRegisters.trans {a b d : Engine} (h : SameDmaRegisters a b) (h' : SameDmaRegisters b d) :
    SameDmaRegisters a d where
  rdPos := h'.rdPos.trans h.rdPos
  rdCnt := h'.rdCnt.trans h.rdCnt
  playing := h'.playing.trans h.playing
  desc0 := h'.desc0.trans h.desc0
  desc1 := h'.desc1.trans h.desc1
  desc := h'.desc.trans h.desc
  curSilent := h'.curSilent.trans h.curSilent
  irqPend0 := h'.irqPend0.trans h.irqPend0
  irqPend1 := h'.irqPend1.trans h.irqPend1
  blkState := h'.blkState.trans h.blkState
  irqEn := h'.irqEn.trans h.irqEn

/-- `RUNNING`, `PUSH_CNT`, `REGION`, the write position and `RST` may be written: they are not among them. -/
theorem sameDmaRegisters_host (e : Engine) (run : Bool) (cnt : Word32) (region : Memory Pair) (wrPos : Nat)
    (rst : RegionState) (wrCnt : Word32) :
    SameDmaRegisters e
      { e with running := run, pushCnt := cnt, region := region, wrPos := wrPos, rst := rst, wrCnt := wrCnt } :=
  ⟨rfl, rfl, rfl, rfl, rfl, rfl, rfl, rfl, rfl, rfl, rfl⟩

theorem SameDmaRegisters.setBst {a e : Engine} (h : SameDmaRegisters a e) (k : Fin 2) (v : BufState) :
    SameDmaRegisters a (e.setBst k v) :=
  h.trans (by constructor <;> simp)

/-- What the copy of a frame can do: it writes `REGION` and the write position, or the buffer's state, alone. -/
theorem publishFrame_eq_some {c : Config} {frame : List Pair} {e e' : Engine} (h : publishFrame c frame e = some e') :
    (∃ region wrPos wrCnt, e' = { e with region := region, wrPos := wrPos, wrCnt := wrCnt }) ∨
      ∃ region k, e' = ({ e with region := region } : Engine).setBst k .armed := by
  unfold publishFrame at h
  split at h
  · cases h; exact .inl ⟨_, _, _, rfl⟩
  · split at h
    · split at h
      · cases h
      · cases h; exact .inr ⟨_, _, rfl⟩
    · cases h
  · split at h
    · cases h
    · cases h; exact .inl ⟨_, _, _, rfl⟩

theorem sameDmaRegisters_publishFrame {c : Config} {frame : List Pair} {e e' : Engine}
    (h : publishFrame c frame e = some e') : SameDmaRegisters e e' := by
  obtain ⟨region, wrPos, wrCnt, rfl⟩ | ⟨region, k, rfl⟩ := publishFrame_eq_some h
  · exact sameDmaRegisters_host e _ _ _ _ _ _
  · exact (sameDmaRegisters_host e _ _ _ _ _ _).setBst k .armed

theorem publishFrame_running {c : Config} {frame : List Pair} {e e' : Engine} (h : publishFrame c frame e = some e') :
    e'.running = e.running := by
  obtain ⟨region, wrPos, wrCnt, rfl⟩ | ⟨region, k, rfl⟩ := publishFrame_eq_some h
  · rfl
  · exact Engine.setBst_running _ k .armed

/-- The registers of the DMA agent that the start writes (R141), at the values it writes: so they stand before the start, in
every shape. -/
structure StartValues (c : Config) (e : Engine) : Prop where
  playing : e.playing = 0
  curSilent : e.curSilent = false
  desc : e.desc = .armed c

theorem EngineInv.startValues {c : Config} {e : Engine} (h : EngineInv c e) (hr : e.running = false) : StartValues c e := by
  cases hs : c.shape with
  | ring =>
    obtain ⟨-, -, -, -, -, hping, hqueue⟩ := h.ring hs
    exact ⟨hping.playing, hqueue.curSilent, hqueue.desc⟩
  | pingpong =>
    have hi := h.pingpong hs
    exact ⟨(hi.stopped hr).1, hi.noQueue.curSilent, hi.noQueue.desc⟩
  | nbuf =>
    have hi := h.nbuf hs
    obtain ⟨-, -, hsilent, hdesc⟩ := hi.stopped hr
    exact ⟨hi.noPingpong.playing, hsilent, hdesc⟩

theorem StartValues.of_sameDmaRegisters {c : Config} {e e' : Engine} (h : StartValues c e) (hd : SameDmaRegisters e e') :
    StartValues c e' :=
  ⟨hd.playing.trans h.playing, hd.curSilent.trans h.curSilent, hd.desc.trans h.desc⟩

theorem sameDmaRegisters_startEngine {c : Config} {e : Engine} (h : StartValues c e) :
    SameDmaRegisters e (startEngine c e) := by
  unfold startEngine
  split
  · exact sameDmaRegisters_host e _ _ _ _ _ _
  · refine SameDmaRegisters.setBst ?_ 0 .playing
    exact ⟨rfl, rfl, h.playing.symm, rfl, rfl, rfl, rfl, rfl, rfl, rfl, rfl⟩
  · exact ⟨rfl, rfl, rfl, rfl, rfl, h.desc.symm, h.curSilent.symm, rfl, rfl, rfl, rfl⟩

theorem sameDmaRegisters_awaitPreroll (c : Config) (e : Engine) : SameDmaRegisters e (awaitPreroll c e) := by
  unfold awaitPreroll
  split
  · exact sameDmaRegisters_host e _ _ _ _ _ _
  · exact .refl e
  · exact sameDmaRegisters_host e _ _ _ _ _ _

theorem sameDmaRegisters_prerollStep {c : Config} {e : Engine} (h : e.running = false → StartValues c e) :
    SameDmaRegisters e (prerollStep c e) := by
  cases hr : e.running with
  | true => rw [prerollStep_running hr]; exact .refl e
  | false =>
    have hcounted := sameDmaRegisters_host e e.running (e.pushCnt + 1) e.region e.wrPos e.rst e.wrCnt
    rw [prerollStep_stopped hr]
    split
    · exact hcounted.trans (sameDmaRegisters_startEngine ((h hr).of_sameDmaRegisters hcounted))
    · exact hcounted.trans (sameDmaRegisters_awaitPreroll c _)

/-- An admitted PUSH leaves the DMA agent's registers alone, the starting one too: what it writes stands there already. -/
theorem EngineInv.sameDmaRegisters_push {c : Config} {frame : List Pair} {e e' : Engine} (h : EngineInv c e)
    (hp : publishFrame c frame e = some e') : SameDmaRegisters e (prerollStep c e') := by
  have hpublished := sameDmaRegisters_publishFrame hp
  refine hpublished.trans (sameDmaRegisters_prerollStep fun hr => ?_)
  exact (h.startValues ((publishFrame_running hp).symm.trans hr)).of_sameDmaRegisters hpublished

/-- The counters that DMA and ENV raise, and no command but RESET_STATS writes (R73, R44). -/
structure SameEventCounters (a b : Stats) : Prop where
  underruns : b.underruns = a.underruns
  irqCount : b.irqCount = a.irqCount
  samplesEmitted : b.samplesEmitted = a.samplesEmitted
  queueOverflows : b.queueOverflows = a.queueOverflows
  maxQueueDepth : b.maxQueueDepth = a.maxQueueDepth

theorem SameEventCounters.refl (a : Stats) : SameEventCounters a a := ⟨rfl, rfl, rfl, rfl, rfl⟩

theorem sameEventCounters_countCommand (s : State) : SameEventCounters s.stats (countCommand s).stats :=
  ⟨rfl, rfl, rfl, rfl, rfl⟩

theorem sameEventCounters_countFilled (s : State) : SameEventCounters s.stats (countCommand (countFilled s)).stats :=
  ⟨rfl, rfl, rfl, rfl, rfl⟩

/-- What the command `i` leaves to the other agents: ENV's answer; the event counters, but for RESET_STATS; the DMA agent's
registers, but for INIT and TEARDOWN. -/
structure LeavesToOthers (i : Instr) (s t : State) : Prop where
  hwAvailable : t.hwAvailable = s.hwAvailable
  counters : i ≠ .resetStats → SameEventCounters s.stats t.stats
  registers : i ≠ .init → i ≠ .teardown → SameDmaRegisters s.engine t.engine

/-- A command that changes nothing. -/
theorem LeavesToOthers.refl (i : Instr) (s : State) : LeavesToOthers i s s :=
  ⟨rfl, fun _ => .refl _, fun _ _ => .refl _⟩

/-- A command that counts itself and leaves the engine alone. -/
theorem leavesToOthers_counted (i : Instr) (s : State) (k : Control) (m : Mixer) (ws : List Word32) :
    LeavesToOthers i s (countCommand { s with control := k, mixer := m, respStream := ws }) :=
  ⟨rfl, fun _ => sameEventCounters_countCommand s, fun _ _ => .refl _⟩

/-- A command that pushes a frame. -/
theorem leavesToOthers_filled (i : Instr) (s : State) (m : Mixer) {e : Engine} (he : SameDmaRegisters s.engine e) :
    LeavesToOthers i s (countCommand (countFilled { s with mixer := m, engine := e })) :=
  ⟨rfl, fun _ => sameEventCounters_countFilled s, fun _ _ => he⟩

theorem exec_leavesToOthers {i : Instr} {s t : State} (hg : EngineInv s.cfg s.engine) (h : exec i s = .next t) :
    LeavesToOthers i s t := by
  have he := exec_effect h
  cases i with
  | regwrite chip port data ts => cases he; exact leavesToOthers_counted _ s _ _ _
  | reset => cases he; exact leavesToOthers_counted _ s _ _ _
  | volume a0 => cases he; exact leavesToOthers_counted _ s _ _ _
  | enable a0 => cases he; exact leavesToOthers_counted _ s _ _ _
  | framesync cycle => cases he; exact leavesToOthers_counted _ s _ _ _
  | dacsample d ts => cases he; exact leavesToOthers_counted _ s _ _ _
  | init =>
    obtain ⟨-, rfl⟩ | ⟨-, rfl⟩ := he
    · exact .refl _ t
    · rw [bringUp_eq]; exact ⟨rfl, fun _ => sameEventCounters_countCommand s, fun hne => absurd rfl hne⟩
  | teardown =>
    obtain ⟨-, rfl⟩ | ⟨-, rfl⟩ := he
    · exact .refl _ t
    · exact ⟨rfl, fun _ => sameEventCounters_countCommand s, fun _ hne => absurd rfl hne⟩
  | mix =>
    obtain ⟨-, rfl⟩ | ⟨-, m, -, rfl⟩ := he
    · exact .refl _ t
    · exact leavesToOthers_counted _ s _ _ _
  | push =>
    obtain ⟨-, rfl⟩ | ⟨-, -, e, hp, rfl⟩ := he
    · exact .refl _ t
    · exact leavesToOthers_filled _ s _ (hg.sameDmaRegisters_push hp)
  | submit =>
    obtain ⟨-, rfl⟩ | ⟨-, -, m, e, -, hp, rfl⟩ := he
    · exact .refl _ t
    · exact leavesToOthers_filled _ s _ (hg.sameDmaRegisters_push hp)
  | getStats => cases he; exact leavesToOthers_counted _ s _ _ _
  | resetStats => cases he; exact ⟨rfl, fun hne => absurd rfl hne, fun _ _ => .refl _⟩
  | setShift a0 => cases he; exact leavesToOthers_counted _ s _ _ _

/-! ### Who writes what -/

/-- Settles O49: a tick ticks the engine, emits and counts, and keeps the engine's registers of the HOST; a command keeps its
frame and leaves the other agents' fields alone. -/
theorem agentsKeepToTheirFields : Obligations.AgentsKeepToTheirFields := by
  refine ⟨fun s t h => ?_, fun i s t hg h => ?_⟩
  · obtain ⟨hblk, hrun, hcnt, hirq, hwr⟩ := tick_sameHostRegisters h
    obtain ⟨-, rfl⟩ | ⟨-, e, v, irq, underrun, rfl⟩ := tick_eq_next h
    · exact ⟨rfl, rfl, rfl, rfl, rfl, rfl, rfl, rfl, rfl, rfl, rfl, rfl, rfl, rfl, rfl, rfl, rfl⟩
    · exact ⟨rfl, rfl, rfl, rfl, hblk, hrun, hcnt, hirq, hwr, rfl, rfl, rfl, rfl, rfl, rfl, rfl, rfl⟩
  · have hframe := exec_frame h
    obtain ⟨hhw, hcounters, hregisters⟩ := exec_leavesToOthers hg.engine h
    refine ⟨hframe.input, hframe.outStream, hhw, hframe.cfg, fun hne => ?_, fun hinit htear => ?_⟩
    · obtain ⟨hund, hirq, hsamples, hover, hdepth⟩ := hcounters hne
      exact ⟨hund, hirq, hsamples, hover, hdepth⟩
    · obtain ⟨hrdPos, hrdCnt, hplaying, hdesc0, hdesc1, hdesc, hsilent, hpend0, hpend1, hblk, hirqEn⟩ :=
        hregisters hinit htear
      exact ⟨hrdPos, hrdCnt, hplaying, hdesc0, hdesc1, hdesc, hsilent, hpend0, hpend1, hblk, hirqEn⟩

end Sys2Proof.Machine
end

section
/-! PROOFS. The record's layout, the decoder's answer for every kind code, and the agreement of decoder and encoder
(30_encoding.md R82 to R92). -/

namespace Sys2Proof

/-! ### The record's layout (R82) -/

/-- Two bit vectors side by side, as a number. -/
theorem toNat_append_eq_add {m n : Nat} (high : BitVec m) (low : BitVec n) :
    (high ++ low).toNat = low.toNat + 2 ^ n * high.toNat := by
  rw [BitVec.toNat_append, ← Nat.shiftLeft_add_eq_or_of_lt low.isLt, Nat.shiftLeft_eq, Nat.mul_comm, Nat.add_comm]

theorem toNat_extractLsb'_eq_div_mod {n : Nat} (w : BitVec n) (k len : Nat) :
    (w.extractLsb' k len).toNat = w.toNat / 2 ^ k % 2 ^ len := by
  rw [BitVec.extractLsb'_toNat, Nat.shiftRight_eq_div_pow]

theorem Record.toNat_a1 (r : Record) : r.a1.toNat = r.b2.toNat + 2 ^ 8 * r.b3.toNat := toNat_append_eq_add _ _

theorem Record.toNat_ts (r : Record) :
    r.ts.toNat = r.b4.toNat + 2 ^ 8 * r.b5.toNat + 2 ^ 16 * r.b6.toNat + 2 ^ 24 * r.b7.toNat := by
  simp only [ts, toNat_append_eq_add]
  omega

theorem Record.toNat_toWord (r : Record) :
    r.toWord.toNat = r.kind.toNat + 2 ^ 8 * r.a0.toNat + 2 ^ 16 * r.a1.toNat + 2 ^ 32 * r.ts.toNat := by
  simp only [toWord, kind, a0, toNat_a1, toNat_ts, toNat_append_eq_add]
  omega

theorem Record.toWord_ofWord (w : BitVec 64) : (ofWord w).toWord = w := by
  apply BitVec.eq_of_toNat_eq
  have hw := w.isLt
  simp only [toWord, ofWord, toNat_append_eq_add, toNat_extractLsb'_eq_div_mod]
  omega

/-- Reading the bytes back out of a record's word gives each of them again. -/
theorem Record.ofWord_toWord (r : Record) : ofWord r.toWord = r := by
  cases r with
  | mk b0 b1 b2 b3 b4 b5 b6 b7 =>
    simp only [ofWord, mk.injEq, ← BitVec.toNat_inj, toWord, toNat_extractLsb'_eq_div_mod, toNat_append_eq_add]
    omega

/-- Settles O4: the word is its bytes as digits to the base `2 ^ 8`, low byte first, and a field is a run of its digits. -/
theorem recordLayout : Obligations.RecordLayout := by
  refine ⟨fun w => ?_, fun r => ⟨r.ofWord_toWord, rfl, rfl, r.toNat_a1, r.toNat_ts⟩⟩
  have hword := (Record.ofWord w).toNat_toWord
  rw [Record.toWord_ofWord] at hword
  have hkind := (Record.ofWord w).kind.isLt
  have ha0 := (Record.ofWord w).a0.isLt
  have ha1 := (Record.ofWord w).a1.isLt
  exact ⟨Record.toWord_ofWord w, by omega, by omega, by omega, by omega⟩

/-! ### The fields of an encoded record -/

@[simp] theorem Record.kind_ofFields (k a0 : Byte) (a1 : BitVec 16) (ts : Word32) : (ofFields k a0 a1 ts).kind = k := rfl
@[simp] theorem Record.a0_ofFields (k a0 : Byte) (a1 : BitVec 16) (ts : Word32) : (ofFields k a0 a1 ts).a0 = a0 := rfl

/-- A two-byte field is its high byte above its low byte. -/
theorem high_append_low (v : BitVec 16) : v.extractLsb' 8 8 ++ v.extractLsb' 0 8 = v :=
  (BitVec.extractLsb'_append_extractLsb'_eq_extractLsb' rfl).trans BitVec.extractLsb'_eq_self

@[simp] theorem Record.a1_ofFields (k a0 : Byte) (a1 : BitVec 16) (ts : Word32) : (ofFields k a0 a1 ts).a1 = a1 :=
  high_append_low a1

@[simp] theorem Record.ts_ofFields (k a0 : Byte) (a1 : BitVec 16) (ts : Word32) : (ofFields k a0 a1 ts).ts = ts := by
  apply BitVec.eq_of_toNat_eq
  have hts := ts.isLt
  simp only [toNat_ts, ofFields, toNat_extractLsb'_eq_div_mod]
  omega

/-! ### The decoder, one equation per kind code (R83, R84) -/

open Machine (Encodes)

theorem encodes_regwrite :
    Encodes 0x00 fun r => .regwrite r.a0 (r.a1.extractLsb' 0 8) (r.a1.extractLsb' 8 8) r.ts :=
  fun r h => by rw [decode, h]; rfl

theorem encodes_reset : Encodes 0x01 fun _ => .reset := fun r h => by rw [decode, h]; rfl
theorem encodes_volume : Encodes 0x02 fun r => .volume r.a0 := fun r h => by rw [decode, h]; rfl
theorem encodes_enable : Encodes 0x03 fun r => .enable r.a0 := fun r h => by rw [decode, h]; rfl
theorem encodes_framesync : Encodes 0x04 fun r => .framesync r.ts := fun r h => by rw [decode, h]; rfl
theorem encodes_dacsample : Encodes 0x05 fun r => .dacsample r.a1 r.ts := fun r h => by rw [decode, h]; rfl
theorem encodes_init : Encodes 0x10 fun _ => .init := fun r h => by rw [decode, h]; rfl
theorem encodes_teardown : Encodes 0x11 fun _ => .teardown := fun r h => by rw [decode, h]; rfl
theorem encodes_mix : Encodes 0x12 fun _ => .mix := fun r h => by rw [decode, h]; rfl
theorem encodes_push : Encodes 0x13 fun _ => .push := fun r h => by rw [decode, h]; rfl
theorem encodes_submit : Encodes 0x14 fun _ => .submit := fun r h => by rw [decode, h]; rfl
theorem encodes_getStats : Encodes 0x15 fun _ => .getStats := fun r h => by rw [decode, h]; rfl
theorem encodes_resetStats : Encodes 0x16 fun _ => .resetStats := fun r h => by rw [decode, h]; rfl
theorem encodes_setShift : Encodes 0x17 fun r => .setShift r.a0 := fun r h => by rw [decode, h]; rfl

/-! ### Decode of encode, and encode of decode -/

/-- The decoder reads the operands back from the fields that the encoder laid them out in. -/
theorem decode_encode (i : Instr) : decode (encode i) = .command i := by
  cases i with
  | regwrite chip port data ts =>
    have hport : (data ++ port).extractLsb' 0 8 = port := BitVec.extractLsb'_append_eq_right
    have hdata : (data ++ port).extractLsb' 8 8 = data := BitVec.extractLsb'_append_eq_left
    rw [encodes_regwrite _ rfl]
    simp only [encode, Record.a0_ofFields, Record.a1_ofFields, Record.ts_ofFields, hport, hdata]
  | reset => exact encodes_reset _ rfl
  | volume a0 => exact encodes_volume _ rfl
  | enable a0 => exact encodes_enable _ rfl
  | framesync cycle => rw [encodes_framesync _ rfl]; simp only [encode, Record.ts_ofFields]
  | dacsample d ts => rw [encodes_dacsample _ rfl]; simp only [encode, Record.a1_ofFields, Record.ts_ofFields]
  | init => exact encodes_init _ rfl
  | teardown => exact encodes_teardown _ rfl
  | mix => exact encodes_mix _ rfl
  | push => exact encodes_push _ rfl
  | submit => exact encodes_submit _ rfl
  | getStats => exact encodes_getStats _ rfl
  | resetStats => exact encodes_resetStats _ rfl
  | setShift a0 => exact encodes_setShift _ rfl

/-- The kind of a command is the one its record's byte 0 names: in every arm of the decoder the guard says so. -/
theorem kindCode_of_decode {r : Record} {i : Instr} (h : decode r = .command i) : i.kindCode = r.kind := by
  unfold decode at h
  split at h <;> cases h <;> exact Eq.symm ‹_›

/-- The encoder gives back the fields that the decoder read, and zero for the rest. -/
theorem encode_of_decode {r : Record} {i : Instr} (h : decode r = .command i) : encode i = r.onlyRead i.format := by
  have hk := kindCode_of_decode h
  cases i with
  | regwrite chip port data ts =>
    cases (encodes_regwrite r hk.symm).symm.trans h
    simp only [encode, high_append_low]
    exact congrArg (Record.ofFields · r.a0 r.a1 r.ts) hk
  | reset => exact congrArg (Record.ofFields · 0 0 0) hk
  | volume a0 => cases (encodes_volume r hk.symm).symm.trans h; exact congrArg (Record.ofFields · r.a0 0 0) hk
  | enable a0 => cases (encodes_enable r hk.symm).symm.trans h; exact congrArg (Record.ofFields · r.a0 0 0) hk
  | framesync cycle => cases (encodes_framesync r hk.symm).symm.trans h; exact congrArg (Record.ofFields · 0 0 r.ts) hk
  | dacsample d ts => cases (encodes_dacsample r hk.symm).symm.trans h; exact congrArg (Record.ofFields · 0 r.a1 r.ts) hk
  | init => exact congrArg (Record.ofFields · 0 0 0) hk
  | teardown => exact congrArg (Record.ofFields · 0 0 0) hk
  | mix => exact congrArg (Record.ofFields · 0 0 0) hk
  | push => exact congrArg (Record.ofFields · 0 0 0) hk
  | submit => exact congrArg (Record.ofFields · 0 0 0) hk
  | getStats => exact congrArg (Record.ofFields · 0 0 0) hk
  | resetStats => exact congrArg (Record.ofFields · 0 0 0) hk
  | setShift a0 => cases (encodes_setShift r hk.symm).symm.trans h; exact congrArg (Record.ofFields · r.a0 0 0) hk

/-- Settles O1: both halves are a case per command, through the decoder's equation for its kind. -/
theorem decodeEncodeAgree : Obligations.DecodeEncodeAgree := ⟨decode_encode, fun _ _ => encode_of_decode⟩

/-! ### The kind map (R83, R91) -/

/-- The code is one of the fourteen of R83. -/
def IsKindCode (k : Byte) : Prop := k.toNat ≤ 0x05 ∨ (0x10 ≤ k.toNat ∧ k.toNat ≤ 0x17)

theorem isKindCode_kindCode (i : Instr) : IsKindCode i.kindCode := by
  cases i with
  | regwrite chip port data ts => exact (Laws.KindCode.regwrite chip port data ts).2
  | reset => exact Laws.KindCode.reset.2
  | volume a0 => exact (Laws.KindCode.volume a0).2
  | enable a0 => exact (Laws.KindCode.enable a0).2
  | framesync cycle => exact (Laws.KindCode.framesync cycle).2
  | dacsample d ts => exact (Laws.KindCode.dacsample d ts).2
  | init => exact Laws.KindCode.init.2
  | teardown => exact Laws.KindCode.teardown.2
  | mix => exact Laws.KindCode.mix.2
  | push => exact Laws.KindCode.push.2
  | submit => exact Laws.KindCode.submit.2
  | getStats => exact Laws.KindCode.getStats.2
  | resetStats => exact Laws.KindCode.resetStats.2
  | setShift a0 => exact (Laws.KindCode.setShift a0).2

/-- The decoder rejects byte 0 by name, and only where it is none of the fourteen codes. -/
theorem decode_eq_reserved {r : Record} {k : Byte} (h : decode r = .reserved k) : k = r.b0 ∧ ¬ IsKindCode r.b0 := by
  unfold decode at h
  split at h <;> cases h
  refine ⟨rfl, ?_⟩
  unfold IsKindCode
  simp only [Record.kind, imp_false, ← BitVec.toNat_inj, BitVec.toNat_ofNat, Nat.reducePow, Nat.reduceMod] at *
  omega

/-- Every record is a command or reserved. -/
theorem decode_total (r : Record) : (∃ i, decode r = .command i) ∨ decode r = .reserved r.b0 := by
  cases h : decode r with
  | command i => exact .inl ⟨i, rfl⟩
  | reserved k => exact .inr (by rw [(decode_eq_reserved h).1])

theorem decode_eq_command_iff (r : Record) : (∃ i, decode r = .command i ∧ i.kindCode = r.b0) ↔ IsKindCode r.b0 := by
  constructor
  · rintro ⟨i, -, hk⟩
    exact hk ▸ isKindCode_kindCode i
  · intro hk
    obtain ⟨i, hi⟩ | hres := decode_total r
    · exact ⟨i, hi, kindCode_of_decode hi⟩
    · exact absurd hk (decode_eq_reserved hres).2

theorem decode_eq_reserved_iff (r : Record) : decode r = .reserved r.b0 ↔ ¬ IsKindCode r.b0 := by
  refine ⟨fun h => (decode_eq_reserved h).2, fun hk => (decode_total r).resolve_left ?_⟩
  rintro ⟨i, hi⟩
  exact hk ((decode_eq_command_iff r).1 ⟨i, hi, kindCode_of_decode hi⟩)

theorem not_isKindCode_iff (k : Byte) : ¬ IsKindCode k ↔ (0x06 ≤ k.toNat ∧ k.toNat ≤ 0x0F) ∨ 0x18 ≤ k.toNat := by
  unfold IsKindCode
  omega

/-- Settles O2: the command's kind code is byte 0, and what is none of the fourteen is rejected. -/
theorem kindMapIsTotal : Obligations.KindMapIsTotal := fun r =>
  ⟨decode_eq_command_iff r, (decode_eq_reserved_iff r).trans (not_isKindCode_iff r.b0), decode_total r⟩

/-! ### The words of the spec (R92) -/

/-- Settles O3: each word by the equation of its kind. -/
theorem wordsOfTheSpec : Obligations.WordsOfTheSpec :=
  ⟨encodes_volume _ rfl, encodes_enable _ rfl, encodes_submit _ rfl, encodes_setShift _ rfl, encodes_regwrite _ rfl,
    encodes_dacsample _ rfl, encodes_framesync _ rfl, encodes_reset _ rfl, encodes_init _ rfl, encodes_teardown _ rfl,
    encodes_mix _ rfl, encodes_push _ rfl, encodes_getStats _ rfl, encodes_resetStats _ rfl⟩

/-! ### Fields that are not read (R84, R87) -/

/-- Two records of one kind are the same command where the kind's equation reads the same operands from them. -/
theorem decode_both_of_encodes {r r' : Record} {code : Byte} {i : Record → Instr} (he : Encodes code i) (h : r.b0 = code)
    (hkind : r.b0 = r'.b0) (hi : i r' = i r) : ∃ j, decode r = .command j ∧ decode r' = .command j :=
  ⟨i r, he r h, hi ▸ he r' (hkind.symm.trans h)⟩

theorem eq_code_of_mem_system {k : Byte} (h : 0x10 ≤ k.toNat ∧ k.toNat ≤ 0x16) :
    k = 0x10 ∨ k = 0x11 ∨ k = 0x12 ∨ k = 0x13 ∨ k = 0x14 ∨ k = 0x15 ∨ k = 0x16 := by
  bv_omega

/-- An operand that the format of a kind does not name is zero in its encoding. -/
theorem encode_unread_zero (i : Instr) :
    (i.kindCode ≠ 0x00 ∧ i.kindCode ≠ 0x02 ∧ i.kindCode ≠ 0x03 ∧ i.kindCode ≠ 0x17 → (encode i).a0 = 0) ∧
      (i.kindCode ≠ 0x00 ∧ i.kindCode ≠ 0x05 → (encode i).a1 = 0) ∧
      (i.kindCode ≠ 0x00 ∧ i.kindCode ≠ 0x05 ∧ i.kindCode ≠ 0x04 → (encode i).ts = 0) := by
  cases i <;> simp [encode, Instr.kindCode]

/-- Settles O5: by the kind code, each of whose equations names the fields it reads. -/
theorem unreadFieldsAreIgnored : Obligations.UnreadFieldsAreIgnored := by
  refine ⟨fun r r' hkind h => ?_, encode_unread_zero⟩
  obtain hk | hk | ⟨hk | hk | hk, ha0⟩ | ⟨hk, ha0, ha1, hts⟩ | ⟨hk, ha1, hts⟩ | ⟨hk, hts⟩ := h
  · exact decode_both_of_encodes encodes_reset hk hkind rfl
  · obtain hk | hk | hk | hk | hk | hk | hk := eq_code_of_mem_system hk
    · exact decode_both_of_encodes encodes_init hk hkind rfl
    · exact decode_both_of_encodes encodes_teardown hk hkind rfl
    · exact decode_both_of_encodes encodes_mix hk hkind rfl
    · exact decode_both_of_encodes encodes_push hk hkind rfl
    · exact decode_both_of_encodes encodes_submit hk hkind rfl
    · exact decode_both_of_encodes encodes_getStats hk hkind rfl
    · exact decode_both_of_encodes encodes_resetStats hk hkind rfl
  · exact decode_both_of_encodes encodes_volume hk hkind (by rw [ha0])
  · exact decode_both_of_encodes encodes_enable hk hkind (by rw [ha0])
  · exact decode_both_of_encodes encodes_setShift hk hkind (by rw [ha0])
  · exact decode_both_of_encodes encodes_regwrite hk hkind (by rw [ha0, ha1, hts])
  · exact decode_both_of_encodes encodes_dacsample hk hkind (by rw [ha1, hts])
  · exact decode_both_of_encodes encodes_framesync hk hkind (by rw [hts])

end Sys2Proof
end

section
/-! PROOFS. What the HOST's turn does with the record at the head of the port: a reserved kind discarded, a command executed
and counted or discarded, the record handed on or not (30_encoding.md R81, R88 to R90; 43_system.md R198, R199). -/

namespace Sys2Proof.Machine

/-! ### Reserved kinds (R89) -/

theorem hostTurn_of_reserved {s : State} {r : Record} {rest : List Record} {k : Byte} (hport : s.port = r :: rest)
    (hk : decode r = .reserved k) : hostTurn s = .next { s with port := rest } := by
  simp [hostTurn, hport, hk, consume]

/-- Settles O8: such a record decodes to a rejection, so the HOST's turn only consumes it. -/
theorem reservedKindsAreDiscarded : Obligations.ReservedKindsAreDiscarded := by
  rintro s r rest later ⟨hl, hturns, hport⟩ hk
  have hres : decode r = .reserved r.b0 := (decode_eq_reserved_iff r).2 ((not_isKindCode_iff r.b0).2 hk)
  rw [step_of_turn hl hturns]
  exact hostTurn_of_reserved hport hres

/-! ### The port and what is handed on (R81, R198, R199) -/

/-- No command reaches the port or what the SCA has been handed; only the HOST's turn around it does. -/
theorem exec_port {i : Instr} {s t : State} (h : exec i s = .next t) : t.port = s.port ∧ t.scaInbox = s.scaInbox := by
  have he := exec_effect h
  cases i with
  | regwrite chip port data ts => cases he; exact ⟨rfl, rfl⟩
  | reset => cases he; exact ⟨rfl, rfl⟩
  | volume a0 => cases he; exact ⟨rfl, rfl⟩
  | enable a0 => cases he; exact ⟨rfl, rfl⟩
  | framesync cycle => cases he; exact ⟨rfl, rfl⟩
  | dacsample d ts => cases he; exact ⟨rfl, rfl⟩
  | init =>
    obtain ⟨-, rfl⟩ | ⟨-, rfl⟩ := he
    · exact ⟨rfl, rfl⟩
    · rw [bringUp_eq]; exact ⟨rfl, rfl⟩
  | teardown => obtain ⟨-, rfl⟩ | ⟨-, rfl⟩ := he <;> exact ⟨rfl, rfl⟩
  | mix => obtain ⟨-, rfl⟩ | ⟨-, m, -, rfl⟩ := he <;> exact ⟨rfl, rfl⟩
  | push => obtain ⟨-, rfl⟩ | ⟨-, -, e, -, rfl⟩ := he <;> exact ⟨rfl, rfl⟩
  | submit => obtain ⟨-, rfl⟩ | ⟨-, -, m, e, -, -, rfl⟩ := he <;> exact ⟨rfl, rfl⟩
  | getStats => cases he; exact ⟨rfl, rfl⟩
  | resetStats => cases he; exact ⟨rfl, rfl⟩
  | setShift a0 => cases he; exact ⟨rfl, rfl⟩

theorem passedOn_iff (i : Instr) :
    passedOn i = true ↔ i.kindCode = 0x00 ∨ i.kindCode = 0x01 ∨ i.kindCode = 0x04 ∨ i.kindCode = 0x05 := by
  cases i <;> simp [passedOn, Instr.kindCode]

/-- A reserved kind is none of those handed on. -/
theorem not_passedOn_of_reserved {k : Byte} (h : ¬ IsKindCode k) : ¬ (k = 0x00 ∨ k = 0x01 ∨ k = 0x04 ∨ k = 0x05) := by
  unfold IsKindCode at h
  bv_omega

/-- The HOST's turn leaves the port, or consumes its head and hands it on where its kind is passed on. -/
theorem hostTurn_port {s t : State} (h : hostTurn s = .next t) :
    (t.port = s.port ∧ t.scaInbox = s.scaInbox) ∨
      ∃ r, s.port = r :: t.port ∧
        t.scaInbox =
          if r.b0 = 0x00 ∨ r.b0 = 0x01 ∨ r.b0 = 0x04 ∨ r.b0 = 0x05 then s.scaInbox ++ [r] else s.scaInbox := by
  obtain ⟨-, rfl⟩ | ⟨r, rest, hport, ⟨k, hk, rfl⟩ | ⟨i, hi, ⟨-, rfl⟩ | ⟨-, he⟩⟩⟩ := hostTurn_eq_next h
  · exact .inl ⟨rfl, rfl⟩
  · exact .inr ⟨r, hport, (if_neg (not_passedOn_of_reserved (decode_eq_reserved hk).2)).symm⟩
  · exact .inl ⟨rfl, rfl⟩
  · obtain ⟨hrest, hinbox⟩ := exec_port he
    have hcode : i.kindCode = r.b0 := kindCode_of_decode hi
    refine .inr ⟨r, by rw [hport, hrest, consume_port], ?_⟩
    simp only [hinbox, consume_scaInbox, passedOn_iff, hcode]

/-- Settles O11: only the HOST's turn reaches the port. -/
theorem portOrderAndHandingOn : Obligations.PortOrderAndHandingOn := by
  intro s t h
  obtain ⟨-, ⟨-, rfl⟩ | ⟨turn, later, -, ht⟩⟩ := step_eq_next h
  · exact .inl ⟨rfl, rfl⟩
  cases turn with
  | host => exact hostTurn_port (s := { s with turns := later }) ht
  | dma =>
    obtain ⟨-, rfl⟩ | ⟨-, e, v, irq, underrun, rfl⟩ := tick_eq_next ht
    · exact .inl ⟨rfl, rfl⟩
    · exact .inl ⟨rfl, rfl⟩
  | sca w =>
    obtain ⟨inp, rfl, -⟩ := scaTurn_eq_next ht
    exact .inl ⟨rfl, rfl⟩
  | env a =>
    obtain ⟨b, v, w, rfl⟩ := envTurn_eq_next ht
    exact .inl ⟨rfl, rfl⟩

/-! ### Every command answers from a good state -/

theorem ifLegal_answers {b : Bool} {s : State} {run : Result} (h : ∃ t, run = .next t) : ∃ t, ifLegal b s run = .next t := by
  cases b with
  | true => exact h
  | false => exact ⟨s, rfl⟩

theorem unlessHeld_answers {b : Bool} {s : State} {run : Result} (h : ∃ t, run = .next t) :
    ∃ t, unlessHeld b s run = .next t := by
  cases b with
  | true => exact ⟨s, rfl⟩
  | false => exact h

/-- A frame of `N` elements finds its place in the region of a good engine in every shape. -/
theorem publishFrame_answers {c : Config} {frame : List Pair} {e : Engine} (hl : Legal c) (h : EngineInv c e)
    (hlen : frame.length = c.n) : ∃ e', publishFrame c frame e = some e' := by
  cases hs : c.shape with
  | ring => exact ⟨_, publishFrame_ring hs frame e⟩
  | pingpong =>
    have hbuf := (legal_pingpong hl hs).1
    exact ⟨_, publishFrame_pingpong hs (h.pushTarget_lt hl hs) (hlen.trans hbuf.symm)⟩
  | nbuf =>
    obtain ⟨-, hbuf, hnbuf, -, -⟩ := legal_nbuf hl hs
    exact ⟨_, publishFrame_nbuf hs (by omega) (hlen.trans hbuf.symm)⟩

theorem runMix_answers {s : State} (hl : Legal s.cfg) : ∃ m, runMix s = .next { s with mixer := m } :=
  ⟨_, runMix_eq (legal_n_pos hl) (legal_n_le_cap hl)⟩

theorem runPush_answers {s : State} (hl : Legal s.cfg) (h : EngineInv s.cfg s.engine) : ∃ t, runPush s = .next t := by
  obtain ⟨e, he⟩ := publishFrame_answers hl h (length_copiedFrame s)
  exact ⟨_, runPush_of_publish he⟩

theorem execMix_answers {s : State} (hl : Legal s.cfg) : ∃ t, execMix s = .next t := by
  obtain ⟨m, hm⟩ := runMix_answers hl
  refine ifLegal_answers ?_
  rw [hm]
  exact ⟨_, rfl⟩

theorem execPush_answers {s : State} (hl : Legal s.cfg) (h : EngineInv s.cfg s.engine) : ∃ t, execPush s = .next t := by
  obtain ⟨t, ht⟩ := runPush_answers hl h
  refine ifLegal_answers (unlessHeld_answers ?_)
  rw [ht]
  exact ⟨_, rfl⟩

theorem execSubmit_answers {s : State} (hl : Legal s.cfg) (h : EngineInv s.cfg s.engine) : ∃ t, execSubmit s = .next t := by
  obtain ⟨m, hm⟩ := runMix_answers hl
  obtain ⟨t, ht⟩ := runPush_answers (s := { s with mixer := m }) hl h
  refine ifLegal_answers (unlessHeld_answers ?_)
  rw [hm, andThen_next, ht]
  exact ⟨_, rfl⟩

/-- No command faults or is refused from a good state: MIX, PUSH and SUBMIT alone touch a memory, inside its bounds (R61). -/
theorem exec_answers {s : State} (hg : GoodState s) (i : Instr) : ∃ t, exec i s = .next t := by
  cases i with
  | regwrite chip port data ts => exact ⟨_, rfl⟩
  | reset => exact ⟨_, rfl⟩
  | volume a0 => exact ⟨_, rfl⟩
  | enable a0 => exact ⟨_, rfl⟩
  | framesync cycle => exact ⟨_, rfl⟩
  | dacsample d ts => exact ⟨_, rfl⟩
  | init => exact ifLegal_answers ⟨_, rfl⟩
  | teardown => exact ifLegal_answers ⟨_, rfl⟩
  | mix => exact execMix_answers hg.legal
  | push => exact execPush_answers hg.legal hg.engine
  | submit => exact execSubmit_answers hg.legal hg.engine
  | getStats => exact ⟨_, rfl⟩
  | resetStats => exact ⟨_, rfl⟩
  | setShift a0 => exact ⟨_, rfl⟩

/-! ### Legality and the command count (R88, R90) -/

/-- R90's table, its discarded entries written out. -/
theorem legalIn_eq_false_iff (i : Instr) (b : BlkState) :
    legalIn i b = false ↔
      (i = .init ∨ i = .teardown) ∧ b = .failed ∨ (i = .mix ∨ i = .push ∨ i = .submit) ∧ b ≠ .ready := by
  cases i <;> simp [legalIn]

/-- A command that is not legal is discarded. -/
theorem exec_of_not_legal {i : Instr} {s : State} (h : legalIn i s.engine.blkState = false) : exec i s = .next s := by
  have discarded (run : Result) : ifLegal (legalIn i s.engine.blkState) s run = .next s := by rw [h, ifLegal_false]
  cases i with
  | init => exact discarded _
  | teardown => exact discarded _
  | mix => exact discarded _
  | push => exact discarded _
  | submit => exact discarded _
  | _ => cases h

/-- PUSH runs where it is legal and not held; SUBMIT has the same two conditions (R144). -/
theorem admitted_of_legal_of_not_held {s : State} (hlegal : legalIn .push s.engine.blkState = true)
    (hheld : heldIn .push s = false) : ¬ (s.engine.blkState ≠ .ready ∨ pushHeld s.cfg s.engine = true) := by
  have hready : s.engine.blkState = .ready := by simpa [legalIn] using hlegal
  have hadmits : pushHeld s.cfg s.engine = false := by simpa [heldIn, hlegal] using hheld
  simp [hready, hadmits]

/-- A command that is legal and not held counts itself once; RESET_STATS leaves the count at 0. -/
theorem exec_commandsProcessed {i : Instr} {s t : State} (hlegal : legalIn i s.engine.blkState = true)
    (hheld : heldIn i s = false) (h : exec i s = .next t) :
    t.stats.commandsProcessed = if i = .resetStats then 0 else satInc32 s.stats.commandsProcessed := by
  have he := exec_effect h
  cases i with
  | regwrite chip port data ts => cases he; rfl
  | reset => cases he; rfl
  | volume a0 => cases he; rfl
  | enable a0 => cases he; rfl
  | framesync cycle => cases he; rfl
  | dacsample d ts => cases he; rfl
  | init =>
    obtain ⟨hf, -⟩ | ⟨-, rfl⟩ := he
    · simp [legalIn, hf] at hlegal
    · rw [bringUp_eq]; rfl
  | teardown =>
    obtain ⟨hf, -⟩ | ⟨-, rfl⟩ := he
    · simp [legalIn, hf] at hlegal
    · rfl
  | mix =>
    obtain ⟨hr, -⟩ | ⟨-, m, -, rfl⟩ := he
    · simp [legalIn, hr] at hlegal
    · rfl
  | push =>
    obtain ⟨hwaits, -⟩ | ⟨-, -, e, -, rfl⟩ := he
    · exact absurd hwaits (admitted_of_legal_of_not_held hlegal hheld)
    · rfl
  | submit =>
    obtain ⟨hwaits, -⟩ | ⟨-, -, m, e, -, -, rfl⟩ := he
    · exact absurd hwaits (admitted_of_legal_of_not_held hlegal hheld)
    · rfl
  | getStats => cases he; rfl
  | resetStats => cases he; rfl
  | setShift a0 => cases he; rfl

/-- Settles O9: every command answers, R90's table says whether it is discarded, and one that runs counts itself. -/
theorem legalityAndCommandCount : Obligations.LegalityAndCommandCount := by
  intro s i hg hheld
  obtain ⟨t, ht⟩ := exec_answers hg i
  refine ⟨t, ht, ?_⟩
  have htable := legalIn_eq_false_iff i s.engine.blkState
  split
  · next hdiscarded =>
    exact Host.Outcome.next.inj (ht.symm.trans (exec_of_not_legal (htable.2 hdiscarded)))
  · next hruns =>
    rw [exec_commandsProcessed (Bool.eq_true_of_not_eq_false (hruns ∘ htable.1)) hheld ht]
    split
    · rfl
    · exact toNat_satInc32 _

end Sys2Proof.Machine
end

section
/-! PROOFS. The stages of one frame (40_mixer.md R103 to R114), each as a law of its own: the clip and the master volume, the
low-pass filter, the crossfade, the soft limiter and the mute fade. -/

namespace Sys2Proof.Machine

/-! ### The floor `sra` (R13) -/

/-- The floor of the negated value: the negated floor, or one less where something was rounded off. -/
theorem sra_neg (v : Int) (k : Nat) : sra (-v) k = -sra v k ∨ sra (-v) k = -sra v k - 1 := by
  have hle := (le_sra_iff (sra v k) v k).1 le_rfl
  have hlt := (sra_lt_iff (sra v k + 1) v k).1 (by omega)
  have hge : -sra v k - 1 ≤ sra (-v) k := (le_sra_iff _ _ k).2 (by linarith)
  have hle' : sra (-v) k ≤ -sra v k := (sra_le_iff _ _ k).2 (by linarith [pow_cast_pos k])
  omega

/-- A whole multiple of the divisor comes out of the floor. -/
theorem sra_add_mul (v a : Int) (k : Nat) : sra (v + a * ((2 ^ k : Nat) : Int)) k = sra v k + a :=
  Int.add_mul_ediv_right v a (pow_cast_pos k).ne'

theorem sra_of_nonneg {d : Int} (h : 0 ≤ d) (k : Nat) : 0 ≤ sra d k ∧ sra d k ≤ d := by
  have hq := pow_cast_pos k
  rw [le_sra_iff, sra_le_iff]
  exact ⟨by linarith, by nlinarith⟩

theorem sra_of_neg {d : Int} (h : d < 0) (k : Nat) : d ≤ sra d k ∧ sra d k < 0 := by
  have hq := pow_cast_pos k
  rw [le_sra_iff, sra_lt_iff]
  exact ⟨by nlinarith, by linarith⟩

theorem sra_eq_zero_iff (d : Int) (k : Nat) : sra d k = 0 ↔ 0 ≤ d ∧ d ≤ 2 ^ k - 1 := by
  have hge := le_sra_iff 0 d k
  have hlt := sra_lt_iff 1 d k
  push_cast [zero_mul, one_mul] at hge hlt
  omega

/-- Shifting a value of at least the divisor gives at least 1, and takes at least the divisor less 1 away. -/
theorem sra_of_pow_le {d : Int} {k : Nat} (h : 2 ^ k ≤ d) : 0 < sra d k ∧ sra d k ≤ d - (2 ^ k - 1) := by
  have hq := pow_cast_pos k
  have hpos := le_sra_iff 1 d k
  have hle := sra_le_iff (d - (2 ^ k - 1)) d k
  push_cast [one_mul] at hq hpos hle
  rw [hle]
  exact ⟨hpos.2 h, by nlinarith [mul_nonneg (sub_nonneg.2 h) (show 0 ≤ (2 : Int) ^ k - 1 by omega)]⟩

/-! ### Stages (1) to (3): the premix (R103 to R106) -/

theorem clip16_eq_max_min (v : Int) : clip16 v = max (-32768) (min 32767 v) := by
  unfold clip16
  split
  · omega
  · split <;> omega

theorem clip16_mono {a b : Int} (h : a ≤ b) : clip16 a ≤ clip16 b := by
  rw [clip16_eq_max_min, clip16_eq_max_min]; omega

/-- The clip keeps the floor's oddness up to one: its range reaches one further down than up. -/
theorem clip16_nearly_odd {a b : Int} (h : b = -a ∨ b = -a - 1) : clip16 b = -clip16 a ∨ clip16 b = -clip16 a - 1 := by
  rw [clip16_eq_max_min, clip16_eq_max_min]; omega

theorem premix_eq (fm pg : Int) (v : BitVec 8) :
    premix fm pg v = max (-32768) (min 32767 ((fm + pg) * (v.toNat : Int) / 128)) := clip16_eq_max_min _

/-- Settles O26: the volume is not negative, so the product is monotone and odd in the sum, and the floor and the clip keep the
one and, up to one, the other. -/
theorem premixIsMonotoneAndNearlyOdd : Obligations.PremixIsMonotoneAndNearlyOdd := by
  refine ⟨premix_eq, fun fm pg fm' pg' v h => ?_, fun fm pg v => ?_⟩
  · exact clip16_mono (sra_mono (mul_le_mul_of_nonneg_right h (Int.natCast_nonneg _)) 7)
  · have hneg : (-fm + -pg) * (v.toNat : Int) = -((fm + pg) * (v.toNat : Int)) := by ring
    rw [premix, hneg]
    exact clip16_nearly_odd (sra_neg _ 7)

/-! ### Stage (4): the low-pass filter (R107 to R109) -/

/-- The strict comparison of R108, with the distance as an integer. -/
theorem lowPassShift_eq (c : Config) (s l : Int) :
    lowPassShift c s l = if (c.clickThreshold : Int) < |s - l| then c.shiftClick else c.shiftNormal := by
  simp only [lowPassShift, Int.abs_eq_natAbs, Nat.cast_lt]

/-- The update moves the state by the floored fraction of its distance to the sample. -/
theorem lowPass_eq_add (c : Config) (s l : Int) : lowPass c s l = l + sra (s - l) (lowPassShift c s l) := by
  rw [add_comm, ← sra_add_mul, lowPass]
  congr 1
  push_cast
  ring

/-- The update of R107 under the shift of R108. -/
theorem lowPass_eq_div (c : Config) (s l : Int) :
    lowPass c s l = (s + l * (2 ^ lowPassShift c s l - 1)) / 2 ^ lowPassShift c s l := by
  rw [lowPass, sra]; push_cast; rfl

theorem lowPass_between (c : Config) (s l : Int) : min s l ≤ lowPass c s l ∧ lowPass c s l ≤ max s l := by
  rw [lowPass_eq_add]
  rcases lt_or_ge (s - l) 0 with h | h
  · have := sra_of_neg h (lowPassShift c s l)
    omega
  · have := sra_of_nonneg h (lowPassShift c s l)
    omega

/-- The state rests where its distance to the sample is floored away. -/
theorem lowPass_eq_self_iff (c : Config) (s l : Int) :
    lowPass c s l = l ↔ s - (2 ^ lowPassShift c s l - 1) ≤ l ∧ l ≤ s := by
  have := sra_eq_zero_iff (s - l) (lowPassShift c s l)
  rw [lowPass_eq_add]
  omega

theorem lowPass_from_below {c : Config} {s l : Int} (h : l < s - (2 ^ lowPassShift c s l - 1)) :
    l < lowPass c s l ∧ lowPass c s l ≤ s - (2 ^ lowPassShift c s l - 1) := by
  have := sra_of_pow_le (d := s - l) (k := lowPassShift c s l) (by omega)
  rw [lowPass_eq_add]
  omega

theorem lowPass_from_above {c : Config} {s l : Int} (h : s < l) : lowPass c s l < l ∧ s ≤ lowPass c s l := by
  have := sra_of_neg (d := s - l) (by omega) (lowPassShift c s l)
  rw [lowPass_eq_add]
  omega

/-- Settles O27: each clause says where the floored fraction of the distance lies, by the sign and the size of the distance;
the two runs are evaluated. -/
theorem lowPassConvergesWithoutOvershoot : Obligations.LowPassConvergesWithoutOvershoot := by
  refine ⟨fun c s l k hk => ?_, by decide, by decide⟩
  rw [← lowPassShift_eq] at hk
  subst hk
  exact ⟨lowPass_eq_div c s l, (lowPass_between c s l).1, (lowPass_between c s l).2, lowPass_eq_self_iff c s l,
    lowPass_from_below, lowPass_from_above⟩

/-! ### Stage (5): the crossfade (R110, R111) -/

/-- The weight of the new frame, in 256ths: the fraction of the crossfade that is over. -/
def crossfadeWeight (c : Config) (i : Nat) : Nat := 256 * i / c.f

theorem crossfadeWeight_lt {c : Config} {i : Nat} (h : i < c.f) : crossfadeWeight c i < 256 :=
  (Nat.div_lt_iff_lt_mul (by omega)).2 (by omega)

theorem crossfade_of_lt {c : Config} {i : Nat} (h : i < c.f) (p cur : Int) :
    crossfade c p i cur = (p * (256 - (crossfadeWeight c i : Int)) + cur * (crossfadeWeight c i : Int)) / 256 := if_pos h

theorem crossfade_of_le {c : Config} {i : Nat} (h : c.f ≤ i) (p cur : Int) : crossfade c p i cur = cur :=
  if_neg (by omega)

/-- A mean of two values with weights out of 256 lies between them. -/
theorem weighted_mean_between (p cur : Int) {a : Nat} (ha : a < 256) :
    min p cur ≤ (p * (256 - (a : Int)) + cur * (a : Int)) / 256 ∧
      (p * (256 - (a : Int)) + cur * (a : Int)) / 256 ≤ max p cur := by
  have hp : 0 ≤ 256 - (a : Int) := by omega
  have ha₀ : 0 ≤ (a : Int) := by omega
  have hlow := add_le_add (mul_le_mul_of_nonneg_right (min_le_left p cur) hp)
    (mul_le_mul_of_nonneg_right (min_le_right p cur) ha₀)
  have hhigh := add_le_add (mul_le_mul_of_nonneg_right (le_max_left p cur) hp)
    (mul_le_mul_of_nonneg_right (le_max_right p cur) ha₀)
  rw [← mul_add] at hlow hhigh
  generalize p * (256 - (a : Int)) + cur * (a : Int) = v at hlow hhigh
  omega

theorem crossfade_between (c : Config) (p cur : Int) (i : Nat) :
    min p cur ≤ crossfade c p i cur ∧ crossfade c p i cur ≤ max p cur := by
  rcases Nat.lt_or_ge i c.f with h | h
  · rw [crossfade_of_lt h]; exact weighted_mean_between p cur (crossfadeWeight_lt h)
  · rw [crossfade_of_le h]; exact ⟨min_le_right _ _, le_max_right _ _⟩

/-- The first sample of a crossfade has weight 0. -/
theorem crossfade_zero {c : Config} (h : 0 < c.f) (p cur : Int) : crossfade c p 0 cur = p := by
  rw [crossfade_of_lt h, crossfadeWeight]; simp

/-- Settles O28: below `F` the crossfade is the mean with the weight of the sample, from `F` on the new value. -/
theorem crossfadeRampsFromPrevious : Obligations.CrossfadeRampsFromPrevious := fun c p cur i =>
  ⟨fun h => crossfade_of_le h p cur, fun h => ⟨_, rfl, crossfadeWeight_lt h, crossfade_of_lt h p cur⟩,
    fun h => crossfade_zero h p cur, crossfade_between c p cur i⟩

/-! ### Stage (6): the soft limiter (R112) -/

/-- The magnitude that the limiter gives a value of magnitude `m`. -/
def limitedMagnitude (c : Config) (m : Nat) : Nat :=
  if c.limT < m then c.limT + (m - c.limT) / 2 ^ c.limShift else m

theorem softLimit_absent {c : Config} (h : c.limEn = false) (y : Int) : softLimit c y = y := by simp [softLimit, h]

theorem softLimit_present {c : Config} (h : c.limEn = true) (y : Int) :
    softLimit c y = withSign y (limitedMagnitude c y.natAbs) := by
  simp [softLimit, limitedMagnitude, h]

theorem limitedMagnitude_of_le {c : Config} {m : Nat} (h : m ≤ c.limT) : limitedMagnitude c m = m := if_neg (by omega)

theorem limitedMagnitude_of_lt {c : Config} {m : Nat} (h : c.limT < m) :
    limitedMagnitude c m = c.limT + (m - c.limT) / 2 ^ c.limShift := if_pos h

theorem limitedMagnitude_le (c : Config) (m : Nat) : limitedMagnitude c m ≤ m := by
  rcases Nat.lt_or_ge c.limT m with h | h
  · rw [limitedMagnitude_of_lt h]
    have := Nat.div_le_self (m - c.limT) (2 ^ c.limShift)
    omega
  · rw [limitedMagnitude_of_le h]

/-- The overshoot as an integer, for a value `v` above the threshold. -/
theorem cast_limitedMagnitude {c : Config} {m : Nat} {v : Int} (hv : (m : Int) = v) (h : (c.limT : Int) < v) :
    (limitedMagnitude c m : Int) = (c.limT : Int) + (v - c.limT) / 2 ^ c.limShift := by
  subst hv
  rw [limitedMagnitude_of_lt (by omega)]
  push_cast [Nat.cast_sub (show c.limT ≤ m by omega)]
  rfl

theorem abs_withSign_le (v : Int) (m : Nat) : |withSign v m| ≤ m := by
  rcases lt_trichotomy v 0 with h | rfl | h
  · simp [withSign_of_neg h]
  · simp
  · simp [withSign_of_pos h]

theorem softLimit_neg (c : Config) (y : Int) : softLimit c (-y) = -softLimit c y := by
  cases h : c.limEn with
  | false => rw [softLimit_absent h, softLimit_absent h]
  | true => rw [softLimit_present h, softLimit_present h, Int.natAbs_neg, withSign_neg]

theorem abs_softLimit_le (c : Config) (y : Int) : |softLimit c y| ≤ |y| := by
  cases h : c.limEn with
  | false => rw [softLimit_absent h]
  | true =>
    rw [softLimit_present h, Int.abs_eq_natAbs y]
    exact (abs_withSign_le _ _).trans (by exact_mod_cast limitedMagnitude_le c _)

theorem inI16_softLimit (c : Config) {y : Int} (hy : InI16 y) : InI16 (softLimit c y) := by
  cases h : c.limEn with
  | false => rwa [softLimit_absent h]
  | true => rw [softLimit_present h]; exact inI16_withSign hy (limitedMagnitude_le c _)

/-- The limiter at and below the threshold, above it, and below its negation. -/
theorem softLimit_cases {c : Config} (h : c.limEn = true) (y : Int) :
    (|y| ≤ (c.limT : Int) → softLimit c y = y) ∧
      ((c.limT : Int) < y → softLimit c y = (c.limT : Int) + (y - c.limT) / 2 ^ c.limShift) ∧
      (y < -(c.limT : Int) → softLimit c y = -((c.limT : Int) + (-y - c.limT) / 2 ^ c.limShift)) := by
  rw [softLimit_present h]
  refine ⟨fun hy => ?_, fun hy => ?_, fun hy => ?_⟩
  · rw [Int.abs_eq_natAbs, Nat.cast_le] at hy
    rw [limitedMagnitude_of_le hy, withSign_natAbs]
  · rw [withSign_of_pos (by omega), cast_limitedMagnitude (by omega) hy]
  · rw [withSign_of_neg (by omega), cast_limitedMagnitude (v := -y) (by omega) (by omega)]

/-- With the defaults a magnitude of an `i16` is limited to `24576 + 8192 / 4`. -/
theorem limitedMagnitude_default_le {m : Nat} (h : m ≤ 32768) : limitedMagnitude .default m ≤ 26624 := by
  change (if 24576 < m then 24576 + (m - 24576) / 2 ^ 2 else m) ≤ 26624
  split <;> omega

/-- Settles O29: the limiter acts on the magnitude alone, and there never raises it. -/
theorem softLimiterLaw : Obligations.SoftLimiterLaw := by
  refine ⟨fun c y h => softLimit_absent h y, fun c y h => softLimit_cases h y,
    fun c y => ⟨softLimit_neg c y, abs_softLimit_le c y⟩, fun c y h h' => inI16_softLimit c ⟨h, h'⟩, fun y h h' => ?_⟩
  rw [softLimit_present rfl]
  exact (abs_withSign_le _ _).trans (by exact_mod_cast limitedMagnitude_default_le (by omega))

/-! ### Stage (8): the mute fade (R114) -/

theorem fade_zero (c : Config) : fade c 0 = 0 := withSign_zero _

theorem fade_neg (c : Config) (l : Int) : fade c (-l) = -fade c l := by
  rw [fade, Int.natAbs_neg, withSign_neg, fade]

theorem fade_of_nonneg {c : Config} {l : Int} (h : 0 ≤ l) : fade c l = l * (2 ^ c.fadeShift - 1) / 2 ^ c.fadeShift := by
  obtain ⟨m, rfl⟩ := Int.eq_ofNat_of_zero_le h
  rcases Nat.eq_zero_or_pos m with rfl | hm
  · simp [fade]
  · rw [fade, withSign_of_pos (by omega), Int.natAbs_natCast]
    push_cast [Nat.cast_sub (Nat.one_le_two_pow (n := c.fadeShift))]
    rfl

/-- A fade loses at least one of a magnitude that is not 0. -/
theorem natAbs_fade_lt (c : Config) {l : Int} (h : l ≠ 0) : (fade c l).natAbs < l.natAbs := by
  have hpos := Nat.two_pow_pos c.fadeShift
  rw [fade, natAbs_withSign _ _ (.inl h), Nat.div_lt_iff_lt_mul hpos]
  exact Nat.mul_lt_mul_of_pos_left (by omega) (by omega)

theorem abs_fade_le (c : Config) {l : Int} (h : l ≠ 0) : |fade c l| ≤ |l| - 1 := by
  have := natAbs_fade_lt c h
  rw [Int.abs_eq_natAbs, Int.abs_eq_natAbs]
  omega

theorem fade_iterate_eq_zero (c : Config) {n : Nat} {l : Int} (h : l.natAbs ≤ n) : (fade c)^[n] l = 0 := by
  induction n generalizing l with
  | zero => simpa using h
  | succ n ih =>
    rw [Function.iterate_succ_apply]
    refine ih ?_
    by_cases hl : l = 0
    · simp [hl, fade_zero]
    · have := natAbs_fade_lt c hl
      omega

/-- Settles O30: the fade acts on the magnitude, which falls at every sample until it is 0. -/
theorem muteFadeReachesZero : Obligations.MuteFadeReachesZero := fun c l =>
  ⟨fade_of_nonneg, fade_neg c l, abs_fade_le c, fade_zero c, fun _ => fade_iterate_eq_zero c⟩

end Sys2Proof.Machine
end

section
/-! PROOFS. MIX as a whole (40_mixer.md R101, R102, R115 to R119): the frame it computes, and what that frame depends on. -/

namespace Sys2Proof.Machine

/-! ### MIX runs one frame -/

/-- In `Ready` MIX puts the mixed frame in the mixer's place and counts itself. -/
theorem exec_mix_ready {s : State} (hl : Legal s.cfg) (hr : s.engine.blkState = .ready) :
    exec .mix s = .next (countCommand { s with mixer := mixedFrame s.cfg s.control s.input s.mixer }) := by
  have hlegal : legalIn .mix s.engine.blkState = true := by rw [hr]; rfl
  change execMix s = _
  rw [execMix, hlegal, ifLegal_true, runMix_eq (legal_n_pos hl) (legal_n_le_cap hl), andThen_next]

theorem exec_mix_discarded {s : State} (hr : s.engine.blkState ≠ .ready) : exec .mix s = .next s :=
  exec_of_not_legal ((legalIn_eq_false_iff _ _).2 (.inr ⟨.inl rfl, hr⟩))

/-! ### What a frame depends on -/

/-- A frame reads the input state only through what the filter makes of its `N` samples. -/
theorem mixedFrame_congr {c : Config} {k : Control} {inp inp' : Input}
    (h : ∀ i, i < c.n → ∀ l, filterNext c k inp i l = filterNext c k inp' i l) (m : Mixer) :
    mixedFrame c k inp m = mixedFrame c k inp' m := by
  have htrace : ∀ j, j ≤ c.n → frameTrace c k inp m j = frameTrace c k inp' m j := by
    intro j
    induction j with
    | zero => intro _; rw [frameTrace_zero, frameTrace_zero]
    | succ j ih =>
      intro hj
      rw [frameTrace_succ, frameTrace_succ, ih (by omega), h j (by omega)]
  have hsamples : (mixSamples c k inp m).1 = (mixSamples c k inp' m).1 := by
    refine List.ext_getElem (by simp) fun j hj hj' => ?_
    rw [length_mixSamples] at hj
    rw [mixSamples_getElem, mixSamples_getElem, htrace (j + 1) hj]
  simp only [mixedFrame, hsamples, htrace c.n le_rfl]

/-- MIX answers alike under two input states of which the filter makes the same, and keeps the one it has. -/
theorem exec_mix_withInput {s t : State} {inp : Input} (hl : Legal s.cfg) (hr : s.engine.blkState = .ready)
    (h : ∀ i, i < s.cfg.n → ∀ l, filterNext s.cfg s.control s.input i l = filterNext s.cfg s.control inp i l)
    (ht : exec .mix s = .next t) : exec .mix { s with input := inp } = .next { t with input := inp } := by
  have hother := exec_mix_ready (s := { s with input := inp }) hl hr
  rw [exec_mix_ready hl hr] at ht
  rw [← Host.Outcome.next.inj ht, hother, ← mixedFrame_congr h]
  rfl

/-- Two input states agree in all that a frame may read: the validated counts, cut to the frame, and the elements below
them (R102, R103). -/
structure SameInputs (c : Config) (inp inp' : Input) : Prop where
  fmCount : min (validCount c inp.fmCount) c.n = min (validCount c inp'.fmCount) c.n
  psgCount : min (validCount c inp.psgCount) c.n = min (validCount c inp'.psgCount) c.n
  fmIn : ∀ i, i < min (validCount c inp.fmCount) c.n → inp.fmIn.read i = inp'.fmIn.read i
  psgIn : ∀ i, i < min (validCount c inp.psgCount) c.n → inp.psgIn.read i = inp'.psgIn.read i

/-- A sample of the frame is below both counts or at or above both. -/
theorem inputAt_congr {mem mem' : Memory Sample} {v v' n i : Nat} (hv : min v n = min v' n)
    (hmem : ∀ j, j < min v n → mem.read j = mem'.read j) (hi : i < n) : inputAt mem v i = inputAt mem' v' i := by
  unfold inputAt
  by_cases h : i < v
  · rw [if_pos h, if_pos (by omega), hmem i (by omega)]
  · rw [if_neg h, if_neg (by omega)]

theorem SameInputs.isMuted {c : Config} {inp inp' : Input} (h : SameInputs c inp inp') (hn : 1 ≤ c.n) (k : Control) :
    isMuted c k inp = isMuted c k inp' := by
  have hfm : validCount c inp.fmCount = 0 ↔ validCount c inp'.fmCount = 0 := by have := h.fmCount; omega
  have hpsg : validCount c inp.psgCount = 0 ↔ validCount c inp'.psgCount = 0 := by have := h.psgCount; omega
  simp only [Machine.isMuted, hfm, hpsg]

theorem SameInputs.filterNext {c : Config} {inp inp' : Input} (h : SameInputs c inp inp') (k : Control) {i : Nat}
    (hi : i < c.n) (l : Int) : filterNext c k inp i l = filterNext c k inp' i l := by
  rw [Machine.filterNext, Machine.filterNext, h.isMuted (by omega), inputAt_congr h.fmCount h.fmIn hi,
    inputAt_congr h.psgCount h.psgIn hi]

theorem validCount_eq (c : Config) (count : Word32) :
    validCount c count = if count.toInt < 0 ∨ (c.cap : Int) < count.toInt then 0 else count.toInt.toNat := by
  unfold validCount
  split
  · rw [if_neg (by omega)]
  · rw [if_pos (by omega)]

/-- Settles O25: outside `Ready` MIX is discarded whatever the input; in `Ready` the filter makes the same of either input. -/
theorem mixReadsOnlyValidInputs : Obligations.MixReadsOnlyValidInputs := by
  refine ⟨validCount_eq, fun s inp t hl hfm hpsg hfmIn hpsgIn ht => ⟨(exec_frame ht).input, ?_⟩⟩
  have hsame : SameInputs s.cfg s.input inp := ⟨hfm, hpsg, hfmIn, hpsgIn⟩
  by_cases hr : s.engine.blkState = .ready
  · exact exec_mix_withInput hl hr (fun i hi => hsame.filterNext s.control hi) ht
  · rw [exec_mix_discarded hr] at ht
    rw [← Host.Outcome.next.inj ht]
    exact exec_mix_discarded hr

/-! ### The stages of a sample -/

theorem isMuted_iff (c : Config) (k : Control) (inp : Input) :
    isMuted c k inp = true ↔
      k.enable = false ∨ (validCount c inp.fmCount = 0 ∧ validCount c inp.psgCount = 0) := by
  simp [isMuted]

theorem inStartup_iff (c : Config) (m : Mixer) : inStartup c m = true ↔ m.startupCtr.toNat < c.startupFrames :=
  decide_eq_true_iff

theorem filterNext_muted {c : Config} {k : Control} {inp : Input} (h : isMuted c k inp = true) (i : Nat) (l : Int) :
    filterNext c k inp i l = fade c l := if_pos h

theorem filterNext_audible {c : Config} {k : Control} {inp : Input} (h : ¬ isMuted c k inp = true) (i : Nat) (l : Int) :
    filterNext c k inp i l =
      lowPass c
        (premix (inputAt inp.fmIn (validCount c inp.fmCount) i) (inputAt inp.psgIn (validCount c inp.psgCount) i)
          k.volume) l := if_neg h

theorem outputValue_startup {c : Config} {m : Mixer} (h : m.startupCtr.toNat < c.startupFrames) (i : Nat) (cur : Int) :
    outputValue c m i cur = 0 := if_pos ((inStartup_iff c m).2 h)

theorem outputValue_played {c : Config} {m : Mixer} (h : ¬ m.startupCtr.toNat < c.startupFrames) (i : Nat) (cur : Int) :
    outputValue c m i cur = softLimit c (crossfade c m.prevOut.toInt i cur) := if_neg (mt (inStartup_iff c m).1 h)

theorem inI16_crossfade (c : Config) {p cur : Int} (hp : InI16 p) (hcur : InI16 cur) (i : Nat) :
    InI16 (crossfade c p i cur) := by
  obtain ⟨hlow, hhigh⟩ := crossfade_between c p cur i
  obtain ⟨hp₁, hp₂⟩ := hp
  obtain ⟨hcur₁, hcur₂⟩ := hcur
  exact ⟨by omega, by omega⟩

/-- What is written is an `i16`: it starts from one, and no stage leaves the range. -/
theorem inI16_outputValue (c : Config) (m : Mixer) (i : Nat) {cur : Int} (hcur : InI16 cur) :
    InI16 (outputValue c m i cur) := by
  by_cases h : m.startupCtr.toNat < c.startupFrames
  · rw [outputValue_startup h]; exact ⟨by decide, by decide⟩
  · rw [outputValue_played h]
    exact inI16_softLimit c (inI16_crossfade c (toInt_sample_range _) hcur i)

/-! ### The mixed frame, field by field -/

/-- The value written for sample `i` of a frame. -/
def frameValue (c : Config) (k : Control) (inp : Input) (m : Mixer) (i : Nat) : Int :=
  outputValue c m i (frameTrace c k inp m (i + 1))

section
variable (c : Config) (k : Control) (inp : Input) {m : Mixer}

theorem inI16_frameValue (hm : InI16 m.lpfState.toInt) (i : Nat) : InI16 (frameValue c k inp m i) :=
  inI16_outputValue c m i (inI16_frameTrace c k inp hm (i + 1))

theorem mixedFrame_lpfState (hm : InI16 m.lpfState.toInt) :
    (mixedFrame c k inp m).lpfState.toInt = frameTrace c k inp m c.n := by
  obtain ⟨hge, hle⟩ := inI16_frameTrace c k inp hm c.n
  exact toInt_toWord32 (by omega) (by omega)

theorem mixedFrame_prevOut (hn : 1 ≤ c.n) (hm : InI16 m.lpfState.toInt) :
    (mixedFrame c k inp m).prevOut.toInt = frameValue c k inp m (c.n - 1) := by
  obtain ⟨hge, hle⟩ := inI16_frameValue c k inp hm (c.n - 1)
  rw [← toInt_toSample hge hle, frameValue, Nat.sub_add_cancel hn]
  rfl

theorem mixedFrame_startupCtr (hs : c.startupFrames < 4294967296) :
    (mixedFrame c k inp m).startupCtr.toNat = min (m.startupCtr.toNat + 1) c.startupFrames := by
  rw [mixedFrame, BitVec.toNat_ofNat]; omega

theorem read_mixedFrame_of_lt {i : Nat} (hi : i < c.n) :
    (mixedFrame c k inp m).outBuf.read i = stereo (frameValue c k inp m i) := by
  rw [read_mixedFrame, if_pos hi, frameValue]

/-- Both halves of a written element read back as the value of its sample. -/
theorem toInt_halves_mixedFrame (hm : InI16 m.lpfState.toInt) {i : Nat} (hi : i < c.n) :
    ((mixedFrame c k inp m).outBuf.read i).l.toInt = frameValue c k inp m i ∧
      ((mixedFrame c k inp m).outBuf.read i).r.toInt = frameValue c k inp m i := by
  obtain ⟨hlow, hhigh⟩ := inI16_frameValue c k inp hm i
  rw [read_mixedFrame_of_lt c k inp hi, stereo_l, stereo_r]
  exact ⟨toInt_toSample hlow hhigh, toInt_toSample hlow hhigh⟩

theorem read_mixedFrame_of_le {i : Nat} (hi : c.n ≤ i) : (mixedFrame c k inp m).outBuf.read i = m.outBuf.read i := by
  rw [read_mixedFrame, if_neg (by omega)]

end

/-- Settles O31: the trajectory is the frame's filter trace and the outputs are its values; each is a stored `i16`, so the
registers and the elements read back as it. -/
theorem mixComputesTheFrame : Obligations.MixComputesTheFrame := by
  refine ⟨encodes_mix, fun s hr => exec_mix_discarded hr, fun s hl hr hge hle => ?_⟩
  have hlpf : InI16 s.mixer.lpfState.toInt := ⟨hge, hle⟩
  refine ⟨frameTrace s.cfg s.control s.input s.mixer, frameValue s.cfg s.control s.input s.mixer, _, exec_mix_ready hl hr,
    rfl, fun i _ => ?_, fun i _ => ?_, rfl, mixedFrame_lpfState _ _ _ hlpf, mixedFrame_prevOut _ _ _ (legal_n_pos hl) hlpf,
    mixedFrame_startupCtr _ _ _ (legal_startup hl), fun i hi => ?_, fun i hi => read_mixedFrame_of_le _ _ _ hi⟩
  · split
    · next hmuted => rw [frameTrace_succ, filterNext_muted ((isMuted_iff _ _ _).2 hmuted)]; rfl
    · next haudible =>
      refine ⟨_, _, _, _, rfl, rfl, rfl, rfl, ?_⟩
      rw [frameTrace_succ, filterNext_audible (mt (isMuted_iff _ _ _).1 haudible), lowPass_eq_div, lowPassShift_eq, premix_eq]
      rfl
  · split
    · next hopen => exact outputValue_startup hopen _ _
    · next hclosed => exact outputValue_played hclosed _ _
  · exact toInt_halves_mixedFrame _ _ _ hlpf hi

/-! ### A disabled frame -/

/-- With `ENABLE` 0 the filter only fades, whatever the input. -/
theorem filterNext_disabled {k : Control} (h : k.enable = false) (c : Config) (inp : Input) (i : Nat) (l : Int) :
    filterNext c k inp i l = fade c l :=
  filterNext_muted ((isMuted_iff c k inp).2 (.inl h)) i l

theorem frameTrace_disabled {k : Control} (h : k.enable = false) (c : Config) (inp : Input) (m : Mixer) (j : Nat) :
    frameTrace c k inp m j = (fade c)^[j] m.lpfState.toInt := by
  induction j with
  | zero => rfl
  | succ j ih => rw [frameTrace_succ, filterNext_disabled h, ih, Function.iterate_succ_apply']

/-- Settles O32: every step of the filter is a fade, under any input state. -/
theorem disabledFrameFades : Obligations.DisabledFrameFades := by
  intro s hl hr hoff hge hle
  refine ⟨_, exec_mix_ready hl hr, ?_, fun inp => ?_⟩
  · rw [← frameTrace_disabled hoff s.cfg s.input s.mixer]
    exact mixedFrame_lpfState _ _ _ ⟨hge, hle⟩
  · refine exec_mix_withInput hl hr (fun i _ l => ?_) (exec_mix_ready hl hr)
    rw [filterNext_disabled hoff, filterNext_disabled hoff]

/-! ### The start-up window -/

/-- Settles O33: every value of the frame is 0, and the filter's trace does not read the window's count. -/
theorem startupFramesAreSilent : Obligations.StartupFramesAreSilent := by
  intro s hl hr hopen
  refine ⟨_, exec_mix_ready hl hr, fun i hi => ?_, ?_, ?_, fun x t' ht' => ?_⟩
  · exact (read_mixedFrame_of_lt _ _ _ hi).trans (by rw [frameValue, outputValue_startup hopen, stereo_zero]; rfl)
  · change toSample (outputValue s.cfg s.mixer _ _) = 0
    rw [outputValue_startup hopen]; rfl
  · exact (mixedFrame_startupCtr _ _ _ (legal_startup hl)).trans (by omega)
  · have hother := exec_mix_ready (s := { s with mixer := { s.mixer with startupCtr := x } }) hl hr
    rw [← Host.Outcome.next.inj (hother.symm.trans ht')]
    rfl

end Sys2Proof.Machine
end

section
/-! PROOFS. What a tick emits has equal halves (40_mixer.md R113, 10_state.md R49 item 4). -/

namespace Sys2Proof.Machine

/-- The output stream grew by one pair of equal halves. -/
def EmitsMono (s t : State) : Prop := ∃ p : Pair, p.l = p.r ∧ t.outStream = s.outStream ++ [p]

/-- A ring that is a space of pairs stays one when an underrun inserts silence. -/
theorem mono_insertSilence {c : Config} {e : Engine} (hl : Legal c) (hs : c.shape = .ring)
    (h : PairSpace e.region (regionSize c)) : Mono (insertSilence c e).region :=
  (pairSpace_writeRing_frame hl hs h _ (monoFrame_silence _) (length_silence _)).mono

theorem tickRing_emitsMono {s t : State} (hl : Legal s.cfg) (hs : s.cfg.shape = .ring) (h : EngineInv s.cfg s.engine)
    (ht : tickRing s = .next t) : EmitsMono s t := by
  obtain ⟨u, hu, -, rfl⟩ := tickRing_eq_next ht
  have hfed : Mono u.engine.region ∧ u.outStream = s.outStream := by
    subst hu
    split
    · exact ⟨mono_insertSilence hl hs h.region, rfl⟩
    · exact ⟨h.region.mono, rfl⟩
  exact ⟨_, hfed.1 _, congrArg (· ++ _) hfed.2⟩

theorem tickPingpong_emitsMono {s t : State} (h : EngineInv s.cfg s.engine) (ht : tickPingpong s = .next t) :
    EmitsMono s t := by
  obtain ⟨moved, -, -, rfl, ⟨-, rfl⟩ | ⟨-, ht⟩⟩ := tickPingpong_eq_next ht
  · exact ⟨_, h.region.mono _, rfl⟩
  · rw [takeInterrupt_serviceBuffer ht]
    exact ⟨_, h.region.mono _, rfl⟩

/-- What the N-buffer plays is silence or an element of the region. -/
theorem queueSample_mono {c : Config} {e : Engine} {v : Pair} (h : Mono e.region) (hv : queueSample c e = some v) :
    v.l = v.r := by
  unfold queueSample at hv
  split at hv
  · cases hv; rfl
  · obtain ⟨-, -, rfl⟩ := readBuffer_eq_some hv
    exact h _

theorem tickNbuf_emitsMono {s t : State} (h : EngineInv s.cfg s.engine) (ht : tickNbuf s = .next t) : EmitsMono s t := by
  obtain ⟨v, moved, hv, rfl, ⟨-, rfl⟩ | ⟨-, ht⟩⟩ := tickNbuf_eq_next ht
  · exact ⟨v, queueSample_mono h.region.mono hv, rfl⟩
  · obtain ⟨-, rfl⟩ := takeInterrupt_eq_next ht
    rw [serviceQueue_eq]
    exact ⟨v, queueSample_mono h.region.mono hv, rfl⟩

/-- A tick that is enabled emits one pair of equal halves, in every shape. -/
theorem tick_emitsMono {s t : State} (hl : Legal s.cfg) (h : EngineInv s.cfg s.engine) (hen : tickEnabled s.engine = true)
    (ht : tick s = .next t) : EmitsMono s t := by
  rw [tick_enabled hen] at ht
  cases hs : s.cfg.shape with
  | ring => rw [hs] at ht; exact tickRing_emitsMono hl hs h ht
  | pingpong => rw [hs] at ht; exact tickPingpong_emitsMono h ht
  | nbuf => rw [hs] at ht; exact tickNbuf_emitsMono h ht

/-- Settles O55: only the DMA agent's turn reaches the output, and what it adds has equal halves. -/
theorem outputIsMono : Obligations.OutputIsMono := by
  intro s t hg h hmono
  obtain ⟨-, ⟨-, rfl⟩ | ⟨turn, later, -, ht⟩⟩ := step_eq_next h
  · exact hmono
  cases turn with
  | host => rw [(hostTurn_frame ht).outStream]; exact hmono
  | dma =>
    obtain ⟨-, rfl⟩ | ⟨hen, -⟩ := tick_eq_next ht
    · exact hmono
    · obtain ⟨v, hv, hout⟩ := tick_emitsMono (s := { s with turns := later }) hg.legal hg.engine hen ht
      rw [hout]
      intro p hp
      obtain hp | hp := List.mem_append.1 hp
      · exact hmono p hp
      · rw [List.mem_singleton.1 hp]; exact hv
  | sca w => obtain ⟨inp, rfl, -⟩ := scaTurn_eq_next ht; exact hmono
  | env a => obtain ⟨b, v, w, rfl⟩ := envTurn_eq_next ht; exact hmono

end Sys2Proof.Machine
end

section
/-! PROOFS. Where a pushed frame lands in `REGION`, what an admitted PUSH does to the whole state, and when PUSH and SUBMIT are
held (41_dma.md R130 to R145). -/

namespace Sys2Proof.Machine

/-! ### A frame written to a memory -/

/-- `m'` is `m` with element `j` of the frame at `dest j`, and nothing else written. -/
structure WritesFrame (dest : Nat → Nat) (frame : List Pair) (m m' : Memory Pair) : Prop where
  landed : ∀ j, j < frame.length → m'.read (dest j) = frame.getD j .silent
  elsewhere : ∀ i, (∀ j, j < frame.length → i ≠ dest j) → m'.read i = m.read i

/-- How far an element of the ring stands past position `p`, read back from where it landed. -/
theorem wrapPos_distance {c : Config} (h0 : 0 < c.ringSize) (p : Nat) {j : Nat} (hj : j < c.ringSize) :
    wrapPos c (wrapPos c (p + j) + c.ringSize - wrapPos c p) = j := by
  have hq := wrapPos_lt h0 p
  rw [← wrapPos_add_wrapPos c p j]
  rcases Nat.lt_or_ge (wrapPos c p + j) c.ringSize with h | h
  · rw [wrapPos_of_lt h, wrapPos_of_le (by omega) (by omega)]; omega
  · rw [wrapPos_of_le h (by omega), wrapPos_of_lt (by omega)]; omega

/-- Every element of the ring stands at its distance past position `p`. -/
theorem wrapPos_add_distance {c : Config} (p : Nat) {i : Nat} (hi : i < c.ringSize) :
    wrapPos c (p + wrapPos c (i + c.ringSize - wrapPos c p)) = i := by
  have hq := wrapPos_lt (Nat.zero_lt_of_lt hi) p
  rw [← wrapPos_add_wrapPos c p]
  rcases Nat.lt_or_ge i (wrapPos c p) with h | h
  · rw [wrapPos_of_lt (p := i + c.ringSize - wrapPos c p) (by omega), wrapPos_of_le (by omega) (by omega)]; omega
  · rw [wrapPos_of_le (p := i + c.ringSize - wrapPos c p) (by omega) (by omega), wrapPos_of_lt (by omega)]; omega

/-- A frame written to the ring from position `p` on, around its end (R135). -/
theorem writesFrame_writeRing {c : Config} (m : Memory Pair) (p : Nat) {vs : List Pair} (h0 : 0 < c.ringSize)
    (hlen : vs.length ≤ c.ringSize) :
    WritesFrame (fun j => wrapPos c (p + j)) vs m (writeRing c m p vs) where
  landed j hj := by
    rw [read_writeRing m p _ vs h0 hlen, wrapPos_distance h0 p (by omega), if_pos ⟨wrapPos_lt h0 _, hj⟩]
  elsewhere i hi := by
    rw [read_writeRing m p i vs h0 hlen, if_neg]
    rintro ⟨hlt, hdist⟩
    exact hi _ hdist (wrapPos_add_distance p hlt).symm

/-- A frame written to buffer `k` from its first element on (R137, R139). -/
theorem writesFrame_writeBuffer (c : Config) (m : Memory Pair) (k : Nat) (vs : List Pair) :
    WritesFrame (bufIndex c k) vs m (m.writeBlock (bufIndex c k 0) vs) where
  landed j hj := by
    have hle : bufIndex c k 0 ≤ bufIndex c k j ∧ bufIndex c k j < bufIndex c k 0 + vs.length := by
      simp only [bufIndex]; omega
    have hoff : bufIndex c k j - bufIndex c k 0 = j := by simp only [bufIndex]; omega
    rw [Memory.read_writeBlock, if_pos hle, hoff, default_pair]
  elsewhere i hi := by
    rw [Memory.read_writeBlock, if_neg]
    rintro ⟨hge, hlt⟩
    refine hi (i - bufIndex c k 0) (by omega) ?_
    simp only [bufIndex] at hge ⊢
    omega

theorem pushDestination_ring {c : Config} (hs : c.shape = .ring) (e : Engine) :
    pushDestination c e = fun j => wrapPos c (e.wrPos + j) := by
  funext j; simp only [pushDestination, hs]

theorem pushDestination_pingpong {c : Config} (hs : c.shape = .pingpong) (e : Engine) :
    pushDestination c e = bufIndex c (pushTarget e) := by
  funext j; simp only [pushDestination, hs]

theorem pushDestination_nbuf {c : Config} (hs : c.shape = .nbuf) (e : Engine) :
    pushDestination c e = bufIndex c (e.wrCnt.toNat % c.nbuf) := by
  funext j; simp only [pushDestination, hs]

/-- In every shape the published frame lands at its destinations and nowhere else (R135, R137, R139). -/
theorem publishFrame_writes {c : Config} {frame : List Pair} {e e' : Engine} (hl : Legal c) (h : EngineInv c e)
    (hlen : frame.length = c.n) (hp : publishFrame c frame e = some e') :
    WritesFrame (pushDestination c e) frame e.region e'.region := by
  cases hs : c.shape with
  | ring =>
    have hroom := legal_ring_frame hl hs
    rw [publishFrame_ring hs, Option.some.injEq] at hp
    rw [pushDestination_ring hs, ← hp]
    exact writesFrame_writeRing e.region e.wrPos (legal_ringSize_pos hl hs) (by omega)
  | pingpong =>
    have hbuf := (legal_pingpong hl hs).1
    rw [publishFrame_pingpong hs (h.pushTarget_lt hl hs) (hlen.trans hbuf.symm), Option.some.injEq] at hp
    rw [pushDestination_pingpong hs, ← hp, Engine.setBst_region]
    exact writesFrame_writeBuffer c e.region (pushTarget e) frame
  | nbuf =>
    obtain ⟨-, hbuf, hnbuf, -, -⟩ := legal_nbuf hl hs
    rw [publishFrame_nbuf hs (by omega) (hlen.trans hbuf.symm), Option.some.injEq] at hp
    rw [pushDestination_nbuf hs, ← hp]
    exact writesFrame_writeBuffer c e.region _ frame

/-! ### The shifted frame (R132) -/

theorem inI16_sra {v : Int} (h : InI16 v) (k : Nat) : InI16 (sra v k) := by
  obtain ⟨hge, hle⟩ := h
  unfold InI16
  rcases lt_or_ge v 0 with hv | hv
  · have := sra_of_neg hv k; omega
  · have := sra_of_nonneg hv k; omega

/-- A half shifted right stays in the `i16` range, so the shift is the floor of the division. -/
theorem toInt_toSample_sra (b : Sample) (k : Nat) : (toSample (sra b.toInt k)).toInt = b.toInt / 2 ^ k := by
  obtain ⟨hge, hle⟩ := inI16_sra (toInt_sample_range b) k
  rw [toInt_toSample hge hle, sra]
  push_cast
  rfl

theorem getD_copiedFrame {s : State} {j : Nat} (hj : j < s.cfg.n) :
    (copiedFrame s).getD j .silent = attenuate s.control.dmaShift (s.mixer.outBuf.read j) := by
  have hlt : j < (copiedFrame s).length := by rw [length_copiedFrame]; exact hj
  rw [List.getD_eq_getElem?_getD, List.getElem?_eq_getElem hlt, Option.getD_some, getElem_copiedFrame]

/-- Where a PUSH wrote its frame stand the shifted halves of `OUT_BUF` (R132). -/
theorem WritesFrame.toInt_halves {dest : Nat → Nat} {s : State} {m m' : Memory Pair}
    (h : WritesFrame dest (copiedFrame s) m m') {j : Nat} (hj : j < s.cfg.n) :
    (m'.read (dest j)).l.toInt = (s.mixer.outBuf.read j).l.toInt / 2 ^ s.control.dmaShift.toNat ∧
      (m'.read (dest j)).r.toInt = (s.mixer.outBuf.read j).r.toInt / 2 ^ s.control.dmaShift.toNat := by
  rw [h.landed j (by rwa [length_copiedFrame]), getD_copiedFrame hj]
  exact ⟨toInt_toSample_sra _ _, toInt_toSample_sra _ _⟩

/-- Every element that is no destination of the frame stays (R132). -/
theorem WritesFrame.unchanged {dest : Nat → Nat} {s : State} {m m' : Memory Pair}
    (h : WritesFrame dest (copiedFrame s) m m') (i : Nat) (hi : ∀ j, j < s.cfg.n → i ≠ dest j) : m'.read i = m.read i :=
  h.elsewhere i (by simpa using hi)

/-! ### The pre-roll step, field by field (R133, R140, R141) -/

/-- The engine after the tail of a PUSH: before the start one more push counted, and the start when that completes the
pre-roll. -/
def prerolled (c : Config) (e : Engine) : Engine :=
  { e with
    pushCnt := if e.running then e.pushCnt else e.pushCnt + 1
    running := e.running || decide (c.preroll ≤ e.pushCnt.toNat + 1)
    rst :=
      if c.shape = .pingpong then e.rst
      else if e.running = true ∨ c.preroll ≤ e.pushCnt.toNat + 1 then .playing else .armed
    bst0 :=
      if c.shape = .pingpong ∧ e.running = false ∧ c.preroll ≤ e.pushCnt.toNat + 1 then .playing else e.bst0 }

@[simp] theorem prerolled_region (c : Config) (e : Engine) : (prerolled c e).region = e.region := rfl

theorem startEngine_eq {c : Config} {e : Engine} (h : StartValues c e) :
    startEngine c e =
      { e with
        running := true
        rst := if c.shape = .pingpong then e.rst else .playing
        bst0 := if c.shape = .pingpong then .playing else e.bst0 } := by
  cases hs : c.shape with
  | ring => simp [startEngine, hs]
  | pingpong => simp [startEngine, hs, Engine.setBst, h.playing.symm]
  | nbuf => simp [startEngine, hs, h.curSilent.symm, h.desc.symm]

theorem awaitPreroll_eq (c : Config) (e : Engine) :
    awaitPreroll c e = { e with rst := if c.shape = .pingpong then e.rst else .armed } := by
  cases hs : c.shape with
  | ring => simp [awaitPreroll, hs]
  | pingpong => simp [awaitPreroll, hs]
  | nbuf => simp [awaitPreroll, hs]

/-- A running engine has its pre-roll behind it. -/
theorem prerolled_running {c : Config} {e : Engine} (hr : e.running = true)
    (hrst : c.shape ≠ .pingpong → e.rst = .playing) : prerolled c e = e := by
  cases e
  by_cases hs : c.shape = .pingpong
  · simp_all [prerolled]
  · simp_all [prerolled]

/-- The pre-roll step of an engine that keeps the invariants: `RST` follows `RUNNING`, and the start finds the values it
writes. -/
theorem prerollStep_eq_prerolled {c : Config} {e : Engine}
    (hrst : c.shape ≠ .pingpong → e.running = true → e.rst = .playing)
    (hcnt : e.running = false → (e.pushCnt + 1).toNat = e.pushCnt.toNat + 1)
    (hstart : e.running = false → StartValues c e) : prerollStep c e = prerolled c e := by
  cases hr : e.running with
  | true =>
    rw [prerollStep_running hr, prerolled_running hr fun hs => hrst hs hr]
  | false =>
    rw [prerollStep_stopped hr, hcnt hr]
    obtain ⟨hplaying, hsilent, hdesc⟩ := hstart hr
    have hvalues : StartValues c { e with pushCnt := e.pushCnt + 1 } := ⟨hplaying, hsilent, hdesc⟩
    by_cases hp : c.preroll ≤ e.pushCnt.toNat + 1
    · rw [if_pos hp, startEngine_eq hvalues]
      simp [prerolled, hr, hp]
    · rw [if_neg hp, awaitPreroll_eq]
      simp [prerolled, hr, hp]

theorem EngineInv.rst_playing {c : Config} {e : Engine} (h : EngineInv c e) (hs : c.shape ≠ .pingpong)
    (hr : e.running = true) : e.rst = .playing := by
  have hrst : e.rst = rstOf e := by
    cases hc : c.shape with
    | ring => exact (h.ring hc).rst
    | pingpong => exact absurd hc hs
    | nbuf => exact (h.nbuf hc).rst
  rw [hrst, rstOf, if_pos hr]

/-- What the copy of a frame leaves alone of the registers that the pre-roll step reads or writes. -/
theorem publishFrame_common {c : Config} {frame : List Pair} {e e' : Engine} (h : publishFrame c frame e = some e') :
    e'.running = e.running ∧ e'.pushCnt = e.pushCnt ∧ e'.rst = e.rst := by
  obtain ⟨region, wrPos, wrCnt, rfl⟩ | ⟨region, k, rfl⟩ := publishFrame_eq_some h
  · exact ⟨rfl, rfl, rfl⟩
  · exact ⟨Engine.setBst_running _ k .armed, Engine.setBst_pushCnt _ k .armed, Engine.setBst_rst _ k .armed⟩

/-- The tail of a PUSH on the engine that the copy of a frame leaves. -/
theorem EngineInv.prerollStep_published {c : Config} {frame : List Pair} {e e' : Engine} (hl : Legal c)
    (h : EngineInv c e) (hp : publishFrame c frame e = some e') : prerollStep c e' = prerolled c e' := by
  obtain ⟨hrun, hcnt, hrst⟩ := publishFrame_common hp
  refine prerollStep_eq_prerolled (fun hs hr => ?_) (fun hr => ?_) fun hr => ?_
  · rw [hrst, h.rst_playing hs (hrun ▸ hr)]
  · rw [hcnt, h.pushCnt_succ hl (hrun ▸ hr)]
  · exact (h.startValues (hrun ▸ hr)).of_sameDmaRegisters (sameDmaRegisters_publishFrame hp)

/-! ### PUSH and SUBMIT, held and admitted (R131, R134, R143, R144) -/

theorem heldIn_push (s : State) :
    heldIn .push s = true ↔ s.engine.blkState = .ready ∧ pushHeld s.cfg s.engine = true := by
  simp [heldIn, legalIn]

/-- SUBMIT is held exactly when PUSH is. -/
theorem heldIn_submit (s : State) : heldIn .submit s = heldIn .push s := rfl

/-- Only PUSH and SUBMIT can be held, and both under one condition. -/
theorem heldIn_iff (i : Instr) (s : State) :
    heldIn i s = true ↔
      (i = .push ∨ i = .submit) ∧ s.engine.blkState = .ready ∧ pushHeld s.cfg s.engine = true := by
  cases i with
  | push => simp [heldIn_push]
  | submit => simp [heldIn_submit, heldIn_push]
  | _ => simp [heldIn]

/-- In `Ready` a PUSH that is not held finds the shape's hold condition false. -/
theorem pushHeld_of_not_heldIn {s : State} (hr : s.engine.blkState = .ready) (h : heldIn .push s = false) :
    pushHeld s.cfg s.engine = false := by
  simpa [heldIn, legalIn, hr] using h

theorem exec_push_held {s : State} (h : heldIn .push s = true) : exec .push s = .next s := by
  obtain ⟨hr, hheld⟩ := (heldIn_push s).1 h
  have hlegal : legalIn .push s.engine.blkState = true := by rw [hr]; rfl
  change execPush s = _
  rw [execPush, hlegal, ifLegal_true, hheld, unlessHeld_true]

theorem exec_submit_held {s : State} (h : heldIn .submit s = true) : exec .submit s = .next s := by
  obtain ⟨hr, hheld⟩ := (heldIn_push s).1 h
  have hlegal : legalIn .submit s.engine.blkState = true := by rw [hr]; rfl
  change execSubmit s = _
  rw [execSubmit, hlegal, ifLegal_true, hheld, unlessHeld_true]

/-- An admitted PUSH publishes the copied frame, takes the pre-roll step and counts the buffer and itself (R143). -/
theorem exec_push_admitted {s : State} {e : Engine} (hl : Legal s.cfg) (h : EngineInv s.cfg s.engine)
    (hr : s.engine.blkState = .ready) (hheld : pushHeld s.cfg s.engine = false)
    (hp : publishFrame s.cfg (copiedFrame s) s.engine = some e) :
    exec .push s = .next (countCommand (countFilled { s with engine := prerolled s.cfg e })) := by
  have hlegal : legalIn .push s.engine.blkState = true := by rw [hr]; rfl
  change execPush s = _
  rw [execPush, hlegal, ifLegal_true, hheld, unlessHeld_false, runPush_of_publish hp, andThen_next,
    h.prerollStep_published hl hp]

/-- The state with one frame mixed, nothing counted yet (R118). -/
def State.mixed (s : State) : State := { s with mixer := mixedFrame s.cfg s.control s.input s.mixer }

theorem runMix_eq_mixed {s : State} (hl : Legal s.cfg) : runMix s = .next s.mixed :=
  runMix_eq (legal_n_pos hl) (legal_n_le_cap hl)

/-- An admitted SUBMIT mixes a frame and publishes that one, counted once (R144). -/
theorem exec_submit_admitted {s : State} {e : Engine} (hl : Legal s.cfg) (h : EngineInv s.cfg s.engine)
    (hr : s.engine.blkState = .ready) (hheld : pushHeld s.cfg s.engine = false)
    (hp : publishFrame s.cfg (copiedFrame s.mixed) s.engine = some e) :
    exec .submit s = .next (countCommand (countFilled { s.mixed with engine := prerolled s.cfg e })) := by
  have hlegal : legalIn .submit s.engine.blkState = true := by rw [hr]; rfl
  have hpush : runPush s.mixed = .next (countFilled { s.mixed with engine := prerollStep s.cfg e }) :=
    runPush_of_publish hp
  change execSubmit s = _
  rw [execSubmit, hlegal, ifLegal_true, hheld, unlessHeld_false, runMix_eq_mixed hl, andThen_next, hpush, andThen_next,
    h.prerollStep_published hl hp]

/-! ### The hold condition by shape (R136, R138, R139) -/

theorem pushHeld_ring_iff {c : Config} {e : Engine} (hl : Legal c) (hs : c.shape = .ring) :
    pushHeld c e = true ↔
      ((c.ringSize - c.minHeadroom : Nat) : Int) < ((e.wrPos : Int) - (e.rdPos : Int)) % (c.ringSize : Int) + (c.n : Int) := by
  have h0 := legal_ringSize_pos hl hs
  have hfill : (ringFill c e : Int) = ((e.wrPos : Int) - (e.rdPos : Int)) % (c.ringSize : Int) :=
    Int.toNat_of_nonneg (Int.emod_nonneg _ (by omega))
  simp only [pushHeld, hs, decide_eq_true_eq]
  omega

theorem pushHeld_pingpong_iff {c : Config} {e : Engine} (hs : c.shape = .pingpong) :
    pushHeld c e = true ↔ e.running = true ∧ e.bst (otherBuffer e.playing) = .armed := by
  simp [pushHeld, hs]

theorem pushHeld_nbuf_iff {c : Config} {e : Engine} (hs : c.shape = .nbuf) :
    pushHeld c e = true ↔ queueFill e = c.nbuf := by
  simp [pushHeld, hs]

theorem otherBuffer_val (p : Fin 2) : (otherBuffer p).val = 1 - p.val := by
  obtain rfl | rfl := fin2_cases p
  · rfl
  · rfl

theorem bst_otherBuffer (e : Engine) (p : Fin 2) : e.bst (otherBuffer p) = if p = 0 then e.bst1 else e.bst0 := by
  obtain rfl | rfl := fin2_cases p
  · rfl
  · rfl

/-- A held command leaves the HOST's turn without effect, its record at the head of the port. -/
theorem hostTurn_of_held {s : State} {r : Record} {rest : List Record} {i : Instr} (hport : s.port = r :: rest)
    (hi : decode r = .command i) (hheld : heldIn i s = true) : hostTurn s = .next s := by
  simp [hostTurn, hport, hi, hheld]

theorem exec_of_held {i : Instr} {s : State} (h : heldIn i s = true) : exec i s = .next s := by
  obtain ⟨rfl | rfl, -⟩ := (heldIn_iff i s).1 h
  · exact exec_push_held h
  · exact exec_submit_held h

/-- Settles O7: PUSH and SUBMIT alone have a hold condition, the shape's; `exec` and the HOST's turn give a held command the
state itself. -/
theorem heldCommandWaits : Obligations.HeldCommandWaits := by
  refine ⟨fun i s h => ?_, fun i s hl => ?_, fun i s => exec_of_held, ?_⟩
  · obtain ⟨hi, hr, -⟩ := (heldIn_iff i s).1 h
    exact ⟨hi, hr⟩
  · rw [heldIn_iff]
    refine and_congr_right fun _ => and_congr_right fun _ => ?_
    cases hs : s.cfg.shape with
    | ring => exact pushHeld_ring_iff hl hs
    | pingpong => rw [← bst_otherBuffer]; exact pushHeld_pingpong_iff hs
    | nbuf => exact pushHeld_nbuf_iff hs
  · rintro s r rest later i ⟨hl, hturns, hport⟩ hi hheld
    rw [step_of_turn hl hturns]
    exact hostTurn_of_held hport hi ((heldIn_withTurns i s later).trans hheld)

/-- Before the start the pushes so far leave room for one more in every shape (R145 (a)). -/
theorem pushHeld_of_stopped {c : Config} {e : Engine} (hl : Legal c) (h : EngineInv c e) (hr : e.running = false) :
    pushHeld c e = false := by
  have hpre := h.preroll hr
  cases hs : c.shape with
  | ring =>
    obtain ⟨hrd, hwr⟩ := (h.ring hs).stopped hr
    obtain ⟨-, -, -, hroom⟩ := legal_ring hl hs
    have hfill : ringFill c e = e.pushCnt.toNat * c.n := by
      rw [ringFill_eq (h.ring hs).wr_lt (h.ring hs).rd_lt, hrd, hwr, if_pos (Nat.zero_le _), Nat.sub_zero]
    have hnext : (e.pushCnt.toNat + 1) * c.n ≤ c.preroll * c.n := Nat.mul_le_mul_right _ hpre
    rw [pushHeld_ring hs, hfill, ← Nat.succ_mul]
    exact hnext.trans hroom
  | pingpong => simp [pushHeld, hs, hr]
  | nbuf =>
    obtain ⟨hrd, hwr, -, -⟩ := (h.nbuf hs).stopped hr
    have hle := (legal_nbuf hl hs).2.2.2.2
    have hfill : queueFill e = e.pushCnt.toNat := by simp [queueFill, hrd, hwr]
    rw [pushHeld_nbuf hs, hfill]
    omega

/-- Settles O38: by R90's table outside `Ready`, and by the room that the pre-roll leaves before the start. -/
theorem pushBeforeTheStartIsAdmitted : Obligations.PushBeforeTheStartIsAdmitted := by
  refine ⟨encodes_push, encodes_submit, fun s hne => ⟨?_, ?_⟩, fun s hg hr => ?_⟩
  · exact exec_of_not_legal ((legalIn_eq_false_iff _ _).2 (.inr ⟨.inr (.inl rfl), hne⟩))
  · exact exec_of_not_legal ((legalIn_eq_false_iff _ _).2 (.inr ⟨.inr (.inr rfl), hne⟩))
  · have hroom := pushHeld_of_stopped hg.legal hg.engine hr
    have hpush : heldIn .push s = false := by simp [heldIn, hroom]
    exact ⟨hpush, hpush⟩

/-- Settles O40: MIX leaves all that the hold condition reads, and the PUSH after it publishes the frame just mixed. -/
theorem submitIsMixThenPush : Obligations.SubmitIsMixThenPush := by
  refine fun s => ⟨heldIn_submit s, exec_submit_held, fun hne => ?_, fun hg hr hheld => ?_⟩
  · exact exec_of_not_legal ((legalIn_eq_false_iff _ _).2 (.inr ⟨.inr (.inr rfl), hne⟩))
  · have hroom := pushHeld_of_not_heldIn hr hheld
    obtain ⟨e, he⟩ := publishFrame_answers hg.legal hg.engine (length_copiedFrame s.mixed)
    exact ⟨countCommand s.mixed, _, exec_mix_ready hg.legal hr, hheld,
      exec_push_admitted (s := countCommand s.mixed) hg.legal hg.engine hr hroom he,
      exec_submit_admitted hg.legal hg.engine hr hroom he⟩

/-! ### PUSH by shape (R143) -/

/-- Settles O35: the frame is published around the ring, then the pre-roll step. -/
theorem pushWritesTheRing : Obligations.PushWritesTheRing := by
  intro s hg hr hs hfill
  have hp := publishFrame_ring hs (copiedFrame s) s.engine
  have hw := publishFrame_writes hg.legal hg.engine (length_copiedFrame s) hp
  rw [pushDestination_ring hs] at hw
  refine ⟨_, ?_, fun j hj => hw.toInt_halves hj, hw.unchanged⟩
  rw [exec_push_admitted hg.legal hg.engine hr ((pushHeld_ring hs).2 hfill) hp]
  simp [prerolled, countFilled, countCommand, hs, wrapPos]

/-- Settles O36: the frame is published in the target buffer, then the pre-roll step. -/
theorem pushFillsThePingpongBuffer : Obligations.PushFillsThePingpongBuffer := by
  intro s hg hr hs hheld
  have ht := hg.engine.pushTarget_lt hg.legal hs
  have hbuf := (legal_pingpong hg.legal hs).1
  have hp := publishFrame_pingpong hs ht ((length_copiedFrame s).trans hbuf.symm)
  have hw := publishFrame_writes hg.legal hg.engine (length_copiedFrame s) hp
  rw [pushDestination_pingpong hs, Engine.setBst_region] at hw
  have hk : pushTarget s.engine = if s.engine.running then 1 - s.engine.playing.val else s.engine.pushCnt.toNat := by
    rw [pushTarget, otherBuffer_val]
  refine ⟨⟨pushTarget s.engine, ht⟩, _, hk,
    exec_push_admitted hg.legal hg.engine hr (pushHeld_of_not_heldIn hr hheld) hp, ?_⟩
  simp only [countCommand_engine, countFilled_engine, prerolled_region, Engine.setBst_region]
  refine ⟨?_, fun j hj => hw.toInt_halves hj, hw.unchanged, ?_⟩
  · generalize (⟨pushTarget s.engine, ht⟩ : Fin 2) = k
    obtain rfl | rfl := fin2_cases k
    · simp [prerolled, countFilled, countCommand, hs, Engine.setBst]
    · simp [prerolled, countFilled, countCommand, hs, Engine.setBst]
  · generalize (⟨pushTarget s.engine, ht⟩ : Fin 2) = k
    obtain rfl | rfl := fin2_cases k
    · simp [prerolled, hs, Engine.setBst]
    · simp [prerolled, hs, Engine.setBst]

/-- Settles O37: the frame is published in buffer `WR_CNT mod NBUF`, then the pre-roll step. -/
theorem pushFillsTheNextBuffer : Obligations.PushFillsTheNextBuffer := by
  intro s hg hr hs hfill
  obtain ⟨-, hbuf, hnbuf, -, -⟩ := legal_nbuf hg.legal hs
  have hp := publishFrame_nbuf (e := s.engine) hs (by omega) ((length_copiedFrame s).trans hbuf.symm)
  have hw := publishFrame_writes hg.legal hg.engine (length_copiedFrame s) hp
  rw [pushDestination_nbuf hs] at hw
  refine ⟨_, ?_, fun j hj => hw.toInt_halves hj, hw.unchanged⟩
  rw [exec_push_admitted hg.legal hg.engine hr ((pushHeld_nbuf hs).2 hfill) hp]
  simp [prerolled, countFilled, countCommand, hs]

end Sys2Proof.Machine
end

section
/-! PROOFS. A tick of a good running block as one equation per shape, with the element it emits (41_dma.md R150 to R165). -/

namespace Sys2Proof.Machine

/-! ### The element a tick emits -/

/-- The ring's engine when its tick reads: silence inserted first where the fill was 0 (R152). -/
def ringFed (c : Config) (e : Engine) : Engine := if ringFill c e = 0 then insertSilence c e else e

theorem ringTicked_eq (c : Config) (e : Engine) :
    ringTicked c e = { ringFed c e with rdPos := wrapPos c ((ringFed c e).rdPos + 1) } := rfl

/-- What a tick of the running engine emits, by shape (R151, R155, R162). -/
def nextElement (c : Config) (e : Engine) : Pair :=
  match c.shape with
  | .ring => (ringFed c e).region.read (ringFed c e).rdPos
  | .pingpong => e.region.read (bufIndex c e.playing.val (e.bufDesc e.playing).addr)
  | .nbuf =>
    if e.curSilent then .silent else e.region.read (bufIndex c (e.rdCnt.toNat % c.nbuf) e.desc.addr)

theorem nextElement_ring {c : Config} (hs : c.shape = .ring) (e : Engine) :
    nextElement c e = (ringFed c e).region.read (ringFed c e).rdPos := by
  simp only [nextElement, hs]

theorem nextElement_pingpong {c : Config} (hs : c.shape = .pingpong) (e : Engine) :
    nextElement c e = e.region.read (bufIndex c e.playing.val (e.bufDesc e.playing).addr) := by
  simp only [nextElement, hs]

theorem nextElement_nbuf {c : Config} (hs : c.shape = .nbuf) (e : Engine) :
    nextElement c e =
      if e.curSilent then .silent else e.region.read (bufIndex c (e.rdCnt.toNat % c.nbuf) e.desc.addr) := by
  simp only [nextElement, hs]

theorem tickRing_emits {s t : State} (hs : s.cfg.shape = .ring) (h : tickRing s = .next t) :
    t.outStream = s.outStream ++ [nextElement s.cfg s.engine] := by
  obtain ⟨u, hu, -, rfl⟩ := tickRing_eq_next h
  have hfed : u.engine = ringFed s.cfg s.engine ∧ u.outStream = s.outStream := by
    rw [hu, ringFed]
    split <;> exact ⟨rfl, rfl⟩
  rw [nextElement_ring hs, emit_outStream, hfed.1, hfed.2]

theorem tickPingpong_emits {s t : State} (hs : s.cfg.shape = .pingpong) (h : tickPingpong s = .next t) :
    t.outStream = s.outStream ++ [nextElement s.cfg s.engine] := by
  rw [nextElement_pingpong hs]
  obtain ⟨moved, -, -, rfl, ⟨-, rfl⟩ | ⟨-, ht⟩⟩ := tickPingpong_eq_next h
  · rfl
  · rw [takeInterrupt_serviceBuffer ht]; rfl

theorem queueSample_eq_nextElement {c : Config} {e : Engine} {v : Pair} (hs : c.shape = .nbuf)
    (h : queueSample c e = some v) : v = nextElement c e := by
  rw [nextElement_nbuf hs]
  unfold queueSample at h
  split at h
  · next hsilent => rw [if_pos hsilent]; exact (Option.some.inj h).symm
  · next hdata => rw [if_neg hdata]; exact (readBuffer_eq_some h).2.2

theorem tickNbuf_emits {s t : State} (hs : s.cfg.shape = .nbuf) (h : tickNbuf s = .next t) :
    t.outStream = s.outStream ++ [nextElement s.cfg s.engine] := by
  obtain ⟨v, moved, hv, rfl, ⟨-, rfl⟩ | ⟨-, ht⟩⟩ := tickNbuf_eq_next h
  · rw [← queueSample_eq_nextElement hs hv]; rfl
  · rw [← queueSample_eq_nextElement hs hv]
    obtain ⟨-, rfl⟩ := takeInterrupt_eq_next ht
    rw [serviceQueue_eq]
    rfl

/-- The element that a ticked state emitted is read off its output stream. -/
theorem State.ticked_element {s : State} {e : Engine} {v w : Pair} {irq underrun : Bool}
    (h : (s.ticked e v irq underrun).outStream = s.outStream ++ [w]) : v = w := by
  simpa [State.ticked] using h

/-! ### One equation per shape -/

section
variable {s : State} (hl : Legal s.cfg) (h : EngineInv s.cfg s.engine) (hr : s.engine.running = true)
include hl h hr

theorem tick_ring (hs : s.cfg.shape = .ring) :
    tick s = .next (s.ticked (ringTicked s.cfg s.engine) (nextElement s.cfg s.engine) false
      (decide (ringFill s.cfg s.engine = 0))) := by
  obtain ⟨t, ht⟩ := tick_answers hl h hr
  rw [tick_enabled (tick_ready h hr), hs] at ht ⊢
  have hout := tickRing_emits hs ht
  obtain ⟨v, rfl⟩ := tickRing_ticked ht
  exact ht.trans (by rw [State.ticked_element hout])

theorem tick_pingpong_read (hs : s.cfg.shape = .pingpong)
    (hc : (s.engine.bufDesc s.engine.playing).advance.count ≠ 0) :
    tick s = .next (s.ticked (s.engine.setBufDesc s.engine.playing (s.engine.bufDesc s.engine.playing).advance)
      (nextElement s.cfg s.engine) false false) := by
  obtain ⟨t, ht⟩ := tick_answers hl h hr
  rw [tick_enabled (tick_ready h hr), hs] at ht ⊢
  have hout := tickPingpong_emits hs ht
  obtain ⟨v, ⟨-, rfl⟩ | ⟨hlast, -⟩⟩ := tickPingpong_ticked ht
  · exact ht.trans (by rw [State.ticked_element hout])
  · exact absurd hlast hc

theorem tick_pingpong_complete (hs : s.cfg.shape = .pingpong)
    (hc : (s.engine.bufDesc s.engine.playing).advance.count = 0) :
    tick s = .next (s.ticked (completedBuffer s.cfg s.engine.playing s.engine) (nextElement s.cfg s.engine) true
      (decide (s.engine.bst (otherBuffer s.engine.playing) ≠ .armed))) := by
  obtain ⟨t, ht⟩ := tick_answers hl h hr
  rw [tick_enabled (tick_ready h hr), hs] at ht ⊢
  have hout := tickPingpong_emits hs ht
  obtain ⟨v, ⟨hmore, -⟩ | ⟨-, rfl⟩⟩ := tickPingpong_ticked ht
  · exact absurd hc hmore
  · exact ht.trans (by rw [State.ticked_element hout])

theorem tick_nbuf_read (hs : s.cfg.shape = .nbuf) (hc : s.engine.desc.advance.count ≠ 0) :
    tick s = .next (s.ticked { s.engine with desc := s.engine.desc.advance } (nextElement s.cfg s.engine) false false) := by
  obtain ⟨t, ht⟩ := tick_answers hl h hr
  rw [tick_enabled (tick_ready h hr), hs] at ht ⊢
  have hout := tickNbuf_emits hs ht
  obtain ⟨v, ⟨-, rfl⟩ | ⟨hlast, -⟩⟩ := tickNbuf_ticked ht
  · exact ht.trans (by rw [State.ticked_element hout])
  · exact absurd hlast hc

theorem tick_nbuf_complete (hs : s.cfg.shape = .nbuf) (hc : s.engine.desc.advance.count = 0) :
    tick s = .next (s.ticked (completedQueue s.cfg s.engine) (nextElement s.cfg s.engine) true
      (decide (queueFill (retired s.cfg s.engine) = 0))) := by
  obtain ⟨t, ht⟩ := tick_answers hl h hr
  rw [tick_enabled (tick_ready h hr), hs] at ht ⊢
  have hout := tickNbuf_emits hs ht
  obtain ⟨v, ⟨hmore, -⟩ | ⟨-, rfl⟩⟩ := tickNbuf_ticked ht
  · exact absurd hc hmore
  · exact ht.trans (by rw [State.ticked_element hout])

end

/-- Settles O42: a tick of a good running state is a ticked state, which emits and counts one element; a tick that is not enabled
moves nothing. -/
theorem tickEmitsExactlyOne : Obligations.TickEmitsExactlyOne := by
  refine ⟨fun s hg _ hr => ?_, fun s hoff => tick_disabled ?_⟩
  · obtain ⟨e, v, irq, underrun, ht, -, -⟩ := tick_ran hg hr
    exact ⟨_, v, ht, rfl, toNat_satInc32 _⟩
  · exact Bool.eq_false_iff.2 (hoff ∘ (tickEnabled_iff s.engine).1)

/-! ### Ring -/

theorem rdPos_eq_wrPos_of_empty {c : Config} {e : Engine} (h : RingInv c e) (hf : ringFill c e = 0) :
    e.rdPos = e.wrPos := by
  have hw := h.wr_lt
  have hr := h.rd_lt
  rw [ringFill_eq hw hr] at hf
  split at hf
  · omega
  · omega

theorem writesFrame_insertSilence {c : Config} (hl : Legal c) (hs : c.shape = .ring) (e : Engine) :
    WritesFrame (fun j => wrapPos c (e.wrPos + j)) (silence c.n) e.region (insertSilence c e).region := by
  have hroom := legal_ring_frame hl hs
  exact writesFrame_writeRing e.region e.wrPos (legal_ringSize_pos hl hs) (by rw [length_silence]; omega)

/-- Where silence was written stands silence. -/
theorem WritesFrame.silent {dest : Nat → Nat} {n : Nat} {m m' : Memory Pair} (h : WritesFrame dest (silence n) m m') (j : Nat)
    (hj : j < n) : m'.read (dest j) = .silent := by
  rw [h.landed j (by rwa [length_silence]), getD_silence]

/-- A ring that is empty plays the first element of the silence inserted. -/
theorem nextElement_ring_empty {c : Config} {e : Engine} (hl : Legal c) (hs : c.shape = .ring) (h : RingInv c e)
    (hf : ringFill c e = 0) : nextElement c e = .silent := by
  have hfirst := (writesFrame_insertSilence hl hs e).silent 0 (legal_n_pos hl)
  rw [nextElement_ring hs, ringFed, if_pos hf]
  have hpos : (insertSilence c e).rdPos = wrapPos c (e.wrPos + 0) := by
    rw [Nat.add_zero, wrapPos_of_lt h.wr_lt]; exact rdPos_eq_wrPos_of_empty h hf
  rw [hpos]
  exact hfirst

/-- Settles O43: the ring's tick in its two cases, the frame of silence written as a pushed frame is. -/
theorem ringTick : Obligations.RingTick := by
  intro s hg hs hr
  have ht := tick_ring hg.legal hg.engine hr hs
  refine ⟨fun hf => ?_, fun hf => ?_⟩
  · rw [ht, nextElement_ring hs, ringTicked_eq, ringFed, if_neg hf]
    simp [State.ticked, Stats.ticked, hf]
  · have hw := writesFrame_insertSilence hg.legal hs s.engine
    refine ⟨_, ?_, hw.silent, fun i hi => hw.elsewhere i (by simpa using hi)⟩
    rw [ht, nextElement_ring_empty hg.legal hs (hg.engine.ring hs) hf, ringTicked_eq, ringFed, if_pos hf]
    simp [State.ticked, Stats.ticked, hf, insertSilence, Pair.silent]

/-! ### Ping-pong -/

/-- The ping-pong engine after a completion, register by register (R158, R159). -/
theorem completedBuffer_eq {c : Config} {e : Engine} (h : EngineInv c e) (hs : c.shape = .pingpong) :
    completedBuffer c e.playing e =
      { e with
        region := (completedBuffer c e.playing e).region
        playing := otherBuffer e.playing
        bst0 := if otherBuffer e.playing = 0 then .playing else .refilling
        bst1 := if otherBuffer e.playing = 1 then .playing else .refilling
        desc0 := .armed c
        desc1 := .armed c } := by
  have hpend0 := h.irqPend0
  have hpend1 := h.irqPend1
  have hother := (h.pingpong hs).otherDesc
  generalize e.playing = p at hother ⊢
  unfold completedBuffer servicedBuffer
  obtain rfl | rfl := fin2_cases p
  · have hdesc1 : e.desc1 = .armed c := hother
    split
    · simp [Engine.setBst, Engine.setBufDesc, Engine.setIrqPend, hpend0, hdesc1]
    · simp [silenceBuffer, Engine.setBst, Engine.setBufDesc, Engine.setIrqPend, hpend0, hdesc1]
  · have hdesc0 : e.desc0 = .armed c := hother
    split
    · simp [Engine.setBst, Engine.setBufDesc, Engine.setIrqPend, hpend1, hdesc0]
    · simp [silenceBuffer, Engine.setBst, Engine.setBufDesc, Engine.setIrqPend, hpend1, hdesc0]

theorem completedBuffer_region (c : Config) (p : Fin 2) (e : Engine) :
    (completedBuffer c p e).region =
      if e.bst (otherBuffer p) = .armed then e.region
      else e.region.writeBlock (bufIndex c (otherBuffer p).val 0) (silence c.bufLen) := by
  simp only [completedBuffer, Engine.setIrqPend_region, servicedBuffer_region, Engine.setBufDesc_region, bst_setIrqPend,
    bst_setBufDesc]

/-- `REGION` after a completion: the buffer that plays next is zeroed where it was not `Armed` (R159). -/
theorem read_completedBuffer (c : Config) (p : Fin 2) (e : Engine) (i : Nat) :
    (completedBuffer c p e).region.read i =
      if e.bst (otherBuffer p) ≠ .armed ∧ (otherBuffer p).val * c.bufLen ≤ i ∧ i < ((otherBuffer p).val + 1) * c.bufLen
      then .silent else e.region.read i := by
  rw [completedBuffer_region]
  by_cases ha : e.bst (otherBuffer p) = .armed
  · rw [if_pos ha, if_neg (by simp [ha])]
  · rw [if_neg ha, Memory.read_writeBlock, default_pair, getD_silence, length_silence, Nat.succ_mul]
    simp [ha, bufIndex]

theorem DescInv.advance_count {c : Config} {d : Desc} (h : DescInv c d) : d.advance.count = 0 ↔ d.count = 1 := by
  have hleft := h.left
  simp only [Desc.advance]
  omega

/-- Settles O44: the ping-pong tick before the last element, and at it. -/
theorem pingpongTick : Obligations.PingpongTick := by
  rintro s p d hg hs hr rfl rfl
  have hlast := (hg.engine.pingpong hs).desc.advance_count
  refine ⟨fun hc => ?_, fun hc => ?_⟩
  · rw [tick_pingpong_read hg.legal hg.engine hr hs (hc ∘ hlast.1), nextElement_pingpong hs]
    simp [State.ticked, Stats.ticked, bufIndex, Desc.advance]
  · refine ⟨otherBuffer s.engine.playing, _, otherBuffer_val _, ?_, read_completedBuffer s.cfg s.engine.playing s.engine⟩
    rw [tick_pingpong_complete hg.legal hg.engine hr hs (hlast.2 hc), nextElement_pingpong hs]
    conv_lhs => rw [completedBuffer_eq hg.engine hs]
    simp [State.ticked, Stats.ticked, bufIndex, Desc.armed]

/-! ### N-buffer -/

/-- The queue is empty once the counts meet. -/
theorem queueFill_eq_zero_iff (e : Engine) : queueFill e = 0 ↔ e.wrCnt = e.rdCnt := by
  rw [queueFill, ← BitVec.toNat_zero (w := 32), ← BitVec.toNat_eq, BitVec.sub_eq_iff_eq_add, BitVec.zero_add]

/-- Settles O45: the N-buffer tick before the last element, and at it. -/
theorem queueTick : Obligations.QueueTick := by
  rintro s v rd hg hs hr rfl rfl
  have hlast := (hg.engine.nbuf hs).desc.advance_count
  have hpend := hg.engine.irqPend0
  refine ⟨fun hc => ?_, fun hc => ?_⟩
  · rw [tick_nbuf_read hg.legal hg.engine hr hs (hc ∘ hlast.1), nextElement_nbuf hs]
    simp [State.ticked, Stats.ticked, bufIndex, Desc.advance, Pair.silent]
  · rw [tick_nbuf_complete hg.legal hg.engine hr hs (hlast.2 hc), nextElement_nbuf hs]
    simp [State.ticked, Stats.ticked, bufIndex, completedQueue, retired, queueFill_eq_zero_iff, hpend.symm, Desc.armed,
      Pair.silent]

end Sys2Proof.Machine
end

section
/-! PROOFS. What is pending, as PUSH appends to it and a tick plays it (41_dma.md R153, R161, R166), and the elements that a PUSH
leaves alone since they are unread (R172). -/

namespace Sys2Proof.Machine

/-! ### Places in the region -/

/-- Two offsets below `n` from one start meet modulo `n` only where they are the same. -/
theorem offset_eq_of_mod_eq {n a d f : Nat} (hd : d < n) (hf : f < n) (h : (a + d) % n = (a + f) % n) : d = f :=
  Nat.ModEq.eq_of_lt_of_lt (Nat.ModEq.add_left_cancel' a h) hd hf

/-- The write position is the fill ahead of the read position (R135). -/
theorem RingInv.wrPos_eq {c : Config} {e : Engine} (h : RingInv c e) : e.wrPos = wrapPos c (e.rdPos + ringFill c e) := by
  have hw := h.wr_lt
  have hr := h.rd_lt
  rw [ringFill_eq hw hr]
  split
  · rw [wrapPos_of_lt (by omega)]; omega
  · rw [wrapPos_of_le (by omega) (by omega)]; omega

/-- So what is written at the write position follows the unread elements. -/
theorem RingInv.wrapPos_wrPos_add {c : Config} {e : Engine} (h : RingInv c e) (j : Nat) :
    wrapPos c (e.wrPos + j) = wrapPos c (e.rdPos + (ringFill c e + j)) := by
  rw [h.wrPos_eq, wrapPos_add_wrapPos, Nat.add_assoc]

/-- The buffer in place `d` of the queue, the one that plays in place 0 (R163). -/
def queueSlot (c : Config) (e : Engine) (d : Nat) : Nat := (e.rdCnt + BitVec.ofNat 32 d).toNat % c.nbuf

theorem legal_nbuf_dvd {c : Config} (hl : Legal c) (hs : c.shape = .nbuf) : c.nbuf ∣ 2 ^ 32 := by
  obtain ⟨⟨k, hk⟩, -, -, hlt, -⟩ := legal_nbuf hl hs
  rw [hk] at hlt ⊢
  exact pow_dvd_pow 2 ((Nat.pow_lt_pow_iff_right (a := 2) (by omega) (m := 32)).1 hlt).le

/-- The counts wrap at `2^32`, which the number of buffers divides, so the buffers are taken in turn. -/
theorem queueSlot_eq {c : Config} (hl : Legal c) (hs : c.shape = .nbuf) (e : Engine) (d : Nat) :
    queueSlot c e d = (e.rdCnt.toNat + d) % c.nbuf := by
  rw [queueSlot, BitVec.toNat_add, BitVec.toNat_ofNat, Nat.add_mod_mod, Nat.mod_mod_of_dvd _ (legal_nbuf_dvd hl hs)]

theorem queueSlot_zero (c : Config) (e : Engine) : queueSlot c e 0 = e.rdCnt.toNat % c.nbuf := by
  simp [queueSlot]

/-- The buffer that PUSH fills follows the last one queued (R139). -/
theorem queueSlot_queueFill (c : Config) (e : Engine) : queueSlot c e (queueFill e) = e.wrCnt.toNat % c.nbuf := by
  have hsum : e.rdCnt + (e.wrCnt - e.rdCnt) = e.wrCnt := by ring
  rw [queueSlot, queueFill, BitVec.ofNat_toNat, BitVec.setWidth_eq, hsum]

/-- Two places of the queue within `NBUF` of each other are different buffers. -/
theorem queueSlot_inj {c : Config} {e : Engine} (hl : Legal c) (hs : c.shape = .nbuf) {d f : Nat} (hd : d < c.nbuf)
    (hf : f < c.nbuf) (h : queueSlot c e d = queueSlot c e f) : d = f := by
  rw [queueSlot_eq hl hs, queueSlot_eq hl hs] at h
  exact offset_eq_of_mod_eq hd hf h

/-! ### Unread elements (R172) -/

/-- The ping-pong buffer that an admitted PUSH fills is neither `Playing` nor `Armed` (R137, R138). -/
theorem EngineInv.pushTarget_free {c : Config} {e : Engine} (h : EngineInv c e) (hs : c.shape = .pingpong)
    (hheld : pushHeld c e = false) {k : Fin 2} (hk : k.val = pushTarget e) :
    e.bst k ≠ .playing ∧ e.bst k ≠ .armed := by
  have hi := h.pingpong hs
  cases hr : e.running with
  | true =>
    obtain rfl : k = otherBuffer e.playing := Fin.ext (hk.trans (pushTarget_running hr))
    refine ⟨hi.other hr, fun ha => ?_⟩
    rw [(pushHeld_pingpong_iff hs).2 ⟨hr, ha⟩] at hheld
    cases hheld
  | false =>
    obtain ⟨-, -, hbst0, hbst1⟩ := hi.stopped hr
    rw [pushTarget_stopped hr] at hk
    obtain rfl | rfl := fin2_cases k
    · have hidle : e.bst 0 = .idle := hbst0.trans (if_neg (by rw [← hk]; decide))
      rw [hidle]; decide
    · have hidle : e.bst 1 = .idle := hbst1
      rw [hidle]; decide

/-- No destination of an admitted PUSH is an element that is yet to be read. -/
theorem pushDestination_not_unread {c : Config} {e : Engine} (hl : Legal c) (h : EngineInv c e)
    (hheld : pushHeld c e = false) {j : Nat} (hj : j < c.n) : ¬ unread c e (pushDestination c e j) := by
  cases hs : c.shape with
  | ring =>
    simp only [unread, pushDestination, hs]
    rintro ⟨d, hd, heq⟩
    have hroom := (pushHeld_ring hs).1 hheld
    obtain ⟨-, hhead, hlt, -⟩ := legal_ring hl hs
    rw [(h.ring hs).wrapPos_wrPos_add] at heq
    have := offset_eq_of_mod_eq (by omega) (by omega) heq
    omega
  | pingpong =>
    simp only [unread, pushDestination, hs]
    rintro ⟨k, j', hj', heq, hbst⟩
    have hbuf := (legal_pingpong hl hs).1
    obtain ⟨hplaying, harmed⟩ :=
      h.pushTarget_free hs hheld (bufIndex_inj (by omega) hj' heq).1.symm
    exact hbst.elim hplaying harmed
  | nbuf =>
    simp only [unread, pushDestination, hs]
    rintro ⟨d, j', hd, hj', heq⟩
    obtain ⟨-, hbuf, -, -, -⟩ := legal_nbuf hl hs
    have hroom := (pushHeld_nbuf hs).1 hheld
    have hle := (h.nbuf hs).fill_le
    have hslot : queueSlot c e (queueFill e) = queueSlot c e d := by
      rw [queueSlot_queueFill]; exact (bufIndex_inj (by omega) hj' heq).1
    have := queueSlot_inj hl hs (by omega) (by omega) hslot
    omega

/-- Settles O39: the destinations are not unread, and nothing else is written. -/
theorem pushNeverWritesUnreadElements : Obligations.PushNeverWritesUnreadElements := by
  intro s hg hr hheld
  have hroom := pushHeld_of_not_heldIn hr hheld
  have hfree {j : Nat} (hj : j < s.cfg.n) := pushDestination_not_unread hg.legal hg.engine hroom hj
  refine ⟨fun j => hfree, fun t ht i hi => ?_⟩
  obtain ⟨e, he⟩ := publishFrame_answers hg.legal hg.engine (length_copiedFrame s)
  rw [exec_push_admitted hg.legal hg.engine hr hroom he] at ht
  obtain rfl := Host.Outcome.next.inj ht
  have hw := publishFrame_writes hg.legal hg.engine (length_copiedFrame s) he
  exact hw.unchanged i fun j hj hij => hfree hj (hij ▸ hi)

/-! ### Blocks of the region -/

/-- The frame is read back from its destinations. -/
theorem WritesFrame.map_landed {dest : Nat → Nat} {frame : List Pair} {m m' : Memory Pair}
    (h : WritesFrame dest frame m m') : ((List.range frame.length).map fun j => m'.read (dest j)) = frame := by
  refine List.ext_getElem (by simp) fun j hj hj' => ?_
  rw [List.getElem_map, List.getElem_range, h.landed j hj', List.getD_eq_getElem _ _ hj']

/-- A buffer that was written reads as the frame. -/
theorem WritesFrame.readBlock_landed {c : Config} {k : Nat} {frame : List Pair} {m m' : Memory Pair}
    (h : WritesFrame (bufIndex c k) frame m m') : m'.readBlock (bufIndex c k 0) frame.length = frame :=
  h.map_landed

/-- Part of a buffer that was not written reads as before. -/
theorem WritesFrame.readBlock_elsewhere {c : Config} {k k' : Nat} {frame : List Pair} {m m' : Memory Pair}
    (h : WritesFrame (bufIndex c k) frame m m') (hlen : frame.length ≤ c.bufLen) (hk : k' ≠ k) {a n : Nat}
    (ha : a + n ≤ c.bufLen) : m'.readBlock (bufIndex c k' a) n = m.readBlock (bufIndex c k' a) n := by
  refine List.map_congr_left fun d hd => h.elsewhere _ fun j hj heq => hk ?_
  have hd := List.mem_range.1 hd
  have hindex : bufIndex c k' (a + d) = bufIndex c k j := (Nat.add_assoc _ _ _).symm.trans heq
  exact (bufIndex_inj ((Nat.add_lt_add_left hd a).trans_le ha) (hj.trans_le hlen) hindex).1

theorem Memory.readBlock_succ (m : Memory Pair) (i n : Nat) : m.readBlock i (n + 1) = m.read i :: m.readBlock (i + 1) n := by
  simp only [Memory.readBlock, List.range_succ_eq_map, List.map_cons, List.map_map, Nat.add_zero]
  refine congrArg _ (List.map_congr_left fun d _ => ?_)
  simp only [Function.comp_apply]
  congr 1
  omega

theorem Memory.drop_readBlock (m : Memory Pair) (i a n : Nat) :
    (m.readBlock i n).drop a = m.readBlock (i + a) (n - a) := by
  refine List.ext_getElem (by simp) fun j hj hj' => ?_
  rw [List.getElem_drop, Memory.getElem_readBlock, Memory.getElem_readBlock, Nat.add_assoc]

theorem silence_succ (n : Nat) : silence (n + 1) = .silent :: silence n := rfl

/-! ### Pending in the ring -/

theorem pending_ring {c : Config} (hs : c.shape = .ring) (e : Engine) :
    pending c e = (List.range (ringFill c e)).map fun d => e.region.read (wrapPos c (e.rdPos + d)) := by
  simp only [pending, hs]

/-- A frame written at the write position of a ring with room for it joins the end of what is pending, whether PUSH or an
underrun wrote it. -/
theorem pending_append_ring {c : Config} {e : Engine} {frame : List Pair} {m : Memory Pair} (hl : Legal c)
    (hs : c.shape = .ring) (h : RingInv c e) (hlen : frame.length = c.n)
    (hroom : ringFill c e + c.n ≤ c.ringSize - c.minHeadroom)
    (hw : WritesFrame (fun j => wrapPos c (e.wrPos + j)) frame e.region m) :
    pending c { e with region := m, wrPos := wrapPos c (e.wrPos + c.n) } = pending c e ++ frame := by
  have hn := legal_n_pos hl
  obtain ⟨-, hhead, hlt, -⟩ := legal_ring hl hs
  rw [pending_ring hs, pending_ring hs, ringFill_append h.wr_lt h.rd_lt (by omega), List.range_add, List.map_append,
    List.map_map]
  congr 1
  · refine List.map_congr_left fun d hd => hw.elsewhere _ fun j hj heq => ?_
    have hd := List.mem_range.1 hd
    have := offset_eq_of_mod_eq (by omega) (by omega) (heq.trans (h.wrapPos_wrPos_add j))
    omega
  · conv_rhs => rw [← hw.map_landed, hlen]
    refine List.map_congr_left fun j _ => ?_
    simp only [Function.comp_apply, h.wrapPos_wrPos_add]

/-- Reading an element of the ring takes the head of what is pending. -/
theorem pending_read_ring {c : Config} {e : Engine} (hs : c.shape = .ring) (h : RingInv c e) (hf : ringFill c e ≠ 0) :
    pending c e = e.region.read e.rdPos :: pending c { e with rdPos := wrapPos c (e.rdPos + 1) } := by
  obtain ⟨fill, hfill⟩ := Nat.exists_eq_succ_of_ne_zero hf
  have hread := ringFill_read h.wr_lt h.rd_lt hf
  rw [pending_ring hs, pending_ring hs, hread, hfill, Nat.succ_sub_one, List.range_succ_eq_map, List.map_cons,
    List.map_map, Nat.add_zero, wrapPos_of_lt h.rd_lt]
  refine congrArg _ (List.map_congr_left fun d _ => ?_)
  simp only [Function.comp_apply, wrapPos_add_wrapPos, Nat.succ_eq_add_one]
  congr 2
  omega

/-! ### Pending in the ping-pong shape -/

/-- What is pending of the buffer that plays, or waits to play first. -/
def playingPart (c : Config) (e : Engine) : List Pair :=
  if e.bst e.playing = .playing ∨ e.bst e.playing = .armed then
    e.region.readBlock (bufIndex c e.playing.val (e.bufDesc e.playing).addr) (e.bufDesc e.playing).count
  else []

/-- What is pending of the other buffer. -/
def waitingPart (c : Config) (e : Engine) : List Pair :=
  if e.bst (otherBuffer e.playing) = .armed then
    e.region.readBlock (bufIndex c (otherBuffer e.playing).val 0) c.bufLen
  else []

theorem pending_pingpong {c : Config} (hs : c.shape = .pingpong) (e : Engine) :
    pending c e = playingPart c e ++ waitingPart c e := by
  simp only [pending, hs, playingPart, waitingPart]

/-- A frame written to the free buffer and armed joins the end of what is pending. -/
theorem pending_fill_pingpong {c : Config} {e : Engine} {frame : List Pair} {m : Memory Pair} {k : Fin 2} (hl : Legal c)
    (hs : c.shape = .pingpong) (h : EngineInv c e) (hlen : frame.length = c.n) (hheld : pushHeld c e = false)
    (hk : k.val = pushTarget e) (hw : WritesFrame (bufIndex c k.val) frame e.region m) :
    pending c (({ e with region := m } : Engine).setBst k .armed) = pending c e ++ frame := by
  have hi := h.pingpong hs
  have hbuf := (legal_pingpong hl hs).1
  have hlanded : m.readBlock (bufIndex c k.val 0) c.bufLen = frame := by
    have := hw.readBlock_landed
    rwa [hlen, ← hbuf] at this
  obtain ⟨hplaying, harmed⟩ := h.pushTarget_free hs hheld hk
  have hbst (j : Fin 2) :
      (({ e with region := m } : Engine).setBst k .armed).bst j = if j = k then .armed else e.bst j := bst_setBst _ _ _ _
  have hdesc (j : Fin 2) : (({ e with region := m } : Engine).setBst k .armed).bufDesc j = e.bufDesc j :=
    bufDesc_setBst _ _ _ _
  rw [pending_pingpong hs, pending_pingpong hs]
  simp only [playingPart, waitingPart, Engine.setBst_playing, Engine.setBst_region, hbst, hdesc]
  obtain rfl | rfl := eq_or_eq_otherBuffer k e.playing
  · cases hr : e.running with
    | true => exact absurd (hi.plays hr) hplaying
    | false =>
      obtain ⟨hzero, hdesc0, -, hbst1⟩ := hi.stopped hr
      have hfirst : e.bufDesc e.playing = .armed c := by rw [hzero]; exact hdesc0
      have hidle : e.bst (otherBuffer e.playing) = .idle := by rw [hzero]; exact hbst1
      simp [hfirst, hidle, hplaying, harmed, otherBuffer_ne, Desc.armed, hlanded]
  · have hother : (e.playing.val : Nat) ≠ (otherBuffer e.playing).val :=
      fun heq => otherBuffer_ne e.playing (Fin.ext heq).symm
    have hsame := hw.readBlock_elsewhere (by omega) hother (a := (e.bufDesc e.playing).addr)
      (n := (e.bufDesc e.playing).count) hi.desc.total.le
    rw [if_neg (otherBuffer_ne e.playing).symm, hsame, if_pos rfl, if_pos rfl, hlanded, if_neg harmed, List.append_nil]

/-! ### Pending in the N-buffer shape -/

/-- The contents of the queued buffers in their order. -/
def queued (c : Config) (e : Engine) : List Pair :=
  (List.range (queueFill e)).flatMap fun d => e.region.readBlock (bufIndex c (queueSlot c e d) 0) c.bufLen

theorem pending_nbuf {c : Config} (hs : c.shape = .nbuf) (e : Engine) :
    pending c e = if e.curSilent then silence e.desc.count ++ queued c e else (queued c e).drop e.desc.addr := by
  simp only [pending, hs]
  rfl

@[simp] theorem length_queued (c : Config) (e : Engine) : (queued c e).length = queueFill e * c.bufLen := by
  simp [queued, List.length_flatMap]

/-- A buffer that plays data has its elements in the queue. -/
theorem QueueInv.addr_le_length_queued {c : Config} {e : Engine} (h : QueueInv c e) (hdata : e.curSilent = false) :
    e.desc.addr ≤ (queued c e).length := by
  rw [length_queued]
  cases hr : e.running with
  | false =>
    obtain ⟨-, -, -, hdesc⟩ := h.stopped hr
    rw [hdesc]
    exact Nat.zero_le _
  | true =>
    have htotal := h.desc.total
    have hone := Nat.mul_le_mul_right c.bufLen (h.filled hr hdata)
    omega

/-- One buffer more is queued where the queue had room. -/
theorem QueueInv.queueFill_append {c : Config} {e : Engine} (hl : Legal c) (hs : c.shape = .nbuf) (h : QueueInv c e)
    (hroom : queueFill e ≠ c.nbuf) (m : Memory Pair) :
    queueFill { e with region := m, wrCnt := e.wrCnt + 1 } = queueFill e + 1 := by
  have hlt := (legal_nbuf hl hs).2.2.2.1
  have hle := h.fill_le
  unfold queueFill at *
  have hcomm : e.wrCnt + 1 - e.rdCnt = (e.wrCnt - e.rdCnt) + 1 := by ring
  rw [hcomm, toNat_succ (by omega)]

/-- A frame written behind the last queued buffer joins the end of the queue. -/
theorem queued_append {c : Config} {e : Engine} {frame : List Pair} {m : Memory Pair} (hl : Legal c) (hs : c.shape = .nbuf)
    (h : QueueInv c e) (hlen : frame.length = c.n) (hroom : queueFill e ≠ c.nbuf)
    (hw : WritesFrame (bufIndex c (e.wrCnt.toNat % c.nbuf)) frame e.region m) :
    queued c { e with region := m, wrCnt := e.wrCnt + 1 } = queued c e ++ frame := by
  have hbuf := (legal_nbuf hl hs).2.1
  have hle := h.fill_le
  rw [← queueSlot_queueFill] at hw
  have hlanded := hw.readBlock_landed
  rw [hlen, ← hbuf] at hlanded
  rw [queued, h.queueFill_append hl hs hroom, List.range_succ, List.flatMap_append, List.flatMap_singleton]
  refine congrArg₂ _ (List.flatMap_congr fun d hd => ?_) hlanded
  have hd := List.mem_range.1 hd
  refine hw.readBlock_elsewhere (by omega) (fun heq => ?_) (by omega)
  have := queueSlot_inj hl hs (by omega) (by omega) heq
  omega

theorem pending_append_nbuf {c : Config} {e : Engine} {frame : List Pair} {m : Memory Pair} (hl : Legal c)
    (hs : c.shape = .nbuf) (h : QueueInv c e) (hlen : frame.length = c.n) (hroom : queueFill e ≠ c.nbuf)
    (hw : WritesFrame (bufIndex c (e.wrCnt.toNat % c.nbuf)) frame e.region m) :
    pending c { e with region := m, wrCnt := e.wrCnt + 1 } = pending c e ++ frame := by
  rw [pending_nbuf hs, pending_nbuf hs, queued_append hl hs h hlen hroom hw]
  split
  · rw [List.append_assoc]
  · next hdata =>
    exact List.drop_append_of_le_length (h.addr_le_length_queued (Bool.eq_false_iff.2 hdata))

/-! ### PUSH appends -/

/-- The pre-roll step changes nothing of what is pending: the buffer that starts to play was `Armed`. -/
theorem pending_prerolled {c : Config} {e : Engine}
    (h : c.shape = .pingpong → e.running = false → e.playing = 0 ∧ e.bst0 = .armed) :
    pending c (prerolled c e) = pending c e := by
  cases hs : c.shape with
  | ring => rw [pending_ring hs, pending_ring hs]; rfl
  | pingpong =>
    cases hr : e.running with
    | true => rw [prerolled_running hr fun hne => absurd hs hne]
    | false =>
      obtain ⟨hzero, harmed⟩ := h hs hr
      rw [pending_pingpong hs, pending_pingpong hs]
      by_cases hp : c.preroll ≤ e.pushCnt.toNat + 1
      · simp [playingPart, waitingPart, prerolled, Engine.bst, Engine.bufDesc, hs, hr, hp, hzero, harmed]
      · simp [playingPart, waitingPart, prerolled, Engine.bst, Engine.bufDesc, hs, hr, hp, hzero, harmed]
  | nbuf => rw [pending_nbuf hs, pending_nbuf hs]; rfl

/-- Before the start buffer 0 is `Armed` once a PUSH has filled its target. -/
theorem PingpongInv.first_armed {c : Config} {e : Engine} (h : PingpongInv c e) (hr : e.running = false) {k : Fin 2}
    (hk : k.val = pushTarget e) (m : Memory Pair) :
    (({ e with region := m } : Engine).setBst k .armed).bst0 = .armed := by
  obtain ⟨-, -, hbst0, -⟩ := h.stopped hr
  rw [pushTarget_stopped hr] at hk
  obtain rfl | rfl := fin2_cases k
  · rfl
  · exact hbst0.trans (if_pos hk.le)

/-- An admitted PUSH appends the published frame to what is pending, in every shape. -/
theorem pending_push {c : Config} {e e' : Engine} {frame : List Pair} (hl : Legal c) (h : EngineInv c e)
    (hheld : pushHeld c e = false) (hlen : frame.length = c.n) (hp : publishFrame c frame e = some e') :
    pending c (prerolled c e') = pending c e ++ frame := by
  have hw := publishFrame_writes hl h hlen hp
  cases hs : c.shape with
  | ring =>
    rw [pending_prerolled (by simp [hs])]
    rw [publishFrame_ring hs, Option.some.injEq] at hp
    subst hp
    rw [pushDestination_ring hs] at hw
    exact pending_append_ring hl hs (h.ring hs) hlen ((pushHeld_ring hs).1 hheld) hw
  | pingpong =>
    have ht := h.pushTarget_lt hl hs
    rw [publishFrame_pingpong hs ht (hlen.trans (legal_pingpong hl hs).1.symm), Option.some.injEq] at hp
    subst hp
    rw [pending_prerolled fun _ hr => ?_]
    · rw [pushDestination_pingpong hs, Engine.setBst_region] at hw
      exact pending_fill_pingpong (k := ⟨pushTarget e, ht⟩) hl hs h hlen hheld rfl hw
    · have hr : e.running = false := by simpa using hr
      refine ⟨?_, (h.pingpong hs).first_armed hr rfl _⟩
      rw [Engine.setBst_playing]
      exact ((h.pingpong hs).stopped hr).1
  | nbuf =>
    obtain ⟨-, hbuf, hnbuf, -, -⟩ := legal_nbuf hl hs
    rw [pending_prerolled (by simp [hs])]
    rw [publishFrame_nbuf hs (by omega) (hlen.trans hbuf.symm), Option.some.injEq] at hp
    subst hp
    rw [pushDestination_nbuf hs] at hw
    exact pending_append_nbuf hl hs (h.nbuf hs) hlen ((pushHeld_nbuf hs).1 hheld) hw

/-- Settles O41: the published frame joins what is pending, and the counts leave it. -/
theorem pushAppendsTheFrame : Obligations.PushAppendsTheFrame := by
  intro s hg hr hheld
  have hroom := pushHeld_of_not_heldIn hr hheld
  obtain ⟨e, he⟩ := publishFrame_answers hg.legal hg.engine (length_copiedFrame s)
  exact ⟨_, exec_push_admitted hg.legal hg.engine hr hroom he,
    pending_push hg.legal hg.engine hroom (length_copiedFrame s) he⟩

/-! ### A tick plays -/

/-- How a tick in a shape with buffers leaves what is pending: the rest, or, where nothing is left, one buffer of silence with
one underrun (R159, R164). -/
def RestOrSilence (c : Config) (rest after : List Pair) (underrun : Bool) : Prop :=
  (rest ≠ [] ∧ after = rest ∧ underrun = false) ∨ (rest = [] ∧ after = silence c.n ∧ underrun = true)

/-- The ring's tick reads the head of what is pending once the ring is fed. -/
theorem pending_ringFed {c : Config} {e : Engine} (hl : Legal c) (hs : c.shape = .ring) (h : EngineInv c e)
    (hr : e.running = true) : pending c (ringFed c e) = nextElement c e :: pending c (ringTicked c e) := by
  have hi := h.ring hs
  have hn := legal_n_pos hl
  have hfed : RingInv c (ringFed c e) ∧ ringFill c (ringFed c e) ≠ 0 := by
    unfold ringFed
    split
    · next hf =>
      obtain ⟨hi', hfill⟩ := hi.insertSilence hl hs hr hf
      exact ⟨hi', by omega⟩
    · next hf => exact ⟨hi, hf⟩
  rw [nextElement_ring hs, ringTicked_eq]
  exact pending_read_ring hs hfed.1 hfed.2

theorem pending_ring_empty {c : Config} {e : Engine} (hs : c.shape = .ring) (hf : ringFill c e = 0) :
    pending c e = [] := by
  rw [pending_ring hs, hf]; rfl

/-- The frame of silence that an underrun inserts is all that is pending then. -/
theorem pending_insertSilence {c : Config} {e : Engine} (hl : Legal c) (hs : c.shape = .ring) (h : RingInv c e)
    (hf : ringFill c e = 0) : pending c (insertSilence c e) = silence c.n := by
  have hroom := legal_ring_frame hl hs
  have happend := pending_append_ring hl hs h (length_silence c.n) (by omega) (writesFrame_insertSilence hl hs e)
  rw [pending_ring_empty hs hf, List.nil_append] at happend
  exact happend

/-- In the ping-pong shape a running engine has the rest of the playing buffer pending, then the other buffer. -/
theorem pending_pingpong_running {c : Config} {e : Engine} (hs : c.shape = .pingpong)
    (hplays : e.bst e.playing = .playing) :
    pending c e =
      e.region.readBlock (bufIndex c e.playing.val (e.bufDesc e.playing).addr) (e.bufDesc e.playing).count ++
        waitingPart c e := by
  rw [pending_pingpong hs, playingPart, if_pos (.inl hplays)]

theorem DescInv.count_eq {c : Config} {d : Desc} (h : DescInv c d) : d.count = d.advance.count + 1 := by
  have hleft := h.left
  simp only [Desc.advance]
  omega

/-- The element that plays is the head of the rest of its buffer. -/
theorem readBlock_advance {c : Config} {d : Desc} (h : DescInv c d) (m : Memory Pair) (k : Nat) :
    m.readBlock (bufIndex c k d.addr) d.count =
      m.read (bufIndex c k d.addr) :: m.readBlock (bufIndex c k d.advance.addr) d.advance.count := by
  rw [h.count_eq, Memory.readBlock_succ]
  rfl

/-- The buffer that plays next after a completion: its fresh data, or silence. -/
theorem pending_completedBuffer {c : Config} {e : Engine} (hl : Legal c) (hs : c.shape = .pingpong) (h : EngineInv c e) :
    RestOrSilence c (waitingPart c e) (pending c (completedBuffer c e.playing e))
      (decide (e.bst (otherBuffer e.playing) ≠ .armed)) := by
  have hbuf := (legal_pingpong hl hs).1
  have hn := legal_n_pos hl
  have hnext : pending c (completedBuffer c e.playing e) =
      (completedBuffer c e.playing e).region.readBlock (bufIndex c (otherBuffer e.playing).val 0) c.bufLen := by
    rw [pending_pingpong_running hs (by rw [completedBuffer_playing, completedBuffer_bst, if_pos rfl]), waitingPart,
      completedBuffer_playing, otherBuffer_otherBuffer, completedBuffer_bst, if_neg (otherBuffer_ne _).symm,
      if_neg (by decide), List.append_nil, completedBuffer_bufDesc, if_neg (otherBuffer_ne _),
      (h.pingpong hs).otherDesc]
    rfl
  rw [hnext, completedBuffer_region, waitingPart]
  by_cases ha : e.bst (otherBuffer e.playing) = .armed
  · rw [if_pos ha, if_pos ha]
    refine .inl ⟨?_, rfl, by simp [ha]⟩
    rw [← List.length_pos_iff, Memory.length_readBlock]
    omega
  · rw [if_neg ha, if_neg ha]
    have hsilent := (writesFrame_writeBuffer c e.region (otherBuffer e.playing).val (silence c.bufLen)).readBlock_landed
    rw [length_silence] at hsilent
    exact .inr ⟨rfl, by rw [hsilent, hbuf], by simp [ha]⟩

/-- The ping-pong tick plays the head of what is pending. -/
theorem tick_plays_pingpong {s : State} (hg : GoodState s) (hs : s.cfg.shape = .pingpong) (hr : s.engine.running = true) :
    ∃ e irq underrun rest, tick s = .next (s.ticked e (nextElement s.cfg s.engine) irq underrun) ∧
      pending s.cfg s.engine = nextElement s.cfg s.engine :: rest ∧ RestOrSilence s.cfg rest (pending s.cfg e) underrun := by
  have hi := hg.engine.pingpong hs
  have hpending := pending_pingpong_running hs (hi.plays hr)
  rw [readBlock_advance hi.desc, List.cons_append, ← nextElement_pingpong hs] at hpending
  by_cases hc : (s.engine.bufDesc s.engine.playing).advance.count = 0
  · refine ⟨_, _, _, _, tick_pingpong_complete hg.legal hg.engine hr hs hc, hpending, ?_⟩
    rw [hc]
    exact pending_completedBuffer hg.legal hs hg.engine
  · refine ⟨_, _, _, _, tick_pingpong_read hg.legal hg.engine hr hs hc, hpending, .inl ⟨?_, ?_, rfl⟩⟩
    · rw [← List.length_pos_iff, List.length_append, Memory.length_readBlock]
      omega
    · have hplays : (s.engine.setBufDesc s.engine.playing (s.engine.bufDesc s.engine.playing).advance).bst
          s.engine.playing = .playing := by rw [bst_setBufDesc]; exact hi.plays hr
      rw [pending_pingpong_running hs (by rw [Engine.setBufDesc_playing]; exact hplays)]
      simp [waitingPart, bufDesc_setBufDesc]

/-- What is pending of the current N-buffer buffer, of data or silent. -/
def currentPart (c : Config) (e : Engine) : List Pair :=
  if e.curSilent then silence e.desc.count
  else e.region.readBlock (bufIndex c (e.rdCnt.toNat % c.nbuf) e.desc.addr) e.desc.count

/-- A buffer of data that is retired leaves the fill, and the queue moves up by one place (R163). -/
theorem queueFill_retired {c : Config} {e : Engine} (hdata : e.curSilent = false) (hfill : queueFill e ≠ 0) :
    queueFill (retired c e) + 1 = queueFill e := by
  have hstep : e.wrCnt - (e.rdCnt + 1) = (e.wrCnt - e.rdCnt) - 1 := by ring
  have hpos : 1 ≤ (e.wrCnt - e.rdCnt).toNat := Nat.pos_of_ne_zero hfill
  simp only [queueFill, retired, hdata, Bool.false_eq_true, if_false]
  rw [hstep, BitVec.toNat_sub_of_le (by simpa [BitVec.le_def] using hpos)]
  exact Nat.sub_add_cancel hpos

theorem queueSlot_retired {c : Config} {e : Engine} (hdata : e.curSilent = false) (d : Nat) :
    queueSlot c (retired c e) d = queueSlot c e (d + 1) := by
  have hnext : e.rdCnt + 1 + BitVec.ofNat 32 d = e.rdCnt + BitVec.ofNat 32 (d + 1) := by
    rw [BitVec.ofNat_add, BitVec.add_comm (.ofNat 32 d), ← BitVec.add_assoc]; rfl
  simp only [queueSlot, retired, hdata, Bool.false_eq_true, if_false, hnext]

/-- The buffer that plays is the first of the queue, if it holds data; the rest is the queue once it is retired. -/
theorem queued_eq_cons {c : Config} {e : Engine} (hdata : e.curSilent = false) (hfill : queueFill e ≠ 0) :
    queued c e =
      e.region.readBlock (bufIndex c (e.rdCnt.toNat % c.nbuf) 0) c.bufLen ++ queued c (retired c e) := by
  simp only [queued]
  rw [← queueFill_retired hdata hfill, List.range_succ_eq_map, List.flatMap_cons, List.flatMap_map, queueSlot_zero]
  simp only [← queueSlot_retired hdata]
  rfl

theorem pending_nbuf_running {c : Config} {e : Engine} (hs : c.shape = .nbuf) (h : QueueInv c e)
    (hr : e.running = true) : pending c e = currentPart c e ++ queued c (retired c e) := by
  have htotal := h.desc.total
  rw [pending_nbuf hs, currentPart]
  cases hsilent : e.curSilent with
  | true =>
    have hsame : queued c (retired c e) = queued c e := by simp [queued, queueSlot, queueFill, retired, hsilent]
    rw [if_pos rfl, if_pos rfl, hsame]
  | false =>
    have hfill := h.filled hr hsilent
    have hrest : c.bufLen - e.desc.addr = e.desc.count := by omega
    rw [if_neg (by simp), if_neg (by simp), queued_eq_cons hsilent (by omega),
      List.drop_append_of_le_length (by rw [Memory.length_readBlock]; omega), Memory.drop_readBlock, hrest]
    rfl

theorem currentPart_advance {c : Config} {e : Engine} (hs : c.shape = .nbuf) (h : DescInv c e.desc) :
    currentPart c e = nextElement c e :: currentPart c { e with desc := e.desc.advance } := by
  rw [nextElement_nbuf hs, currentPart, currentPart]
  cases hsilent : e.curSilent with
  | true => rw [if_pos rfl, if_pos rfl, h.count_eq]; rfl
  | false => rw [if_neg (by simp), if_neg (by simp), readBlock_advance h]; rfl

@[simp] theorem length_currentPart (c : Config) (e : Engine) : (currentPart c e).length = e.desc.count := by
  unfold currentPart
  split
  · exact length_silence _
  · exact Memory.length_readBlock _ _ _

/-- After a completion the queue plays from its start, or silence where it is empty. -/
theorem pending_completedQueue {c : Config} (hl : Legal c) (hs : c.shape = .nbuf) (e : Engine) :
    RestOrSilence c (queued c (retired c e)) (pending c (completedQueue c e))
      (decide (queueFill (retired c e) = 0)) := by
  have hbuf := (legal_nbuf hl hs).2.1
  have hn := legal_n_pos hl
  have hsame : queued c (completedQueue c e) = queued c (retired c e) := rfl
  have hlen := length_queued c (retired c e)
  rw [pending_nbuf hs, hsame]
  by_cases hf : queueFill (retired c e) = 0
  · rw [hf, Nat.zero_mul, List.length_eq_zero_iff] at hlen
    have hsilent : (completedQueue c e).curSilent = true := decide_eq_true hf
    rw [hlen, if_pos hsilent, List.append_nil]
    exact .inr ⟨rfl, congrArg silence hbuf, decide_eq_true hf⟩
  · have hdata : (completedQueue c e).curSilent = false := decide_eq_false hf
    rw [if_neg (by simp [hdata])]
    refine .inl ⟨?_, rfl, decide_eq_false hf⟩
    rw [← List.length_pos_iff, hlen]
    exact Nat.mul_pos (Nat.pos_of_ne_zero hf) (by omega)

/-- The N-buffer tick plays the head of what is pending. -/
theorem tick_plays_nbuf {s : State} (hg : GoodState s) (hs : s.cfg.shape = .nbuf) (hr : s.engine.running = true) :
    ∃ e irq underrun rest, tick s = .next (s.ticked e (nextElement s.cfg s.engine) irq underrun) ∧
      pending s.cfg s.engine = nextElement s.cfg s.engine :: rest ∧ RestOrSilence s.cfg rest (pending s.cfg e) underrun := by
  have hi := hg.engine.nbuf hs
  have hpending := pending_nbuf_running hs hi hr
  rw [currentPart_advance hs hi.desc, List.cons_append] at hpending
  by_cases hc : s.engine.desc.advance.count = 0
  · refine ⟨_, _, _, _, tick_nbuf_complete hg.legal hg.engine hr hs hc, hpending, ?_⟩
    have hnone : currentPart s.cfg { s.engine with desc := s.engine.desc.advance } = [] := by
      rw [← List.length_eq_zero_iff, length_currentPart]; exact hc
    rw [hnone]
    exact pending_completedQueue hg.legal hs s.engine
  · refine ⟨_, _, _, _, tick_nbuf_read hg.legal hg.engine hr hs hc, hpending, .inl ⟨?_, ?_, rfl⟩⟩
    · rw [← List.length_pos_iff, List.length_append, length_currentPart]
      exact Nat.add_pos_left (Nat.pos_of_ne_zero hc) _
    · exact pending_nbuf_running hs (hi.read hr hc) hr

/-- Settles O46: in the ring the fed engine's pending elements, in the other shapes what the tick of the shape plays. -/
theorem tickPlaysWhatIsPending : Obligations.TickPlaysWhatIsPending := by
  intro s hg hr
  by_cases hs : s.cfg.shape = .ring
  · have ht := tick_ring hg.legal hg.engine hr hs
    have hfed := pending_ringFed hg.legal hs hg.engine hr
    refine ⟨_, nextElement s.cfg s.engine, pending s.cfg (ringTicked s.cfg s.engine), ht, rfl, ?_⟩
    by_cases hf : ringFill s.cfg s.engine = 0
    · have hi := hg.engine.ring hs
      obtain ⟨n, hn⟩ := Nat.exists_eq_add_of_le' (legal_n_pos hg.legal)
      have hsilent := nextElement_ring_empty hg.legal hs hi hf
      rw [ringFed, if_pos hf, pending_insertSilence hg.legal hs hi hf, hsilent, hn, silence_succ] at hfed
      have hrest : pending s.cfg (ringTicked s.cfg s.engine) = silence (s.cfg.n - 1) := by
        rw [hn, Nat.add_sub_cancel]
        exact (List.cons.inj hfed).2.symm
      exact .inr ⟨hs, pending_ring_empty hs hf, hsilent, hrest, rfl, by simp [State.ticked, Stats.ticked, hf]⟩
    · rw [ringFed, if_neg hf] at hfed
      exact .inl ⟨hfed, fun _ => ⟨rfl, by simp [State.ticked, Stats.ticked, hf]⟩, fun h => absurd hs h.1⟩
  · have hplays : ∃ e irq underrun rest, tick s = .next (s.ticked e (nextElement s.cfg s.engine) irq underrun) ∧
        pending s.cfg s.engine = nextElement s.cfg s.engine :: rest ∧
        RestOrSilence s.cfg rest (pending s.cfg e) underrun := by
      cases hc : s.cfg.shape with
      | ring => exact absurd hc hs
      | pingpong => exact tick_plays_pingpong hg hc hr
      | nbuf => exact tick_plays_nbuf hg hc hr
    obtain ⟨e, irq, underrun, rest, ht, hpending, hrest⟩ := hplays
    refine ⟨_, nextElement s.cfg s.engine, rest, ht, rfl, .inl ⟨hpending, ?_⟩⟩
    obtain ⟨hne, hafter, rfl⟩ | ⟨hnil, hafter, rfl⟩ := hrest
    · exact ⟨fun _ => ⟨hafter, rfl⟩, fun h => absurd h.2 hne⟩
    · exact ⟨fun h => absurd (h.resolve_left hs) (not_not.2 hnil), fun _ => ⟨hafter, rfl⟩⟩

end Sys2Proof.Machine
end

section
/-! PROOFS. Every hold ends by ticks alone (41_dma.md R134; 70_reset_and_hazards.md R256). -/

namespace Sys2Proof.Machine

/-- A held block runs: before the start nothing is held (R145 (a)). -/
theorem running_of_pushHeld {s : State} (hg : GoodState s) (h : pushHeld s.cfg s.engine = true) :
    s.engine.running = true := by
  by_contra hr
  rw [pushHeld_of_stopped hg.legal hg.engine (Bool.eq_false_iff.2 hr)] at h
  cases h

theorem heldIn_of_not_pushHeld {s : State} (i : Instr) (h : pushHeld s.cfg s.engine = false) : heldIn i s = false := by
  by_contra hheld
  obtain ⟨-, -, hpush⟩ := (heldIn_iff i s).1 (Bool.eq_true_of_not_eq_false hheld)
  rw [h] at hpush
  cases hpush

/-- The hold of PUSH and SUBMIT ends within `bound` ticks. -/
def HoldEndsWithin (bound : Nat) (s : State) : Prop :=
  ∃ k t, 1 ≤ k ∧ k ≤ bound ∧ ticks k s = .next t ∧ pushHeld t.cfg t.engine = false

theorem HoldEndsWithin.mono {a b : Nat} {s : State} (h : HoldEndsWithin a s) (hab : a ≤ b) : HoldEndsWithin b s := by
  obtain ⟨k, t, hk, hka, ht, hfree⟩ := h
  exact ⟨k, t, hk, hka.trans hab, ht, hfree⟩

/-- A hold that ends after `a` ticks more. -/
theorem HoldEndsWithin.after {a b : Nat} {s u : State} (hu : ticks a s = .next u) (h : HoldEndsWithin b u) :
    HoldEndsWithin (a + b) s := by
  obtain ⟨k, t, hk, hkb, ht, hfree⟩ := h
  exact ⟨a + k, t, by omega, by omega, by rw [ticks_add, hu, andThen_next, ht], hfree⟩

/-- A hold that one tick ends. -/
theorem holdEndsWithin_one {s t : State} (ht : tick s = .next t) (hfree : pushHeld t.cfg t.engine = false) :
    HoldEndsWithin 1 s :=
  ⟨1, t, le_rfl, le_rfl, by rw [ticks, ht]; rfl, hfree⟩

/-- The ring: each tick reads one element, and a frame fits once what was read makes room for it. -/
theorem holdEndsWithin_ring {s : State} (hg : GoodState s) (hs : s.cfg.shape = .ring) (hr : s.engine.running = true)
    (hheld : pushHeld s.cfg s.engine = true) : HoldEndsWithin s.cfg.n s := by
  have hfull : ¬ ringFill s.cfg s.engine + s.cfg.n ≤ s.cfg.ringSize - s.cfg.minHeadroom := by
    rw [← pushHeld_ring hs, hheld]; exact nofun
  have hle := (hg.engine.ring hs).fill_le
  have hframe := legal_ring_frame hg.legal hs
  obtain ⟨t, ht, hran, hquiet, -, -⟩ :=
    ticks_quiet (k := ringFill s.cfg s.engine + s.cfg.n - (s.cfg.ringSize - s.cfg.minHeadroom)) hg hr
      (by rw [quietTicks_ring hs]; omega)
  have hst : t.cfg.shape = .ring := by rw [hran.cfg, hs]
  rw [quietTicks_ring hst, quietTicks_ring hs] at hquiet
  refine ⟨_, t, by omega, by omega, ht, (pushHeld_ring hst).2 ?_⟩
  rw [hran.cfg] at hquiet ⊢
  omega

theorem quietTicks_pingpong_eq {c : Config} (hs : c.shape = .pingpong) (e : Engine) :
    quietTicks c e = (e.bufDesc e.playing).advance.count := quietTicks_pingpong hs e

/-- The ping-pong shape: the completion leaves the buffer that played `Refilling` (R158). -/
theorem holdEndsWithin_pingpong {s : State} (hg : GoodState s) (hs : s.cfg.shape = .pingpong)
    (hr : s.engine.running = true) : HoldEndsWithin s.cfg.n s := by
  obtain ⟨u, hu, hran, hquiet, -, -⟩ := ticks_quiet hg hr (le_refl _)
  have hsu : u.cfg.shape = .pingpong := by rw [hran.cfg, hs]
  have hlast : (u.engine.bufDesc u.engine.playing).advance.count = 0 := by
    rw [← quietTicks_pingpong_eq hsu]; omega
  have hfree : pushHeld u.cfg (completedBuffer u.cfg u.engine.playing u.engine) = false := by
    rw [← Bool.not_eq_true, pushHeld_pingpong_iff hsu, completedBuffer_playing, otherBuffer_otherBuffer,
      completedBuffer_bst, if_neg (otherBuffer_ne _).symm]
    exact fun h => nomatch h.2
  have hone := holdEndsWithin_one (tick_pingpong_complete hran.good.legal hran.good.engine hran.running hsu hlast) hfree
  exact (hone.after hu).mono (quietTicks_lt hg.legal hg.engine (by simp [hs]))

theorem quietTicks_nbuf_eq {c : Config} (hs : c.shape = .nbuf) (e : Engine) :
    quietTicks c e = e.desc.advance.count := quietTicks_nbuf hs e

/-- Quiet ticks of the N-buffer shape play on what they play, data or silence. -/
theorem ticks_quiet_curSilent {k : Nat} {s t : State} (hg : GoodState s) (hs : s.cfg.shape = .nbuf)
    (hr : s.engine.running = true) (hk : k ≤ quietTicks s.cfg s.engine) (ht : ticks k s = .next t) :
    t.engine.curSilent = s.engine.curSilent := by
  induction k generalizing s with
  | zero => rw [Host.Outcome.next.inj ht]
  | succ k ih =>
    have hc : s.engine.desc.advance.count ≠ 0 := by rw [← quietTicks_nbuf_eq hs]; omega
    have hticked := engineTicked_nbuf_read hs hg.engine hr hc
    obtain ⟨hquiet, -, -⟩ := hticked.quiet (by omega)
    rw [ticks, tick_nbuf_read hg.legal hg.engine hr hs hc, andThen_next] at ht
    exact (ih (hg.ticked hr _ hticked) hs hr (Nat.le_of_succ_le_succ (hk.trans_eq hquiet.symm)) ht :)

/-- The N-buffer shape while data plays: the completion takes its buffer out of the fill (R163). -/
theorem holdEndsWithin_nbuf_data {s : State} (hg : GoodState s) (hs : s.cfg.shape = .nbuf) (hr : s.engine.running = true)
    (hdata : s.engine.curSilent = false) : HoldEndsWithin (quietTicks s.cfg s.engine + 1) s := by
  obtain ⟨u, hu, hran, hquiet, -, -⟩ := ticks_quiet hg hr (le_refl _)
  have hsu : u.cfg.shape = .nbuf := by rw [hran.cfg, hs]
  have hdatau : u.engine.curSilent = false := (ticks_quiet_curSilent hg hs hr (le_refl _) hu).trans hdata
  have hlast : u.engine.desc.advance.count = 0 := by rw [← quietTicks_nbuf_eq hsu]; omega
  have hiu := hran.good.engine.nbuf hsu
  have hfill := hiu.filled hran.running hdatau
  have hretired := queueFill_retired (c := u.cfg) hdatau (by omega)
  have hle := hiu.fill_le
  have hfree : pushHeld u.cfg (completedQueue u.cfg u.engine) = false := by
    have hsame : queueFill (completedQueue u.cfg u.engine) = queueFill (retired u.cfg u.engine) := rfl
    rw [pushHeld_nbuf hsu, hsame]
    omega
  exact (holdEndsWithin_one (tick_nbuf_complete hran.good.legal hran.good.engine hran.running hsu hlast) hfree).after hu

/-- The N-buffer shape while silence plays: its end frees nothing, but the queue that is still full plays next (R163, R164). -/
theorem holdEndsWithin_nbuf {s : State} (hg : GoodState s) (hs : s.cfg.shape = .nbuf) (hr : s.engine.running = true) :
    HoldEndsWithin (2 * s.cfg.n) s := by
  obtain ⟨u, hu, hran, hquiet, -, -⟩ := ticks_quiet hg hr (le_refl _)
  obtain ⟨w, hw, hran', hquietw, -, -⟩ := tick_event hran.good hran.running (by omega)
  have hsu : u.cfg.shape = .nbuf := by rw [hran.cfg, hs]
  have hsw : w.cfg.shape = .nbuf := by rw [hran'.cfg, hsu]
  have hlt := quietTicks_lt hg.legal hg.engine (by simp [hs])
  cases hfree : pushHeld w.cfg w.engine with
  | false => exact ((holdEndsWithin_one hw hfree).after hu).mono (by omega)
  | true =>
    have hdata : w.engine.curSilent = false := by
      have hlast : u.engine.desc.advance.count = 0 := by rw [← quietTicks_nbuf_eq hsu]; omega
      rw [tick_nbuf_complete hran.good.legal hran.good.engine hran.running hsu hlast] at hw
      obtain rfl := Host.Outcome.next.inj hw
      have hfull : queueFill (retired u.cfg u.engine) = u.cfg.nbuf := (pushHeld_nbuf_iff hsu).1 hfree
      have hnbuf := (legal_nbuf hran.good.legal hsu).2.2.1
      exact decide_eq_false (by omega)
    have hend := holdEndsWithin_nbuf_data hran'.good hsw hran'.running hdata
    have hrest : HoldEndsWithin (1 + (quietTicks w.cfg w.engine + 1)) u :=
      hend.after (by rw [ticks, hw]; rfl)
    rw [hran.cfg] at hquietw
    exact (hrest.after hu).mono (by omega)

/-- Settles O48: by shape, from the ticks that stay quiet until a buffer completes. -/
theorem everyHoldEnds : Obligations.EveryHoldEnds := by
  intro s i hg hheld
  obtain ⟨-, -, hpush⟩ := (heldIn_iff i s).1 hheld
  have hr := running_of_pushHeld hg hpush
  have hends : HoldEndsWithin (if s.cfg.shape = .nbuf ∧ s.engine.curSilent = true then 2 * s.cfg.n else s.cfg.n) s := by
    cases hs : s.cfg.shape with
    | ring => exact holdEndsWithin_ring hg hs hr hpush
    | pingpong => exact holdEndsWithin_pingpong hg hs hr
    | nbuf =>
      cases hsilent : s.engine.curSilent with
      | true => exact holdEndsWithin_nbuf hg hs hr
      | false =>
        exact (holdEndsWithin_nbuf_data hg hs hr hsilent).mono (quietTicks_lt hg.legal hg.engine (by simp [hs]))
  obtain ⟨k, t, hk, hbound, ht, hfree⟩ := hends
  exact ⟨k, t, hk, hbound, ht, heldIn_of_not_pushHeld i hfree⟩

end Sys2Proof.Machine
end

section
/-! PROOFS. The control commands as whole next states (42_control.md R181 to R184), and what the next frame makes of the registers
they set. -/

namespace Sys2Proof.Machine

/-! ### The operands (R85) -/

theorem volumeOperand_eq_ite (a0 : Byte) : volumeOperand a0 = if 128 < a0.toNat then 128 else a0 := by
  split
  next h => rw [volumeOperand, Nat.min_eq_right (by omega)]; rfl
  next h => rw [volumeOperand, Nat.min_eq_left (by omega), BitVec.ofNat_toNat, BitVec.setWidth_eq]

theorem enableOperand_eq_decide (a0 : Byte) : enableOperand a0 = decide (a0.toNat % 2 = 1) := by
  rw [enableOperand, BitVec.getLsbD, Nat.testBit_zero]

theorem enableOperand_eq_false_iff (a0 : Byte) : enableOperand a0 = false ↔ a0.toNat % 2 = 0 := by
  rw [enableOperand_eq_decide, decide_eq_false_iff_not]
  omega

theorem toNat_shiftOperand (a0 : Byte) : (shiftOperand a0).toNat = a0.toNat % 16 :=
  BitVec.extractLsb'_toNat 0 4 a0

theorem shiftOperand_eq_ofNat (a0 : Byte) : shiftOperand a0 = BitVec.ofNat 4 (a0.toNat % 16) := by
  rw [← toNat_shiftOperand, BitVec.ofNat_toNat, BitVec.setWidth_eq]

/-! ### The commands, one equation each -/

theorem exec_reset (s : State) :
    exec .reset s = .next { s with mixer := { s.mixer with lpfState := 0, prevOut := 0 }, stats := counted s.stats } := rfl

theorem exec_volume (a0 : Byte) (s : State) :
    exec (.volume a0) s =
      .next { s with control := { s.control with volume := volumeOperand a0 }, stats := counted s.stats } := rfl

theorem exec_enable (a0 : Byte) (s : State) :
    exec (.enable a0) s =
      .next { s with control := { s.control with enable := enableOperand a0 }, stats := counted s.stats } := rfl

theorem exec_setShift (a0 : Byte) (s : State) :
    exec (.setShift a0) s =
      .next { s with control := { s.control with dmaShift := shiftOperand a0 }, stats := counted s.stats } := rfl

/-! ### What the registers do to the next frame -/

@[simp] theorem clip16_zero : clip16 0 = 0 := clip16_of_range (by decide) (by decide)

theorem premix_volume_zero (fm pg : Int) : premix fm pg 0 = 0 := by
  have hproduct : (fm + pg) * (((0 : BitVec 8).toNat : Nat) : Int) = 0 := by simp
  rw [premix, hproduct, sra, Int.zero_ediv, clip16_zero]

/-- The halves of a copied frame's element, as R132 and R184 shift them. -/
theorem toInt_halves_of_copiedFrame {s : State} {j : Nat} {p : Pair} (h : (copiedFrame s)[j]? = some p) :
    p.l.toInt = (s.mixer.outBuf.read j).l.toInt / 2 ^ s.control.dmaShift.toNat ∧
      p.r.toInt = (s.mixer.outBuf.read j).r.toInt / 2 ^ s.control.dmaShift.toNat := by
  obtain ⟨hj, rfl⟩ := List.getElem?_eq_some_iff.1 h
  rw [getElem_copiedFrame]
  exact ⟨toInt_toSample_sra _ _, toInt_toSample_sra _ _⟩

/-! ### VOLUME, ENABLE and SET_SHIFT (R182 to R184) -/

/-- Settles O14: the operand's minimum is the saturation, and a product with volume 0 is 0. -/
theorem volumeSetsSaturatedVolume : Obligations.VolumeSetsSaturatedVolume := by
  refine ⟨encodes_volume, fun a0 s => ?_, premix_volume_zero⟩
  rw [exec_volume, volumeOperand_eq_ite]

/-- Settles O15: the next state's enable is bit 0 of the operand, and the mute condition reads that enable. -/
theorem enableSetsBitZero : Obligations.EnableSetsBitZero := by
  refine ⟨encodes_enable, fun a0 s => ⟨by rw [exec_enable, enableOperand_eq_decide], fun t inp ht => ?_⟩⟩
  rw [exec_enable] at ht
  obtain rfl := Host.Outcome.next.inj ht
  rw [isMuted_iff, enableOperand_eq_false_iff]

/-- Settles O16: the next state's shift is the operand's low four bits, `OUT_BUF` is as before, and the next copy shifts by it. -/
theorem setShiftSetsLowFourBits : Obligations.SetShiftSetsLowFourBits := by
  refine ⟨encodes_setShift, fun a0 s => ⟨by rw [exec_setShift, shiftOperand_eq_ofNat], fun t j p ht hp => ?_⟩⟩
  rw [exec_setShift] at ht
  obtain rfl := Host.Outcome.next.inj ht
  rw [← toNat_shiftOperand]
  exact toInt_halves_of_copiedFrame hp

/-! ### RESET (R181, R198) -/

/-- Outside `Ready` the filter state and the previous output are 0 already (R194). -/
theorem exec_reset_stopped {s : State} (hg : GoodState s) (hr : s.engine.blkState ≠ .ready) :
    exec .reset s = .next { s with stats := counted s.stats } := by
  have hzero : ({ s.mixer with lpfState := 0, prevOut := 0 } : Mixer) = s.mixer := by rw [(hg.stopped hr).mixer]; rfl
  rw [exec_reset, hzero]

/-- Settles O17: RESET's meaning in every state, its idle case from `StoppedInv`, and the HOST's turn that runs it, which is
O6 for a kind that is passed on. -/
theorem resetZeroesFilterAndPrevious : Obligations.ResetZeroesFilterAndPrevious := by
  refine ⟨encodes_reset, exec_reset, fun s hg hr => exec_reset_stopped hg hr, fun s r rest later hp hkind => ?_⟩
  have hdecode : decode r = .command .reset := encodes_reset r hkind
  rw [stepRunsDecodedCommand s r rest later .reset hp hdecode rfl, exec_reset]
  rfl

end Sys2Proof.Machine
end

section
/-! PROOFS. The system commands and the passed-on kinds as whole next states (43_system.md R191 to R199), and the values that the
zeroing leaves (R194). -/

namespace Sys2Proof.Machine

/-! ### The passed-on kinds (R199) -/

theorem exec_regwrite (chip port data : Byte) (ts : Word32) (s : State) :
    exec (.regwrite chip port data ts) s = .next { s with stats := counted s.stats } := rfl

theorem exec_framesync (cycle : Word32) (s : State) :
    exec (.framesync cycle) s = .next { s with stats := counted s.stats } := rfl

theorem exec_dacsample (d : Sample) (ts : Word32) (s : State) :
    exec (.dacsample d ts) s = .next { s with stats := counted s.stats } := rfl

/-- REGWRITE's port and data are bytes 2 and 3 of the record (R82, R84). -/
theorem encodes_regwrite_bytes : Encodes 0x00 fun r => .regwrite r.b1 r.b2 r.b3 r.ts := by
  intro r hk
  have hport : r.a1.extractLsb' 0 8 = r.b2 := BitVec.extractLsb'_append_eq_right
  have hdata : r.a1.extractLsb' 8 8 = r.b3 := BitVec.extractLsb'_append_eq_left
  rw [encodes_regwrite r hk]
  simp only [hport, hdata, Record.a0]

theorem heldIn_of_passedOn {i : Instr} (h : passedOn i = true) (s : State) : heldIn i s = false := by
  cases i with
  | push => cases h
  | submit => cases h
  | _ => rfl

/-- The HOST's turn on a passed-on command that only counts itself: the record leaves the port and joins the inbox, and the
count is the whole of the rest. -/
theorem step_of_passedOn_counted {s : State} {r : Record} {rest : List Record} {later : List Turn} {i : Instr}
    (hp : Presents s r rest later) (hdecode : decode r = .command i) (hpass : passedOn i = true)
    (hcount : ∀ u : State, exec i u = .next { u with stats := counted u.stats }) :
    step s = .next
      { s with turns := later, port := rest, scaInbox := s.scaInbox ++ [r], stats := counted s.stats } := by
  rw [stepRunsDecodedCommand s r rest later i hp hdecode (heldIn_of_passedOn hpass s), hcount, if_pos hpass]

/-- Settles O10: each of the three kinds only counts, and O6 gives the HOST's turn that runs it and hands its record on. -/
theorem passedOnKindsOnlyCount : Obligations.PassedOnKindsOnlyCount := by
  refine ⟨exec_regwrite, exec_framesync, exec_dacsample, encodes_regwrite_bytes, encodes_framesync, encodes_dacsample,
    fun s r rest later hp hkind => ?_⟩
  obtain hk | hk | hk := hkind
  · exact step_of_passedOn_counted hp (encodes_regwrite r hk) rfl (exec_regwrite _ _ _ _)
  · exact step_of_passedOn_counted hp (encodes_framesync r hk) rfl (exec_framesync _)
  · exact step_of_passedOn_counted hp (encodes_dacsample r hk) rfl (exec_dacsample _ _)

/-! ### TEARDOWN (R193) -/

theorem exec_teardown {s : State} (h : s.engine.blkState ≠ .failed) :
    exec .teardown s = .next { s with mixer := .reset, engine := .reset s.cfg, stats := counted s.stats } := by
  have hlegal : legalIn .teardown s.engine.blkState = true := decide_eq_true h
  show execTeardown s = _
  rw [execTeardown, hlegal, ifLegal_true]
  rfl

theorem exec_teardown_failed {s : State} (h : s.engine.blkState = .failed) : exec .teardown s = .next s :=
  exec_of_not_legal ((legalIn_eq_false_iff _ _).2 (.inl ⟨.inr rfl, h⟩))

/-- In `Off` the mixer and the engine hold their reset values already (R194). -/
theorem exec_teardown_off {s : State} (hg : GoodState s) (ho : s.engine.blkState = .off) :
    exec .teardown s = .next { s with stats := counted s.stats } := by
  have hstopped : StoppedInv s := hg.stopped (by simp [ho])
  have hengine : Engine.reset s.cfg = s.engine := by rw [hstopped.engine, ho]; rfl
  rw [exec_teardown (by simp [ho]), hengine, ← hstopped.mixer]

/-- Settles O19: TEARDOWN's meaning outside `Failed`, its idle case from `StoppedInv`, and R90's discard. -/
theorem teardownStopsAndZeroes : Obligations.TeardownStopsAndZeroes :=
  ⟨encodes_teardown, fun _ => exec_teardown, fun _ => exec_teardown_off, fun _ => exec_teardown_failed⟩

/-! ### INIT (R191, R192) -/

/-- The engine after ENV's answer `hw`: zeroed, and either `Ready` with the interrupt enabled or `Failed` with it masked. -/
theorem zeroed_claimed (c : Config) (hw : Bool) :
    Engine.zeroed c (if hw then .ready else .failed) =
      { Engine.reset c with blkState := if hw then .ready else .failed, irqEn := hw } := by
  cases hw with
  | true => rfl
  | false => rfl

/-- INIT in `Off` and in `Ready`: the TEARDOWN that comes first in `Ready` leaves no trace. -/
theorem exec_init {s : State} (h : s.engine.blkState ≠ .failed) :
    exec .init s = .next
      { s with
        mixer := .reset
        engine :=
          { Engine.reset s.cfg with
            blkState := if s.hwAvailable then .ready else .failed
            irqEn := s.hwAvailable }
        respStream := s.respStream ++ [if s.hwAvailable then 0 else 1]
        stats := counted s.stats } := by
  have hlegal : legalIn .init s.engine.blkState = true := decide_eq_true h
  have hbringUp : bringUp (if s.engine.blkState = .ready then tearDown s else s) = bringUp s := by
    split
    · exact bringUp_tearDown s
    · rfl
  show execInit s = _
  rw [execInit, hlegal, ifLegal_true, hbringUp, bringUp_eq, zeroed_claimed]
  rfl

theorem exec_init_failed {s : State} (h : s.engine.blkState = .failed) : exec .init s = .next s :=
  exec_of_not_legal ((legalIn_eq_false_iff _ _).2 (.inl ⟨.inl rfl, h⟩))

/-- R192: after a TEARDOWN, INIT does what it would have done without it, one count later. -/
theorem exec_init_after_teardown {s u v t : State} (hne : s.engine.blkState ≠ .failed) (hu : exec .teardown s = .next u)
    (hv : exec .init u = .next v) (ht : exec .init s = .next t) : v = { t with stats := counted t.stats } := by
  obtain rfl := Host.Outcome.next.inj ((exec_teardown hne).symm.trans hu)
  have hoff : (Engine.reset s.cfg).blkState ≠ .failed := nofun
  obtain rfl := Host.Outcome.next.inj ((exec_init hoff).symm.trans hv)
  obtain rfl := Host.Outcome.next.inj ((exec_init hne).symm.trans ht)
  rfl

/-- Settles O18: INIT's meaning outside `Failed`, R90's discard, and R192's comparison from `Ready`. -/
theorem initBringsUp : Obligations.InitBringsUp :=
  ⟨encodes_init, fun _ => exec_init, fun _ => exec_init_failed,
    fun _ _ _ _ hr => exec_init_after_teardown (by simp [hr])⟩

/-! ### What the zeroing reaches (R194) -/

/-- INIT and TEARDOWN both leave the reset values everywhere but in `BLK_STATE` and `IRQ_EN`. -/
theorem reset_but_block_of_init_or_teardown {s t : State} (hne : s.engine.blkState ≠ .failed)
    (h : exec .init s = .next t ∨ exec .teardown s = .next t) :
    t.mixer = .reset ∧ ∃ b q, t.engine = { Engine.reset s.cfg with blkState := b, irqEn := q } := by
  obtain hinit | htear := h
  · obtain rfl := Host.Outcome.next.inj ((exec_init hne).symm.trans hinit)
    exact ⟨rfl, _, _, rfl⟩
  · obtain rfl := Host.Outcome.next.inj ((exec_teardown hne).symm.trans htear)
    exact ⟨rfl, .off, false, rfl⟩

/-- Settles O20: the registers are R50's reset values, and a memory with no cell reads as silence. -/
theorem zeroingReachesEverything : Obligations.ZeroingReachesEverything := by
  intro s t hne h
  obtain ⟨hmixer, b, q, hengine⟩ := reset_but_block_of_init_or_teardown hne h
  rw [hmixer, hengine]
  exact ⟨rfl, rfl, rfl, Memory.read_nil, Memory.read_nil, rfl, rfl, rfl, rfl, rfl, rfl, rfl, rfl, rfl, rfl, rfl, rfl, rfl,
    rfl, rfl, rfl⟩

/-! ### GET_STATS and RESET_STATS (R195, R196) -/

theorem exec_getStats (s : State) :
    exec .getStats s = .next { s with respStream := s.respStream ++ statsWords s.stats, stats := counted s.stats } :=
  execGetStats_eq s

theorem exec_resetStats (s : State) : exec .resetStats s = .next { s with stats := .zero } := rfl

/-- Settles O21: the response is `statsWords` of the counters before the count, which is R42's order. -/
theorem getStatsRespondsSevenWords : Obligations.GetStatsRespondsSevenWords :=
  ⟨encodes_getStats, exec_getStats⟩

/-- Settles O22: the counters are all 0 after RESET_STATS, and a GET_STATS then answers those. -/
theorem resetStatsZeroesSevenCounters : Obligations.ResetStatsZeroesSevenCounters := by
  refine ⟨encodes_resetStats, exec_resetStats, fun s t u ht hu => ?_⟩
  obtain rfl := Host.Outcome.next.inj ((exec_resetStats s).symm.trans ht)
  obtain rfl := Host.Outcome.next.inj ((exec_getStats _).symm.trans hu)
  rfl

end Sys2Proof.Machine
end

section
/-! PROOFS. Every agent's turn answers from a good state: no traps, no index out of range (60_exceptions.md R219, 20_memory.md
R61). -/

namespace Sys2Proof.Machine

/-- The HOST's turn: nothing presented, a reserved record discarded, a held command waiting, or a command run. -/
theorem hostTurn_answers {s : State} (hg : GoodState s) : ∃ t, hostTurn s = .next t := by
  cases hport : s.port with
  | nil => exact ⟨s, by rw [hostTurn, hport]⟩
  | cons r rest =>
    cases hdecode : decode r with
    | reserved k => exact ⟨_, hostTurn_of_reserved hport hdecode⟩
    | command i =>
      cases hheld : heldIn i s with
      | true => exact ⟨s, hostTurn_of_held hport hdecode hheld⟩
      | false =>
        rw [hostTurn_of_command hport hdecode hheld]
        exact exec_answers (hg.consume r rest (passedOn i)) i

/-- The DMA agent's turn: disabled, or a tick of a running engine. -/
theorem dmaTurn_answers {s : State} (hg : GoodState s) : ∃ t, tick s = .next t := by
  cases hen : tickEnabled s.engine with
  | false => exact ⟨s, tick_disabled hen⟩
  | true =>
    obtain ⟨-, hrunning⟩ := (tickEnabled_iff _).1 hen
    exact tick_answers hg.legal hg.engine hrunning

/-- The SCA's turn: a count is a register, a sample needs an element that its memory has (log 9). -/
theorem scaTurn_answers {w : ScaWrite} {s : State} (hw : w.inRange s.cfg) : ∃ t, scaTurn w s = .next t := by
  cases w with
  | fmCount v => exact ⟨_, rfl⟩
  | psgCount v => exact ⟨_, rfl⟩
  | fmSample i v => exact ⟨_, scaTurn_fmSample hw v⟩
  | psgSample i v => exact ⟨_, scaTurn_psgSample hw v⟩

theorem envTurn_answers (a : EnvAction) (s : State) : ∃ t, envTurn a s = .next t := by
  cases a with
  | hwAvailable b => exact ⟨_, rfl⟩
  | queueOverflows v => exact ⟨_, rfl⟩
  | maxQueueDepth v => exact ⟨_, rfl⟩

theorem runTurn_answers {turn : Turn} {s : State} (hg : GoodState s) (hturn : turn.inRange s.cfg) :
    ∃ t, runTurn turn s = .next t := by
  cases turn with
  | host => exact hostTurn_answers hg
  | dma => exact dmaTurn_answers hg
  | sca w => exact scaTurn_answers hturn
  | env a => exact envTurn_answers a s

/-- Settles O52: a legal configuration is not refused, and the turn at the head of a good state's list is in range and taken from
a state that is good as well. -/
theorem stepNeverStops : Obligations.StepNeverStops := by
  intro s hg
  cases hturns : s.turns with
  | nil => exact ⟨s, step_of_no_turn hg.legal hturns⟩
  | cons turn later =>
    have hlater : GoodState { s with turns := later } :=
      hg.of_same rfl rfl rfl rfl rfl fun x hx => hturns ▸ List.mem_cons_of_mem turn hx
    have hturn : turn.inRange s.cfg := hg.turns turn (hturns ▸ List.mem_cons_self)
    rw [step_of_turn hg.legal hturns]
    exact runTurn_answers hlater hturn

end Sys2Proof.Machine
end

section
/-! PROOFS. What the block guarantees from power-on: the limits that the limiter puts on every written sample (70_reset_and_hazards.md
R258, 40_mixer.md R112) and the value of every piece of state (R240, 10_state.md R50). -/

namespace Sys2Proof.Machine

/-! ### The limits of R258 -/

/-- What the limiter makes of a value `v` above the threshold: the threshold and the compressed overshoot (R112). -/
def limitAt (c : Config) (v : Int) : Int := (c.limT : Int) + (v - c.limT) / 2 ^ c.limShift

theorem limitAt_mono (c : Config) {v w : Int} (h : v ≤ w) : limitAt c v ≤ limitAt c w :=
  add_le_add_right (Int.ediv_le_ediv (by positivity) (by omega)) _

theorem limT_le_limitAt {c : Config} {v : Int} (h : (c.limT : Int) ≤ v) : (c.limT : Int) ≤ limitAt c v :=
  le_add_of_nonneg_right (Int.ediv_nonneg (by omega) (by positivity))

/-- A value is within the limits of R258. -/
def WithinLimits (c : Config) (v : Int) : Prop := -limitAt c 32768 ≤ v ∧ v ≤ limitAt c 32767

theorem withinLimits_of_abs_le {c : Config} (hT : c.limT ≤ 32767) {v : Int} (h : |v| ≤ (c.limT : Int)) :
    WithinLimits c v := by
  obtain ⟨hneg, hpos⟩ := abs_le.1 h
  have hlow := limT_le_limitAt (c := c) (v := 32768) (by omega)
  have hhigh := limT_le_limitAt (c := c) (v := 32767) (by omega)
  exact ⟨by omega, by omega⟩

/-- The limiter takes an `i16` to its limits: it is monotone above the threshold, and below its negation it is the mirror
image, where an `i16` reaches one further. -/
theorem withinLimits_softLimit {c : Config} (hen : c.limEn = true) (hT : c.limT ≤ 32767) {y : Int} (hy : InI16 y) :
    WithinLimits c (softLimit c y) := by
  obtain ⟨hge, hle⟩ := hy
  obtain ⟨hwithin, habove, hbelow⟩ := softLimit_cases hen y
  have hlow := limT_le_limitAt (c := c) (v := 32768) (by omega)
  have hhigh := limT_le_limitAt (c := c) (v := 32767) (by omega)
  rcases le_or_gt |y| (c.limT : Int) with h | h
  · rw [hwithin h]; exact withinLimits_of_abs_le hT h
  · rcases lt_abs.1 h with hpos | hneg
    · have hval : softLimit c y = limitAt c y := habove hpos
      have hreach := limT_le_limitAt hpos.le
      have hmono := limitAt_mono c hle
      exact ⟨by omega, by omega⟩
    · have hval : softLimit c y = -limitAt c (-y) := hbelow (by omega)
      have hreach := limT_le_limitAt hneg.le
      have hmono := limitAt_mono c (show -y ≤ 32768 by omega)
      exact ⟨by omega, by omega⟩

/-- A written value is the start-up window's 0 or has passed the limiter as its last stage. -/
theorem withinLimits_outputValue {c : Config} (hen : c.limEn = true) (hT : c.limT ≤ 32767) (m : Mixer) (i : Nat) {cur : Int}
    (hcur : InI16 cur) : WithinLimits c (outputValue c m i cur) := by
  by_cases h : m.startupCtr.toNat < c.startupFrames
  · rw [outputValue_startup h]; exact withinLimits_of_abs_le hT (by simp)
  · rw [outputValue_played h]
    exact withinLimits_softLimit hen hT (inI16_crossfade c (toInt_sample_range _) hcur i)

theorem legal_limT_le {c : Config} (h : Legal c) : c.limT ≤ 32767 := by
  obtain ⟨-, -, -, -, -, -, -, hT, -⟩ := legal_common h
  exact hT

/-- Settles O34: both halves of a written element are the value of its sample, which the limiter keeps within the limits. -/
theorem outputStaysWithinTheLimits : Obligations.OutputStaysWithinTheLimits := by
  intro s t hl hr hen hge hle ht i hi
  have hlpf : InI16 s.mixer.lpfState.toInt := ⟨hge, hle⟩
  obtain rfl := Host.Outcome.next.inj ((exec_mix_ready hl hr).symm.trans ht)
  obtain ⟨hleft, hright⟩ := toInt_halves_mixedFrame s.cfg s.control s.input hlpf hi
  have hvalue : WithinLimits s.cfg (frameValue s.cfg s.control s.input s.mixer i) :=
    withinLimits_outputValue hen (legal_limT_le hl) _ _ (inI16_frameTrace _ _ _ hlpf (i + 1))
  exact ⟨hvalue.1.trans_eq hleft.symm, hleft.trans_le hvalue.2, hvalue.1.trans_eq hright.symm, hright.trans_le hvalue.2⟩

/-! ### Power-on (R240) -/

/-- Settles O23: the four memories are empty, so each of their elements reads as its default; a register is what `State.powerOn`
puts in it. -/
theorem powerOnValues : Obligations.PowerOnValues := by
  intro c
  have hsample : ∀ i, Memory.read ([] : Memory Sample) i = 0 := Memory.read_nil
  have hpair : ∀ i, Memory.read ([] : Memory Pair) i = ⟨0, 0⟩ := fun i => (Memory.read_nil i).trans default_pair
  refine ⟨rfl, rfl, rfl, hsample, hsample, rfl, rfl, rfl, hpair, hpair, ?registers⟩
  case registers => and_intros <;> rfl

end Sys2Proof.Machine
end
